-- ==== Sys2Proof/Word.lean ====
section
/-! DEFINITION. The two widths of the engine: bytes of DMEM (20_memory.md R70) and the 32-bit registers of the
register window (00_scope.md R12). Everything else the engine computes is a mathematical integer (R13), a `Nat`. -/

namespace Sys2Proof

/-- A byte of DMEM. -/
abbrev Byte := BitVec 8

/-- A register of the register window, or a command word (R12, R100). -/
abbrev Word := BitVec 32

/-- The 32-bit register value of an integer result. -/
abbrev Word.ofInt (n : Nat) : Word := BitVec.ofNat 32 n

end Sys2Proof
end

