-- ==== Sys2Proof/Syntax.lean ====
section
/-! DEFINITION. The commands of 30_encoding.md R101, one constructor per row of spec/opcode_table.json. The immediate
of R102 is the only operand a command word carries: every other operand is an argument register (R103). -/

namespace Sys2Proof

/-- A command (R101, R102). -/
inductive Instr where
  /-- NOP (R140). -/
  | nop
  /-- BWT_FWD (R160). -/
  | bwtFwd
  /-- BWT_INV (R165). -/
  | bwtInv
  /-- MTF_ENC (R182). -/
  | mtfEnc
  /-- MTF_DEC (R184). -/
  | mtfDec
  /-- RLE_ENC (R203). -/
  | rleEnc
  /-- RLE_DEC (R206). -/
  | rleDec
  /-- FSE_NORM; IMM[0] = AUTOA (R226). -/
  | fseNorm (autoa : Bool)
  /-- FSE_BUILD (R241). -/
  | fseBuild
  /-- FSE_ENC; IMM[0] = AUTOA (R270). -/
  | fseEnc (autoa : Bool)
  /-- FSE_DEC (R280). -/
  | fseDec
  /-- BS_PUT; IMM = NBITS, 1 to 32 (R304). -/
  | bsPut (nbits : Nat)
  /-- BS_GET; IMM = NBITS, 1 to 32 (R306). -/
  | bsGet (nbits : Nat)
  /-- FRAME_ENC; IMM[0] = LAST, IMM[1] = FORCE_RAW (R330). -/
  | frameEnc (last forceRaw : Bool)
  /-- FRAME_DEC (R340). -/
  | frameDec
deriving DecidableEq, Repr

end Sys2Proof
end

