-- ==== Sys2Proof/WellFormed.lean ====
section
/-! DEFINITION. Which terms of `Instr` a command word can carry: the legal immediates of 30_encoding.md R102. -/

namespace Sys2Proof

/-- A legal field width of BS_PUT and BS_GET: 1 to 32 (R102, R104). -/
abbrev legalNbits (n : Nat) : Prop := 1 ≤ n ∧ n ≤ 32

/-- A well-formed command (R102). AUTOA, LAST and FORCE_RAW are single bits, so only NBITS can be out of range. -/
def Instr.wf : Instr → Bool
  | .bsPut n => decide (legalNbits n)
  | .bsGet n => decide (legalNbits n)
  | .nop | .bwtFwd | .bwtInv | .mtfEnc | .mtfDec | .rleEnc | .rleDec | .fseNorm _ | .fseBuild | .fseEnc _ | .fseDec
  | .frameEnc _ _ | .frameDec => true

end Sys2Proof
end

