-- ==== Sys2Proof/Decode.lean ====
section
/-! DEFINITION. The command word of 30_encoding.md (R100 to R106): the decoder, total on words and on bytes, and the
encoder written from the same tables. -/

namespace Sys2Proof

/-- Why a word is illegal (R104), or why bytes hold no word. -/
inductive Reject where
  /-- Fewer than the four bytes of a word (R106: every word is exactly 32 bits). -/
  | truncated
  /-- OP is 0x0F to 0xFF (R101). -/
  | reservedOp
  /-- RSV, bits 31:16, is not 0 (R100). -/
  | reservedBits
  /-- IMM has a bit set that R102 does not define for the OP. -/
  | undefinedImm
  /-- BS_PUT or BS_GET with IMM 0 or above 32 (R104). -/
  | badNbits
deriving DecidableEq, Repr

/-- OP, bits 7:0 (R100). -/
def opField (w : Word) : Nat := w.toNat % 256

/-- IMM, bits 15:8 (R100). -/
def immField (w : Word) : Nat := w.toNat / 256 % 256

/-- RSV, bits 31:16 (R100). -/
def rsvField (w : Word) : Nat := w.toNat / 65536

/-- An opcode with no immediate: IMM must be 0 (R102). -/
def decodePlain (i : Instr) (imm : Nat) : Except Reject Instr :=
  if imm = 0 then .ok i else .error .undefinedImm

/-- An opcode whose IMM[0] is AUTOA; IMM[7:1] must be 0 (R102). -/
def decodeAutoa (i : Bool → Instr) (imm : Nat) : Except Reject Instr :=
  if imm < 2 then .ok (i (imm == 1)) else .error .undefinedImm

/-- An opcode whose IMM is NBITS (R102, R104). -/
def decodeNbits (i : Nat → Instr) (imm : Nat) : Except Reject Instr :=
  if legalNbits imm then .ok (i imm) else .error .badNbits

/-- FRAME_ENC: IMM[0] = LAST, IMM[1] = FORCE_RAW, IMM[7:2] = 0 (R102). -/
def decodeFrameEnc (imm : Nat) : Except Reject Instr :=
  if imm < 4 then .ok (.frameEnc (imm % 2 == 1) (imm / 2 == 1)) else .error .undefinedImm

/-- The opcode map of R101 with the immediates of R102. -/
def decodeOp (op imm : Nat) : Except Reject Instr :=
  match op with
  | 0x00 => decodePlain .nop imm
  | 0x01 => decodePlain .bwtFwd imm
  | 0x02 => decodePlain .bwtInv imm
  | 0x03 => decodePlain .mtfEnc imm
  | 0x04 => decodePlain .mtfDec imm
  | 0x05 => decodePlain .rleEnc imm
  | 0x06 => decodePlain .rleDec imm
  | 0x07 => decodeAutoa .fseNorm imm
  | 0x08 => decodePlain .fseBuild imm
  | 0x09 => decodeAutoa .fseEnc imm
  | 0x0A => decodePlain .fseDec imm
  | 0x0B => decodeNbits .bsPut imm
  | 0x0C => decodeNbits .bsGet imm
  | 0x0D => decodeFrameEnc imm
  | 0x0E => decodePlain .frameDec imm
  | _ => .error .reservedOp

/-- The decoder of command words: "reads OP, then checks RSV and IMM against rules R102 and R104" (R106). -/
def decodeWord (w : Word) : Except Reject Instr :=
  if 0x0E < opField w then .error .reservedOp
  else if rsvField w ≠ 0 then .error .reservedBits
  else decodeOp (opField w) (immField w)

/-- A 32-bit word from its bytes, the lowest address first: little-endian (20_memory.md R72, R87). -/
def wordOfBytes (b0 b1 b2 b3 : Byte) : Word :=
  Word.ofInt (b0.toNat + 256 * b1.toNat + 65536 * b2.toNat + 16777216 * b3.toNat)

/-- The four bytes of a word, the lowest address first (R72, R87). -/
def bytesOfWord (w : Word) : List Byte :=
  [BitVec.ofNat 8 w.toNat, BitVec.ofNat 8 (w.toNat / 256), BitVec.ofNat 8 (w.toNat / 65536),
    BitVec.ofNat 8 (w.toNat / 16777216)]

/-- The decoder on bytes: one word, and the bytes that follow it. -/
def decodeBytes : List Byte → Except Reject (Instr × List Byte)
  | b0 :: b1 :: b2 :: b3 :: rest =>
    match decodeWord (wordOfBytes b0 b1 b2 b3) with
    | .ok i => .ok (i, rest)
    | .error e => .error e
  | _ => .error .truncated

/-- The opcode of a command (R101). -/
def Instr.opcode : Instr → Nat
  | .nop => 0x00
  | .bwtFwd => 0x01
  | .bwtInv => 0x02
  | .mtfEnc => 0x03
  | .mtfDec => 0x04
  | .rleEnc => 0x05
  | .rleDec => 0x06
  | .fseNorm _ => 0x07
  | .fseBuild => 0x08
  | .fseEnc _ => 0x09
  | .fseDec => 0x0A
  | .bsPut _ => 0x0B
  | .bsGet _ => 0x0C
  | .frameEnc _ _ => 0x0D
  | .frameDec => 0x0E

/-- The immediate of a command (R102). -/
def Instr.imm : Instr → Nat
  | .fseNorm autoa => autoa.toNat
  | .fseEnc autoa => autoa.toNat
  | .bsPut n => n
  | .bsGet n => n
  | .frameEnc last forceRaw => last.toNat + 2 * forceRaw.toNat
  | .nop | .bwtFwd | .bwtInv | .mtfEnc | .mtfDec | .rleEnc | .rleDec | .fseBuild | .fseDec | .frameDec => 0

/-- The command word of a command: OP, IMM, RSV = 0 (R100). -/
def encode (i : Instr) : Word := Word.ofInt (i.opcode + 256 * i.imm)

/-- The command of the table word `w` of `nbits` bits: its bytes, lowest first, through the decoder. -/
def decodeTableWord (nbits w : Nat) : Option Instr :=
  match decodeBytes (bytesOfWord (Word.ofInt (w % 2 ^ nbits))) with
  | .ok (i, []) => if nbits ≤ 32 then some i else none
  | _ => none

end Sys2Proof
end

