-- ==== Sys2Proof/Config.lean ====
section
/-! DEFINITION. The open parameters of the engine (93_implementation_defined.md P-1 to P-3), which State carries as
plain data so that every statement covers every value, and the free values (U1 to U4), opaque constants with no body. -/

namespace Sys2Proof

/-- The parameters a platform fixes (00_scope.md R8, R10). No step changes them. -/
structure Config where
  /-- `DMEM_SIZE`, 1 to 2^32 (R10). -/
  dmemSize : Nat
  /-- `MAX_BLOCK`, 1 to 2^31 (R8). -/
  maxBlock : Nat
  /-- `REG_BASE`: the host address of the register window (R85). -/
  regBase : Nat
  /-- `DMEM_BASE`: the host address of DMEM (R85). -/
  dmemBase : Nat
deriving DecidableEq, Repr

/-- The parameters of `State.reset`. `MAX_BLOCK` is the spec's default (R8). DESIGN CHOICE (log entry 1, unsafe): the
other three are open in the spec (R10); 4096 is the size 95_test_vectors.md uses. -/
def Config.default : Config :=
  { dmemSize := 4096, maxBlock := 900000, regBase := 0x100000000, dmemBase := 0 }

/-- The legal parameters: the ranges of R8 and R10. That the register window and DMEM share no host address is the
model's: R85 does not say whether they may. DESIGN CHOICE (log entry 24, unsafe). -/
abbrev Config.wf (c : Config) : Prop :=
  (1 ≤ c.dmemSize ∧ c.dmemSize ≤ 2 ^ 32) ∧ (1 ≤ c.maxBlock ∧ c.maxBlock ≤ 2 ^ 31) ∧
    (c.regBase + 0x80 ≤ c.dmemBase ∨ c.dmemBase + c.dmemSize ≤ c.regBase)

/-- FREE VALUE (93 U1; R405; log entry 5): the byte that DMEM offset `a` holds after power-on number `epoch` until
something writes it: "a draw, under no law". -/
opaque Config.powerOnByte (epoch a : Nat) : Byte

/-- FREE VALUE (93 U2, U3, U4; R133, R402; log entry 6): what the bits of the byte at offset `a` become when event
number `k` (a late FAULT, a FAIL or an abandoned command) leaves them unspecified. -/
opaque Config.freeByte (k a : Nat) : Byte

end Sys2Proof
end

