-- ==== Sys2Proof/Machine/State.lean ====
section
/-! DEFINITION. The state of the engine as plain data (10_state.md R30 to R37), the agents' moves still to come, why a
step can stop, and the state after reset (R44, R400). -/

namespace Sys2Proof.Machine

/-- The argument registers of R32, each a full 32-bit value. -/
structure ArgRegs where
  src : Word
  slen : Word
  dst : Word
  dcap : Word
  tbl : Word
  alpha : Word
  rot : Word
  toff : Word
  fstate : Word
  olen : Word
  wptr : Word
  wbit : Word
  wlim : Word
  rptr : Word
  rbit : Word
  rlim : Word
  bsval : Word
deriving DecidableEq, Repr

/-- The result registers of R32, written only by commands. -/
structure ResRegs where
  rlen : Word
  prec : Word
  nrec : Word
  clen : Word
deriving DecidableEq, Repr

/-- The stored fields of STATUS (R33). BUSY is not among them: it is 1 exactly when SEQ = RUN (R30). -/
structure Status where
  done : Bool
  fault : Bool
  fail : Bool
  last : Bool
  mode : Bool
  overrun : Bool
  errcode : Byte
  lastop : Byte
  rawwhy : BitVec 2
deriving DecidableEq, Repr

/-- The sequencer (R30). A running command holds what acceptance latched: the command word and the values of all
argument registers (40_command_lifecycle.md R131). -/
inductive Seq where
  | idle
  | run (word : Word) (latched : ArgRegs)
deriving DecidableEq, Repr

/-- The registers of the register window by name (R31). -/
inductive Reg where
  | id | cmd | status | ctrl
  | src | slen | dst | dcap | tbl | alpha | rot | toff | fstate | olen
  | rlen | prec
  | wptr | wbit | wlim | rptr | rbit | rlim | bsval
  | nrec | clen | maxblk | dmemsz
deriving DecidableEq, Repr

/-- The error codes of 60_exceptions.md R360, but for OK. -/
inductive ErrCode where
  | illegalCmd | arg | range | overlap | dstOverflow | bwtRot | bwtCycle | symbol | fseEmpty | tableFull
  | encUnderflow | freqInvalid | stateRange | bitsExhausted | trailing | toffInvalid | modeTag | lastFlag
  | truncated | frameField | blockLen
deriving DecidableEq, Repr

/-- What the host does in one of its moves: an access at a host address (20_memory.md R85 to R87). -/
inductive HostAccess where
  /-- Read `width` bytes. -/
  | read (addr width : Nat)
  /-- Write these bytes, the lowest address first. -/
  | write (addr : Nat) (data : List Byte)
deriving DecidableEq, Repr

/-- Whose move it is. The order of the moves is open in the spec (60 R372, 40 R137), so it is data (log entry 2). -/
inductive Turn where
  /-- The engine's move: a running command completes. -/
  | engine
  /-- The host's move. -/
  | host (a : HostAccess)
  /-- The platform's reset input (70 R400). -/
  | hardReset
  /-- Power is lost and comes back (70 R400, 60 R391). -/
  | powerOn
deriving DecidableEq, Repr

/-- The bytes of DMEM that something has written since power-on: offset and value, offsets strictly rising. -/
abbrev Memory := List Host.Cell

/-- The machine. The last four fields are the model's own (INVENTORY.md, State). -/
structure State where
  /-- SEQ and what acceptance latched (R30, R131). -/
  seq : Seq
  /-- STATUS but for BUSY (R33). -/
  status : Status
  /-- CTRL.IE (R34). -/
  ie : Bool
  /-- The argument registers (R32). -/
  regs : ArgRegs
  /-- The result registers (R32). -/
  res : ResRegs
  /-- DMEM (R37): the bytes written since power-on. -/
  mem : Memory
  /-- The parameters (R8, R10): constants of the machine. -/
  cfg : Config
  /-- The moves to come, oldest first. -/
  turns : List Turn
  /-- What the last host read returned. -/
  readData : List Byte
  /-- How many times bits were left unspecified: indexes `Config.freeByte`. -/
  draws : Nat
  /-- How many power-ons there were: indexes `Config.powerOnByte`. -/
  epoch : Nat
deriving DecidableEq, Repr

/-- Why a step stops with a fault. No command does: a FAULT or FAIL of the engine is a next state (R361). -/
inductive Fault where
  /-- A host access to a host address that is neither in the register window nor in DMEM, or that runs past the end
  of DMEM. Raised by the host's moves only. Safe: the model stops (log entry 14). -/
  | hostAddress
deriving DecidableEq, Repr

/-- Why a step is refused. -/
inductive Refusal where
  /-- A command with no meaning yet, by its mnemonic; raised by no arm of `exec`. Safe. -/
  | notModelled (mnemonic : String)
  /-- A host access to the register window that is not an aligned 32-bit access: "a model refuses it" (20 R86, 93 F-1).
  Raised by the host's moves. Safe. -/
  | registerAccess
  /-- A host access to a byte of a running command's ranges: "A model has no move for such an access" (70 R412, 20
  R81, 93 U5). Raised by the host's moves. Safe. -/
  | hostRace
deriving DecidableEq, Repr

/-- The outcome of a step of this machine. -/
abbrev Result := Host.Outcome State Fault Refusal

/-- Every argument register 0 (R44). -/
def ArgRegs.reset : ArgRegs :=
  { src := 0, slen := 0, dst := 0, dcap := 0, tbl := 0, alpha := 0, rot := 0, toff := 0, fstate := 0, olen := 0,
    wptr := 0, wbit := 0, wlim := 0, rptr := 0, rbit := 0, rlim := 0, bsval := 0 }

/-- Every result register 0 (R44). -/
def ResRegs.reset : ResRegs := { rlen := 0, prec := 0, nrec := 0, clen := 0 }

/-- STATUS = 0 (R44). -/
def Status.reset : Status :=
  { done := false, fault := false, fail := false, last := false, mode := false, overrun := false, errcode := 0,
    lastop := 0, rawwhy := 0 }

/-- The machine right after power-on with given parameters (R44, R400): SEQ = IDLE, every register 0, DMEM unspecified. -/
def State.resetWith (c : Config) : State :=
  { seq := .idle, status := Status.reset, ie := false, regs := ArgRegs.reset, res := ResRegs.reset, mem := [], cfg := c,
    turns := [], readData := [], draws := 0, epoch := 0 }

/-- The machine right after reset (R44, R400), with the parameters of log entry 1. -/
def State.reset : State := State.resetWith Config.default

end Sys2Proof.Machine
end

