-- ==== Sys2Proof/Machine/Ops.lean ====
section
/-! DEFINITION. The named operations every meaning is built from: DMEM by bytes, by 16-bit values and by bits
(20_memory.md R70 to R77, 46_bitstream.md R300 to R302), and the ways a command begins and ends
(40_command_lifecycle.md R131, R133; 60_exceptions.md R361, R362): acceptance, success, FAULT, FAIL. -/

namespace Sys2Proof.Machine

/-! ### The list of written bytes -/

/-- The canonical form: offsets strictly rising, so at most one entry an offset. An unlisted offset holds what power-on
left there, which no entry can repeat as data (log entry 5). -/
abbrev Memory.wf (m : Memory) : Prop := m.Pairwise (fun c d => c.1 < d.1)

/-- The byte something wrote at offset `a` since power-on. -/
def Memory.get? : Memory → Nat → Option Byte
  | [], _ => none
  | (b, v) :: m, a => if a = b then some v else Memory.get? m a

/-- Write one byte, keeping the order. -/
def Memory.set : Memory → Nat → Byte → Memory
  | [], a, v => [(a, v)]
  | (b, w) :: m, a, v =>
    if a < b then (a, v) :: (b, w) :: m
    else if a = b then (a, v) :: m
    else (b, w) :: Memory.set m a v

/-! ### DMEM by bytes -/

/-- The DMEM byte at offset `a`: what was last written (R78), or the free value that power-on left (R405). -/
def State.byteAt (s : State) (a : Nat) : Byte := (s.mem.get? a).getD (Config.powerOnByte s.epoch a)

/-- Write the DMEM byte at offset `a`. -/
def State.setByte (s : State) (a : Nat) (v : Byte) : State := { s with mem := s.mem.set a v }

/-- `MemRead(addr, n)` (R16). -/
def State.memRead (s : State) (addr n : Nat) : List Byte := (List.range n).map (fun i => s.byteAt (addr + i))

/-- `MemWrite(addr, len(bs), bs)` (R16). -/
def State.memWrite (s : State) (addr : Nat) : List Byte → State
  | [] => s
  | b :: bs => (s.setByte addr b).memWrite (addr + 1) bs

/-- `MemRead16(addr)`: little-endian (R16, R72). -/
def State.memRead16 (s : State) (addr : Nat) : Nat := (s.byteAt addr).toNat + 256 * (s.byteAt (addr + 1)).toNat

/-- The two bytes of a 16-bit value, the low one first (R72). -/
def bytes16 (v : Nat) : List Byte := [BitVec.ofNat 8 v, BitVec.ofNat 8 (v / 256)]

/-- The bytes of a sequence of 16-bit values (R73, R240). -/
def bytes16s (vs : List Nat) : List Byte := vs.flatMap bytes16

/-- A table of `n` 16-bit values at `addr` (R73). -/
def State.readTable (s : State) (addr n : Nat) : List Nat := (List.range n).map (fun i => s.memRead16 (addr + 2 * i))

/-! ### DMEM by bits -/

/-- `GetBit(p)`: bit `p mod 8` of the byte at `p div 8` (R301). -/
def State.getBit (s : State) (p : Nat) : Bool := (s.byteAt (p / 8)).getLsbD (p % 8)

/-- A byte with bit `i` set to `v`, the others as they were (R300). -/
def Byte.putBit (b : Byte) (i : Nat) (v : Bool) : Byte :=
  if v then b ||| BitVec.ofNat 8 (2 ^ i) else b &&& ~~~(BitVec.ofNat 8 (2 ^ i))

/-- `PutBit(p, v)` (R300). -/
def State.putBit (s : State) (p : Nat) (v : Bool) : State :=
  s.setByte (p / 8) (Byte.putBit (s.byteAt (p / 8)) (p % 8) v)

/-- `WriteField(p, v, w)`: the `w` low bits of `v`, least significant first (R302). -/
def State.writeField (s : State) (p v : Nat) : Nat → State
  | 0 => s
  | w + 1 => (s.putBit p (v % 2 == 1)).writeField (p + 1) (v / 2) w

/-- `ReadField(p, w)`: the value of the field (R302). -/
def State.readField (s : State) (p : Nat) : Nat → Nat
  | 0 => 0
  | w + 1 => (s.getBit p).toNat + 2 * s.readField (p + 1) w

/-- The fields of a frame, each where the one before it ended (R324). -/
def State.writeFields (s : State) (p : Nat) : List (Nat × Nat) → State
  | [] => s
  | (v, w) :: fs => (s.writeField p v w).writeFields (p + w) fs

/-! ### Ranges and bits left unspecified -/

/-- A range `(addr, len)` (R71). `keep` counts the low bits of its first byte that the command may not write (R136:
the low `WBIT` bits of the byte at WPTR); it is 0 for every other range. -/
structure Span where
  addr : Nat
  len : Nat
  keep : Nat := 0
deriving DecidableEq, Repr

/-- A byte whose `keep` low bits are the old ones and whose other bits are new. -/
def mixByte (keep : Nat) (old new : Byte) : Byte :=
  if keep = 0 then new
  else (old &&& BitVec.ofNat 8 (2 ^ keep - 1)) ||| (new &&& ~~~(BitVec.ofNat 8 (2 ^ keep - 1)))

/-- Draw the bytes of `n` offsets from `a` on (event `k`), keeping the `keep` low bits of the first. -/
def State.drawBytes (s : State) (k keep a : Nat) : Nat → State
  | 0 => s
  | n + 1 => (s.setByte a (mixByte keep (s.byteAt a) (Config.freeByte k a))).drawBytes k 0 (a + 1) n

/-- The bits of one range become unspecified; only bytes of DMEM are bytes (R71). -/
def State.drawSpan (s : State) (k : Nat) (sp : Span) : State :=
  s.drawBytes k sp.keep sp.addr (min sp.len (s.cfg.dmemSize - sp.addr))

/-- Every bit of these ranges becomes unspecified: "a value drawn freely, under no law" (R133). -/
def State.unspecified (s : State) (spans : List Span) : State :=
  { spans.foldl (fun t sp => t.drawSpan s.draws sp) s with draws := s.draws + 1 }

/-! ### How a command begins and ends -/

/-- STATUS.BUSY: "`STATUS.BUSY = 1` exactly when `SEQ = RUN(op)`" (R30). -/
def State.busy (s : State) : Bool :=
  match s.seq with
  | .idle => false
  | .run _ _ => true

/-- The numbers of R360. -/
def ErrCode.code : ErrCode → Byte
  | .illegalCmd => 0x01
  | .arg => 0x02
  | .range => 0x03
  | .overlap => 0x04
  | .dstOverflow => 0x05
  | .bwtRot => 0x06
  | .bwtCycle => 0x07
  | .symbol => 0x08
  | .fseEmpty => 0x09
  | .tableFull => 0x0A
  | .encUnderflow => 0x0B
  | .freqInvalid => 0x0C
  | .stateRange => 0x0D
  | .bitsExhausted => 0x0E
  | .trailing => 0x0F
  | .toffInvalid => 0x10
  | .modeTag => 0x11
  | .lastFlag => 0x12
  | .truncated => 0x13
  | .frameField => 0x14
  | .blockLen => 0x15

/-- Acceptance of word `w` (R131): latch `w` and the argument registers, BUSY 1, DONE, FAULT, FAIL and ERRCODE 0,
LASTOP the opcode field; LAST, MODE, RAWWHY and OVERRUN keep their values. -/
def State.accept (s : State) (w : Word) : State :=
  { s with
    seq := .run w s.regs
    status :=
      { s.status with done := false, fault := false, fail := false, errcode := 0, lastop := BitVec.ofNat 8 (opField w) } }

/-- The end of a command with these outcome fields (R133): SEQ IDLE, BUSY 0, DONE 1. -/
def State.endCommand (s : State) (fault fail : Bool) (code : Byte) : State :=
  { s with
    seq := .idle
    status := { s.status with done := true, fault := fault, fail := fail, errcode := code } }

/-- `complete()` (R17, R133). -/
def State.complete (s : State) : State := s.endCommand false false 0

/-- `raise Fault(code)` of a check of kinds (1) to (5): no DMEM bit changes (R133, R135, R370). -/
def State.raiseFault (s : State) (e : ErrCode) : Result := .next (s.endCommand true false e.code)

/-- `raise Fault(code)` of a check of kind (6): the bits the command may write are unspecified (R133). -/
def State.raiseLateFault (s : State) (e : ErrCode) (written : List Span) : Result :=
  .next ((s.unspecified written).endCommand true false e.code)

/-- `raise Fail(code)`: the bits the command may write are unspecified (R133, R362). -/
def State.raiseFail (s : State) (e : ErrCode) (written : List Span) : Result :=
  .next ((s.unspecified written).endCommand false true e.code)

/-- The first check that fails, in the order of the list (R135, R371). -/
def firstFailing : List (Bool × ErrCode) → Option ErrCode
  | [] => none
  | (bad, e) :: rest => if bad then some e else firstFailing rest

/-- The argument registers a command leaves (its cursor, ROT, ALPHA, ... on success). -/
def State.setRegs (s : State) (r : ArgRegs) : State := { s with regs := r }

/-- The result registers a command leaves on success. -/
def State.setRes (s : State) (r : ResRegs) : State := { s with res := r }

/-- STATUS.LAST and STATUS.MODE, written by a successful frame command (R330, R340). -/
def State.setFrame (s : State) (last mode : Bool) : State := { s with status := { s.status with last := last, mode := mode } }

/-- STATUS.RAWWHY, written by a successful FRAME_ENC (R330). -/
def State.setRawwhy (s : State) (why : Nat) : State := { s with status := { s.status with rawwhy := BitVec.ofNat 2 why } }

end Sys2Proof.Machine
end

