-- ==== Sys2Proof/Machine/Operands.lean ====
section
/-! DEFINITION. Where the operands of a command are (30_encoding.md R103, 40_command_lifecycle.md R136): the latched
argument registers, the ranges they name with their validity and overlap (20_memory.md R71, R79), the bit cursors
(R75, 46_bitstream.md R303), the alphabet size (44_fse_tables.md R221, R225), and the ranges of each command. -/

namespace Sys2Proof.Machine

/-- The values a command reads its argument registers as: the latched ones (R131). With no command running these are
the registers, which is what an acceptance in that state would latch (log entry 18). -/
def State.args (s : State) : ArgRegs :=
  match s.seq with
  | .idle => s.regs
  | .run _ latched => latched

/-- `MAX_RECODED = MAX_BLOCK + floor(MAX_BLOCK / 4)` (R9). -/
def State.maxRecoded (s : State) : Nat := s.cfg.maxBlock + s.cfg.maxBlock / 4

/-- `(SRC, SLEN)`. -/
def State.srcSpan (s : State) : Span := { addr := s.args.src.toNat, len := s.args.slen.toNat }

/-- `(DST, DCAP)`. -/
def State.dstSpan (s : State) : Span := { addr := s.args.dst.toNat, len := s.args.dcap.toNat }

/-- `(TBL, 2A)` (R73). -/
def State.tblSpan (s : State) (A : Nat) : Span := { addr := s.args.tbl.toNat, len := 2 * A }

/-- `W_span = (WPTR, WLIM - WPTR)`, less the low `WBIT` bits of its first byte (R136). -/
def State.wSpan (s : State) : Span :=
  { addr := s.args.wptr.toNat, len := s.args.wlim.toNat - s.args.wptr.toNat, keep := min s.args.wbit.toNat 8 }

/-- `R_span = (RPTR, RLIM - RPTR)` (R136). -/
def State.rSpan (s : State) : Span :=
  { addr := s.args.rptr.toNat, len := s.args.rlim.toNat - s.args.rptr.toNat }

/-- A range is valid "when `len = 0` or `addr + len <= DMEM_SIZE`, computed without wrap-around" (R71). -/
def State.valid (s : State) (sp : Span) : Bool := sp.len == 0 || decide (sp.addr + sp.len ≤ s.cfg.dmemSize)

/-- Two ranges share a byte; an empty range shares none (R79). -/
def Span.overlaps (p q : Span) : Bool :=
  decide (0 < p.len) && decide (0 < q.len) && decide (p.addr < q.addr + q.len) && decide (q.addr < p.addr + p.len)

/-- The bytes of `(SRC, SLEN)`. -/
def State.srcBytes (s : State) : List Byte := s.memRead s.srcSpan.addr s.srcSpan.len

/-- The write cursor as a bit position, `8 * WPTR + WBIT` (R75, R303). -/
def State.wCursor (s : State) : Nat := 8 * s.args.wptr.toNat + s.args.wbit.toNat

/-- The read cursor as a bit position, `8 * RPTR + RBIT` (R75, R303). -/
def State.rCursor (s : State) : Nat := 8 * s.args.rptr.toNat + s.args.rbit.toNat

/-- The write cursor registers at bit position `p`: `(p div 8, p mod 8)` (R303). -/
def ArgRegs.setWCursor (r : ArgRegs) (p : Nat) : ArgRegs :=
  { r with wptr := Word.ofInt (p / 8), wbit := Word.ofInt (p % 8) }

/-- The read cursor registers at bit position `p` (R303). -/
def ArgRegs.setRCursor (r : ArgRegs) (p : Nat) : ArgRegs :=
  { r with rptr := Word.ofInt (p / 8), rbit := Word.ofInt (p % 8) }

/-- WBIT > 7 or WLIM < WPTR: an argument out of its legal range (R304, R330). -/
def State.badWCursor (s : State) : Bool := decide (7 < s.args.wbit.toNat) || decide (s.args.wlim.toNat < s.args.wptr.toNat)

/-- RBIT > 7 or RLIM < RPTR (R306, R340). -/
def State.badRCursor (s : State) : Bool := decide (7 < s.args.rbit.toNat) || decide (s.args.rlim.toNat < s.args.rptr.toNat)

/-- ALPHA = 0 or ALPHA > 256 (R226, R241, R270, R280). -/
def State.badAlpha (s : State) : Bool := s.args.alpha.toNat == 0 || decide (256 < s.args.alpha.toNat)

/-- The symbols of a byte sequence: its values (R221). -/
def symbols (d : List Byte) : List Nat := d.map BitVec.toNat

/-- The largest value of a sequence, 0 for the empty one. -/
def maxOf (v : List Nat) : Nat := v.foldl max 0

/-- The dense alphabet of a sequence: its largest value plus 1 (R221, R225, R322). -/
def denseAlphabet (d : List Byte) : Nat := maxOf (symbols d) + 1

/-- The alphabet size of FSE_NORM and FSE_ENC: ALPHA, or the data's with AUTOA (R225). -/
def State.alphabet (s : State) (autoa : Bool) : Nat :=
  if autoa then denseAlphabet s.srcBytes else s.args.alpha.toNat

/-- `(TBL, 2A)` as a range of FSE_NORM and FSE_ENC (R136). With AUTOA there is no A before the data can be read: no
data, or a source range the command turns away (log entries 11, 15). -/
def State.tblSpans (s : State) (autoa : Bool) : List Span :=
  if autoa && (s.srcSpan.len == 0 || !s.valid s.srcSpan || decide (s.maxRecoded < s.srcSpan.len)) then []
  else [s.tblSpan (s.alphabet autoa)]

/-- The ranges a command reads (R136). -/
def State.readSpans (s : State) : Instr → List Span
  | .nop => []
  | .bwtFwd | .bwtInv | .mtfEnc | .mtfDec | .rleEnc | .rleDec => [s.srcSpan]
  | .fseNorm _ => [s.srcSpan]
  | .fseBuild => [s.tblSpan s.args.alpha.toNat]
  | .fseEnc _ => [s.srcSpan]
  | .fseDec => [s.srcSpan, s.tblSpan s.args.alpha.toNat]
  | .bsPut _ => []
  | .bsGet _ => [s.rSpan]
  | .frameEnc _ _ => [s.srcSpan]
  | .frameDec => [s.rSpan]

/-- The ranges a command may write (R136). -/
def State.writtenSpans (s : State) : Instr → List Span
  | .nop => []
  | .bwtFwd | .bwtInv | .mtfEnc | .mtfDec | .rleEnc | .rleDec => [s.dstSpan]
  | .fseNorm autoa => s.tblSpans autoa
  | .fseBuild => [s.dstSpan]
  | .fseEnc autoa => s.tblSpans autoa ++ [s.dstSpan]
  | .fseDec => [s.dstSpan]
  | .bsPut _ => [s.wSpan]
  | .bsGet _ => []
  | .frameEnc _ _ => [s.wSpan]
  | .frameDec => [s.dstSpan]

/-- The command that runs, if any; an illegal word "reads and writes nothing else" (R104). -/
def State.running (s : State) : Option Instr :=
  match s.seq with
  | .idle => none
  | .run w _ =>
    match decodeWord w with
    | .ok i => some i
    | .error _ => none

end Sys2Proof.Machine
end

