-- ==== Sys2Proof/Machine/Sequencer.lean ====
section
/-! DEFINITION. The sequencer's own command, NOP (40_command_lifecycle.md R140), and the shapes that several byte
commands share: a source range, a destination range, and a result written at DST with its length in RLEN. -/

namespace Sys2Proof.Machine

/-- NOP: `complete()` (R140). -/
def execNop (s : State) : Result := .next s.complete

/-- The checks of a byte command before it reads data, in order (R160, R182, R203, ...): the length limit, any check
of its own, the two ranges, their overlap. -/
def State.byteChecks (s : State) (limit : Nat) (own : List (Bool × ErrCode)) : List (Bool × ErrCode) :=
  (decide (limit < s.srcSpan.len), .arg) :: own ++
    [(!s.valid s.srcSpan || !s.valid s.dstSpan, .range), (s.srcSpan.overlaps s.dstSpan, .overlap)]

/-- The check of a known output length against DCAP (R135 kind (5)). -/
def State.capacityCheck (s : State) (n : Nat) : Bool × ErrCode := (decide (s.dstSpan.len < n), .dstOverflow)

/-- A result `out` at DST with RLEN its length. -/
def State.writeResult (s : State) (out : List Byte) : State :=
  (s.memWrite s.dstSpan.addr out).setRes { s.res with rlen := Word.ofInt out.length }

end Sys2Proof.Machine
end

