-- ==== Sys2Proof/Machine/BitStream.lean ====
section
/-! DEFINITION. The bit-stream framer's commands (46_bitstream.md): BS_PUT, BS_GET. The primitives PutBit, GetBit,
WriteField and ReadField stand in Ops.lean. -/

namespace Sys2Proof.Machine

/-- `ceil((BIT + NBITS) / 8)`: how many bytes a field touches from its cursor's byte (R303). -/
def fieldBytes (bit nbits : Nat) : Nat := (bit + nbits + 7) / 8

/-- BS_PUT (R304). -/
def execBsPut (nbits : Nat) (s : State) : Result :=
  match firstFailing
      [(!decide (legalNbits nbits), .illegalCmd), (s.badWCursor, .arg), (!s.valid s.wSpan, .range),
        (decide (s.args.wlim.toNat < s.args.wptr.toNat + fieldBytes s.args.wbit.toNat nbits), .dstOverflow)] with
  | some e => s.raiseFault e
  | none =>
    .next ((s.writeField s.wCursor (s.args.bsval.toNat % 2 ^ nbits) nbits).setRegs
      (s.regs.setWCursor (s.wCursor + nbits))).complete

/-- BS_GET (R306). -/
def execBsGet (nbits : Nat) (s : State) : Result :=
  match firstFailing
      [(!decide (legalNbits nbits), .illegalCmd), (s.badRCursor, .arg), (!s.valid s.rSpan, .range),
        (decide (s.args.rlim.toNat < s.args.rptr.toNat + fieldBytes s.args.rbit.toNat nbits), .truncated)] with
  | some e => s.raiseFault e
  | none =>
    .next (s.setRegs
      ({ s.regs with bsval := Word.ofInt (s.readField s.rCursor nbits) }.setRCursor (s.rCursor + nbits))).complete

end Sys2Proof.Machine
end

