-- ==== Sys2Proof/Machine/BlockSort.lean ====
section
/-! DEFINITION. The block sort and its inverse (41_blocksort.md): BWT_FWD, BWT_INV. The order is R152's, the suffix
order; the rank-doubling procedure of R153 and R154 that computes the same order stands beside it (93 I2: "A model may
use the reference procedure of rules R153 and R154 or any other method with the same `SA`"). -/

namespace Sys2Proof.Machine

/-- The sentinel (R11, R151). -/
def sentinel : Nat := 256

/-- The augmented block: the symbols of the block and the sentinel (R151). -/
def augmented (b : List Byte) : List Nat := symbols b ++ [sentinel]

/-- Lexicographic order on symbol sequences; a proper prefix is the smaller (R152). -/
def lexLe : List Nat → List Nat → Bool
  | [], _ => true
  | _ :: _, [] => false
  | x :: xs, y :: ys => decide (x < y) || (x == y && lexLe xs ys)

/-- `stable_sort` (R19): by non-decreasing `key`, equal keys in their old order. -/
def stableSortBy {α : Type} (le : α → α → Bool) (xs : List α) : List α :=
  xs.insertionSort (fun x y => le x y = true)

/-- The suffix order `SA` of the augmented block (R152). -/
def suffixOrder (b : List Byte) : List Nat :=
  stableSortBy (fun i j => lexLe ((augmented b).drop i) ((augmented b).drop j)) (List.range (b.length + 1))

/-- The rotation index: the row of position 0 (R156). -/
def rotationIndex (b : List Byte) : Nat := (suffixOrder b).idxOf 0

/-- The output bytes: for each row but the rotation index's, the symbol before the row's position (R156). -/
def sortedColumn (b : List Byte) : List Byte := ((suffixOrder b).filter (· ≠ 0)).map (fun p => b.getD (p - 1) 0)

/-- `forward(block)` (R150, R156). -/
def forward (b : List Byte) : List Byte × Nat := (sortedColumn b, rotationIndex b)

/-- The column with the sentinel reinserted at the rotation index (R157). -/
def reinserted (y : List Byte) (rot : Nat) : List Nat := symbols (y.take rot) ++ [sentinel] ++ symbols (y.drop rot)

/-- The map `T`: the rows, stably sorted by symbol (R157). -/
def nextRow (lc : List Nat) : List Nat :=
  stableSortBy (fun i j => decide (lc.getD i 0 ≤ lc.getD j 0)) (List.range lc.length)

/-- The walk of R157 from row `j`, for that many steps; `none` where it meets the sentinel. -/
def walkRows (lc t : List Nat) : Nat → Nat → Option (List Byte)
  | 0, _ => some []
  | n + 1, j =>
    let next := t.getD j 0
    let c := lc.getD next sentinel
    if c = sentinel then none else (walkRows lc t n next).map (BitVec.ofNat 8 c :: ·)

/-- `inverse(transformed_bytes, rotation_index)` (R157); `none` is `Fault(BWT_CYCLE)`. -/
def inverse (y : List Byte) (rot : Nat) : Option (List Byte) :=
  walkRows (reinserted y rot) (nextRow (reinserted y rot)) y.length rot

/-! ### The reference procedure (R153, R154) -/

/-- The dense rank of a symbol: how many distinct smaller values occur (R153). -/
def denseRank (a : List Nat) (v : Nat) : Nat := ((a.filter (· < v)).dedup).length

/-- The order of key pairs, first component first (R19). -/
def pairLe (p q : Int × Int) : Bool := decide (p.1 < q.1) || (decide (p.1 = q.1) && decide (p.2 ≤ q.2))

/-- The initial keys (R153): the dense rank of the symbol, and that of the next one or -1 at the last position. -/
def initialKeys (a : List Nat) : List (Int × Int) :=
  (List.range a.length).map fun i =>
    ((denseRank a (a.getD i 0) : Int), if i + 1 < a.length then (denseRank a (a.getD (i + 1) 0) : Int) else -1)

/-- The ranks of a sorted order, as (position, rank) pairs: a new rank exactly when the key pair differs from the one
before (R154). -/
def ranksFrom (keys : List (Int × Int)) : Nat → Option (Int × Int) → List Nat → List (Nat × Nat)
  | _, _, [] => []
  | r, before, p :: ps =>
    let k := keys.getD p (0, 0)
    let r' := match before with
      | none => r
      | some k' => if k = k' then r else r + 1
    (p, r') :: ranksFrom keys r' (some k) ps

/-- The new rank of position `i`. -/
def rankOf (ranks : List (Nat × Nat)) (i : Nat) : Nat := ((ranks.find? (fun e => e.1 == i)).map Prod.snd).getD 0

/-- The loop of R154 on an order sorted by `keys`; `fuel` bounds the rounds (R155: `m` suffice). -/
def doublingRounds (m : Nat) : Nat → Nat → List (Int × Int) → List Nat → List Nat
  | 0, _, _, order => order
  | fuel + 1, len, keys, order =>
    let ranks := ranksFrom keys 0 none order
    if rankOf ranks (order.getLastD 0) + 1 = m then order
    else
      let keys' := (List.range m).map fun i =>
        ((rankOf ranks i : Int), if i + len < m then (rankOf ranks (i + len) : Int) else -1)
      doublingRounds m fuel (2 * len) keys' (stableSortBy (fun i j => pairLe (keys'.getD i (0, 0)) (keys'.getD j (0, 0))) order)

/-- The order the reference procedure ends with (R153, R154). -/
def doublingOrder (b : List Byte) : List Nat :=
  let a := augmented b
  let keys := initialKeys a
  doublingRounds a.length a.length 2 keys
    (stableSortBy (fun i j => pairLe (keys.getD i (0, 0)) (keys.getD j (0, 0))) (List.range a.length))

/-! ### The commands -/

/-- BWT_FWD (R160). -/
def execBwtFwd (s : State) : Result :=
  match firstFailing (s.byteChecks s.cfg.maxBlock [] ++ [s.capacityCheck s.srcSpan.len]) with
  | some e => s.raiseFault e
  | none =>
    let b := s.srcBytes
    .next ((s.writeResult (forward b).1).setRegs { s.regs with rot := Word.ofInt (forward b).2 }).complete

/-- BWT_INV (R165). BWT_ROT comes before the range checks and changes no DMEM bit (log entry 10). -/
def execBwtInv (s : State) : Result :=
  match firstFailing
      (s.byteChecks s.cfg.maxBlock [(decide (s.srcSpan.len < s.args.rot.toNat), .bwtRot)]
        ++ [s.capacityCheck s.srcSpan.len]) with
  | some e => s.raiseFault e
  | none =>
    match inverse s.srcBytes s.args.rot.toNat with
    | none => s.raiseLateFault .bwtCycle [s.dstSpan]
    | some x => .next (s.writeResult x).complete

end Sys2Proof.Machine
end

