-- ==== Sys2Proof/Machine/FseTables.lean ====
section
/-! DEFINITION. The entropy-table builder (44_fse_tables.md): precision, normalisation, the encoding and decoding
tables, and the commands FSE_NORM and FSE_BUILD. -/

namespace Sys2Proof.Machine

/-- `bit_length` (R18). -/
def bitLength (v : Nat) : Nat := if v = 0 then 0 else Nat.log2 v + 1

/-- The probability precision `P` (R220). -/
def precision (A : Nat) : Nat := bitLength A + 4

/-- The half-range control mask `L = 2^P` (R220). -/
def halfRange (A : Nat) : Nat := 2 ^ precision A

/-- `MaxState = 2^(P+1) - 1` (R220). -/
def maxState (A : Nat) : Nat := 2 ^ (precision A + 1) - 1

/-- The raw counts over `0..A-1` (R222). -/
def rawCounts (d : List Nat) (A : Nat) : List Nat := (List.range A).map (fun s => d.count s)

/-- `argmax_low`: the smallest index of the maximum (R20). -/
def argmaxLow (v : List Nat) : Nat := v.idxOf (maxOf v)

/-- Scaling: `floor(c * 2^P / N)` (R224). -/
def scaleCounts (c : List Nat) (P N : Nat) : List Nat := c.map (fun x => x * 2 ^ P / N)

/-- The rounding residual goes to the most frequent symbol by raw count (R224). -/
def addResidual (c f : List Nat) (P : Nat) : List Nat :=
  let m := argmaxLow c
  f.set m (f.getD m 0 + (2 ^ P - f.sum))

/-- One step of the fix-up: a zero count becomes 1, and the most frequent symbol by the current counts gives one (R224). -/
def raiseZero (f : List Nat) (s : Nat) : List Nat :=
  if f.getD s 0 = 0 then
    let g := f.set s 1
    let k := argmaxLow g
    g.set k (g.getD k 0 - 1)
  else f

/-- `normalize(d, A)` (R224), for a sequence of at least one symbol, each below `A`. -/
def normalize (d : List Nat) (A : Nat) : List Nat :=
  let c := rawCounts d A
  let P := precision A
  (List.range A).foldl raiseZero (addResidual c (scaleCounts c P d.length) P)

/-- A frequency table is valid for `A` (R228). -/
def validTable (f : List Nat) (A : Nat) : Bool :=
  decide (1 ≤ A) && decide (A ≤ 256) && f.length == A && f.all (fun x => decide (1 ≤ x)) && f.sum == 2 ^ precision A

/-- Slot owners: for each state value FREE (`none`), or the symbol and its 1-based rank (R229, R233). -/
abbrev Owners := List (Option (Nat × Nat))

/-- The tables a build makes: the slot owners, which are the decoding table `D` (R233), and per symbol the states
assigned to it in order, `E_s[1], E_s[2], ...` (R229; the placeholder `E_s[0]`, which no rule reads, is not stored). -/
structure Tables where
  owner : Owners
  states : List (List Nat)
deriving DecidableEq, Repr

/-- No slot owned, no state assigned (R229). -/
def Tables.empty (A : Nat) : Tables :=
  { owner := List.replicate (maxState A + 1) none, states := List.replicate A [] }

/-- The first FREE slot from `t` on (R229). -/
def freeSlotFrom (owner : Owners) (t : Nat) : Option Nat :=
  ((owner.drop t).findIdx? Option.isNone).map (t + ·)

/-- The target state of candidate `x` for a symbol of count `fs` (R229; `(x << P) div f[s]`). -/
def target (P x fs : Nat) : Nat := max (x * 2 ^ P / fs) 2

/-- Candidate `x` and symbol `s` (R229, R230): a target above MaxState assigns nothing; `none` is TABLE_FULL. -/
def assignSlot (f : List Nat) (A x : Nat) (t : Tables) (s : Nat) : Option Tables :=
  let goal := target (precision A) x (f.getD s 1)
  if maxState A < goal then some t
  else
    match freeSlotFrom t.owner goal with
    | none => none
    | some y =>
      some { owner := t.owner.set y (some (s, x)), states := t.states.set s (t.states.getD s [] ++ [y]) }

/-- All symbols of one candidate, in ascending order (R229). -/
def assignCandidate (f : List Nat) (A : Nat) (t : Tables) (x : Nat) : Option Tables :=
  (List.range A).foldlM (assignSlot f A x) t

/-- `build(f, A)` (R229): candidates 1 to MaxState; `none` is TABLE_FULL (R231). -/
def buildTables (f : List Nat) (A : Nat) : Option Tables :=
  ((List.range (maxState A)).map (· + 1)).foldlM (assignCandidate f A) (Tables.empty A)

/-- `E_s[x]` for `x >= 1` (R229). -/
def Tables.state (t : Tables) (s x : Nat) : Nat := (t.states.getD s []).getD (x - 1) 0

/-- `D[y]` (R233). -/
def Tables.entry (t : Tables) (y : Nat) : Option (Nat × Nat) := t.owner.getD y none

/-- The dump of a decoding table: 16-bit symbol and rank per state, FREE as FFFF 0000 (R240). -/
def dumpBytes (owner : Owners) : List Byte :=
  owner.flatMap fun o =>
    match o with
    | some (s, x) => bytes16 s ++ bytes16 x
    | none => bytes16 0xFFFF ++ bytes16 0

/-! ### The commands -/

/-- FSE_NORM (R226). -/
def execFseNorm (autoa : Bool) (s : State) : Result :=
  match firstFailing
      [(decide (s.maxRecoded < s.srcSpan.len) || (!autoa && s.badAlpha), .arg), (!s.valid s.srcSpan, .range)] with
  | some e => s.raiseFault e
  | none =>
    if autoa && s.srcSpan.len == 0 then s.raiseFail .fseEmpty []
    else
      let A := s.alphabet autoa
      let tbl := s.tblSpan A
      match firstFailing [(!s.valid tbl, .range), (tbl.overlaps s.srcSpan, .overlap)] with
      | some e => s.raiseFault e
      | none =>
        let d := symbols s.srcBytes
        if s.srcSpan.len = 0 then s.raiseFail .fseEmpty [tbl]
        else if d.any (fun v => decide (A ≤ v)) then s.raiseLateFault .symbol [tbl]
        else
          .next (((s.memWrite tbl.addr (bytes16s (normalize d A))).setRegs
              { s.regs with alpha := if autoa then Word.ofInt A else s.regs.alpha }).setRes
              { s.res with prec := Word.ofInt (precision A), rlen := Word.ofInt (2 * A) }).complete

/-- FSE_BUILD (R241). -/
def execFseBuild (s : State) : Result :=
  let A := s.args.alpha.toNat
  let tbl := s.tblSpan A
  match firstFailing
      [(s.badAlpha, .arg), (!s.valid tbl || !s.valid s.dstSpan, .range), (tbl.overlaps s.dstSpan, .overlap),
        s.capacityCheck (4 * (maxState A + 1))] with
  | some e => s.raiseFault e
  | none =>
    let f := s.readTable tbl.addr A
    if validTable f A = false then s.raiseLateFault .freqInvalid [s.dstSpan]
    else
      match buildTables f A with
      | none => s.raiseLateFault .tableFull [s.dstSpan]
      | some t =>
        .next ((s.memWrite s.dstSpan.addr (dumpBytes t.owner)).setRes
          { s.res with prec := Word.ofInt (precision A), rlen := Word.ofInt (4 * (maxState A + 1)) }).complete

end Sys2Proof.Machine
end

