-- ==== Sys2Proof/Machine/FseCodec.lean ====
section
/-! DEFINITION. The entropy encoder and decoder (45_fse_codec.md): the coder's steps, the bit packer, the backward
bit reader, and the commands FSE_ENC and FSE_DEC. -/

namespace Sys2Proof.Machine

/-! ### Encoder -/

/-- The renormalisation of R262: while the state exceeds `k` its low bit is emitted and it is halved. Answers the bits in
emission order and the state. Each round halves the state, so `fuel` rounds suffice for a state of at most `fuel`. -/
def renormalize (k : Nat) : Nat → Nat → List Bool × Nat
  | 0, x => ([], x)
  | fuel + 1, x =>
    if k < x then
      let r := renormalize k fuel (x / 2)
      ((x % 2 == 1) :: r.1, r.2)
    else ([], x)

/-- `enc_step(X, s)` (R262): the bits emitted and the next state, or ENC_UNDERFLOW. -/
def encodeSymbol (f : List Nat) (A : Nat) (t : Tables) (x s : Nat) : Except ErrCode (List Bool × Nat) :=
  let r := renormalize (2 * f.getD s 0 - 1) x x
  let next := t.state s r.2
  if next < halfRange A then .error .encUnderflow else .ok (r.1, next)

/-- The symbols in order from state `x` (R261): all emitted bits and the final state. -/
def encodeSymbols (f : List Nat) (A : Nat) (t : Tables) : Nat → List Nat → Except ErrCode (List Bool × Nat)
  | x, [] => .ok ([], x)
  | x, s :: ss =>
    match encodeSymbol f A t x s with
    | .error e => .error e
    | .ok (bits, x') =>
      match encodeSymbols f A t x' ss with
      | .error e => .error e
      | .ok (rest, final) => .ok (bits ++ rest, final)

/-- The packer of R264 from accumulator `acc` with `cnt` bits: the bytes and the trailing bit offset. -/
def packFrom : Nat → Nat → List Bool → List Byte × Nat
  | acc, cnt, [] => if 0 < cnt then ([BitVec.ofNat 8 acc], 8 - cnt) else ([], 0)
  | acc, cnt, b :: bs =>
    let acc' := acc / 2 + 128 * b.toNat
    if cnt + 1 = 8 then
      let r := packFrom 0 0 bs
      (BitVec.ofNat 8 acc' :: r.1, r.2)
    else packFrom acc' (cnt + 1) bs

/-- `pack(w)` (R264, R265). -/
def pack (w : List Bool) : List Byte × Nat := packFrom 0 0 w

/-- What `compress` returns (R260, R266). -/
structure Coded where
  coded : List Byte
  freq : List Nat
  toff : Nat
  final : Nat
deriving DecidableEq, Repr

/-- `compress(d, A)` (R266). -/
def compress (d : List Nat) (A : Nat) : Except ErrCode Coded :=
  if d = [] then .error .fseEmpty
  else
    let f := normalize d A
    match buildTables f A with
    | none => .error .tableFull
    | some t =>
      match encodeSymbols f A t (maxState A) d with
      | .error e => .error e
      | .ok (w, x) => .ok { coded := (pack w).1, freq := f, toff := (pack w).2, final := x }

/-! ### Decoder -/

/-- Emitted bit `w[i]` in the coded bytes (R268). -/
def codedBit (coded : List Byte) (toff i : Nat) : Bool :=
  (coded.getD (i / 8) 0).getLsbD (i % 8 + if i / 8 + 1 = coded.length then toff else 0)

/-- Shift bits in while the state is below `l`, reading backwards from `pos` (R273, R274): the state and the bits left. -/
def shiftIn (bit : Nat → Bool) (l : Nat) : Nat → Nat → Except ErrCode (Nat × Nat)
  | 0, x => if x < l then .error .bitsExhausted else .ok (x, 0)
  | pos + 1, x => if x < l then shiftIn bit l pos (2 * x + (bit pos).toNat) else .ok (x, pos + 1)

/-- The decoder loop of R274: `n` symbols from state `x` with `pos` bits left, put in front of those already decoded.
At the end the state must be MaxState and no bit left (R276). -/
def decodeSymbols (t : Tables) (bit : Nat → Bool) (A : Nat) : Nat → Nat → Nat → List Nat → Except ErrCode (List Nat)
  | 0, x, pos, out => if x = maxState A ∧ pos = 0 then .ok out else .error .trailing
  | n + 1, x, pos, out =>
    match t.entry x with
    | none => .error .stateRange
    | some (s, rank) =>
      match shiftIn bit (halfRange A) pos rank with
      | .error e => .error e
      | .ok (x', pos') => decodeSymbols t bit A n x' pos' (s :: out)

/-- Trailing bit offset above 7, or above 0 with no coded bytes (R272). -/
def badToff (toff C : Nat) : Bool := decide (7 < toff) || (decide (0 < toff) && C == 0)

/-- `decompress(coded, f, toff, X0, A, OLEN)` with the checks of R272 in their order. -/
def decompress (coded : List Byte) (f : List Nat) (toff x0 A olen : Nat) : Except ErrCode (List Byte) :=
  if badToff toff coded.length then .error .toffInvalid
  else if validTable f A = false then .error .freqInvalid
  else
    match buildTables f A with
    | none => .error .tableFull
    | some t =>
      if x0 < halfRange A ∨ maxState A < x0 ∨ t.entry x0 = none then .error .stateRange
      else
        match decodeSymbols t (codedBit coded toff) A olen x0 (8 * coded.length - toff) [] with
        | .error e => .error e
        | .ok out => .ok (out.map (BitVec.ofNat 8))

/-! ### The commands -/

/-- FSE_ENC (R270). FSE_EMPTY, TABLE_FULL and ENC_UNDERFLOW are FAILs (R362). Without AUTOA the table's range is known before
the data are read, so its RANGE comes before every OVERLAP (R135, R371), where R270's own list, one for both forms, has
the OVERLAP of DST and SRC first. DEDUCED (log entry 23, unsafe). Its DST_OVERFLOW is of kind (6) (log entry 9). -/
def execFseEnc (autoa : Bool) (s : State) : Result :=
  match firstFailing
      [(decide (s.maxRecoded < s.srcSpan.len) || (!autoa && s.badAlpha), .arg),
        (!s.valid s.srcSpan || !s.valid s.dstSpan || (!autoa && !s.valid (s.tblSpan (s.alphabet autoa))), .range),
        (s.dstSpan.overlaps s.srcSpan, .overlap)] with
  | some e => s.raiseFault e
  | none =>
    if autoa && s.srcSpan.len == 0 then s.raiseFail .fseEmpty [s.dstSpan]
    else
      let A := s.alphabet autoa
      let tbl := s.tblSpan A
      let written := [tbl, s.dstSpan]
      match firstFailing
          [(!s.valid tbl, .range), (tbl.overlaps s.srcSpan || tbl.overlaps s.dstSpan, .overlap)] with
      | some e => s.raiseFault e
      | none =>
        let d := symbols s.srcBytes
        if s.srcSpan.len = 0 then s.raiseFail .fseEmpty written
        else if d.any (fun v => decide (A ≤ v)) then s.raiseLateFault .symbol written
        else
          match compress d A with
          | .error e => s.raiseFail e written
          | .ok c =>
            if s.dstSpan.len < c.coded.length then s.raiseLateFault .dstOverflow written
            else
              .next ((((s.memWrite s.dstSpan.addr c.coded).memWrite tbl.addr (bytes16s c.freq)).setRegs
                  { s.regs with
                    alpha := if autoa then Word.ofInt A else s.regs.alpha
                    toff := Word.ofInt c.toff
                    fstate := Word.ofInt c.final }).setRes
                  { s.res with prec := Word.ofInt (precision A), rlen := Word.ofInt c.coded.length }).complete

/-- FSE_DEC (R280). TOFF_INVALID comes before the range checks and changes no DMEM bit (log entry 10). -/
def execFseDec (s : State) : Result :=
  let A := s.args.alpha.toNat
  let tbl := s.tblSpan A
  let olen := s.args.olen.toNat
  match firstFailing
      [(s.badAlpha || decide (s.maxRecoded < olen), .arg), (badToff s.args.toff.toNat s.srcSpan.len, .toffInvalid),
        (!s.valid s.srcSpan || !s.valid tbl || !s.valid s.dstSpan, .range),
        (s.dstSpan.overlaps s.srcSpan || s.dstSpan.overlaps tbl, .overlap), s.capacityCheck olen] with
  | some e => s.raiseFault e
  | none =>
    match decompress s.srcBytes (s.readTable tbl.addr A) s.args.toff.toNat s.args.fstate.toNat A olen with
    | .error e => s.raiseLateFault e [s.dstSpan]
    | .ok out =>
      .next ((s.memWrite s.dstSpan.addr out).setRes
        { s.res with prec := Word.ofInt (precision A), rlen := Word.ofInt olen }).complete

end Sys2Proof.Machine
end

