-- ==== Sys2Proof/Machine/Mtf.lean ====
section
/-! DEFINITION. The move-to-front recoder (42_mtf.md): MTF_ENC, MTF_DEC. -/

namespace Sys2Proof.Machine

/-- The recency list at the start of a command: 0, 1, ..., 255 (R40, R180). -/
def recencyInit : List Byte := (List.range 256).map (BitVec.ofNat 8)

/-- The list with its entry at index `r`, which is `b`, moved to the front (R181, R183). -/
def moveToFront (lst : List Byte) (r : Nat) (b : Byte) : List Byte := b :: (lst.take r ++ lst.drop (r + 1))

/-- The encode steps over a block, from a given list (R181). -/
def mtfEncodeFrom : List Byte → List Byte → List Byte
  | _, [] => []
  | lst, b :: bs =>
    let r := lst.idxOf b
    BitVec.ofNat 8 r :: mtfEncodeFrom (moveToFront lst r b) bs

/-- The decode steps over a block, from a given list (R183). -/
def mtfDecodeFrom : List Byte → List Byte → List Byte
  | _, [] => []
  | lst, r :: rs =>
    let b := lst.getD r.toNat 0
    b :: mtfDecodeFrom (moveToFront lst r.toNat b) rs

/-- `mtf_encode`: once per byte, in block order, from the initial list (R182). -/
def mtfEncode (x : List Byte) : List Byte := mtfEncodeFrom recencyInit x

/-- `mtf_decode` (R184). -/
def mtfDecode (z : List Byte) : List Byte := mtfDecodeFrom recencyInit z

/-- The shape of both commands: a recoding that keeps the length. -/
def State.recodeBlock (s : State) (f : List Byte → List Byte) : Result :=
  match firstFailing (s.byteChecks s.cfg.maxBlock [] ++ [s.capacityCheck s.srcSpan.len]) with
  | some e => s.raiseFault e
  | none => .next (s.writeResult (f s.srcBytes)).complete

/-- MTF_ENC (R182). -/
def execMtfEnc (s : State) : Result := s.recodeBlock mtfEncode

/-- MTF_DEC (R184). -/
def execMtfDec (s : State) : Result := s.recodeBlock mtfDecode

end Sys2Proof.Machine
end

