-- ==== Sys2Proof/Machine/Rle.lean ====
section
/-! DEFINITION. The zero-run-length recoder (43_rle.md): RLE_ENC, RLE_DEC. -/

namespace Sys2Proof.Machine

/-- The threshold `THR` (R201). -/
def rleThreshold : Nat := 4

/-- The cap `CAP` (R201). -/
def rleCap : Nat := 255

/-- The encoder's mode (R200): verbatim, with the count of zeros in a row, or run capture, with the count so far. -/
inductive RleEncMode where
  | verbatim (zeros : Nat)
  | capture (count : Nat)
deriving DecidableEq, Repr

/-- The mode after the encoder emitted byte `v` verbatim with `zeros` zeros before it (R202). -/
def rleAfter (zeros : Nat) (v : Byte) : RleEncMode :=
  if v = 0 then if zeros + 1 = rleThreshold then .capture 0 else .verbatim (zeros + 1) else .verbatim 0

/-- The encoder from a given mode (R202). A capture ends at a byte that is not zero, at the cap, or at the end of the
input, and always emits its length byte. -/
def rleEncodeFrom : RleEncMode → List Byte → List Byte
  | .verbatim _, [] => []
  | .capture c, [] => [BitVec.ofNat 8 c]
  | .verbatim zeros, v :: rest => v :: rleEncodeFrom (rleAfter zeros v) rest
  | .capture c, v :: rest =>
    if v = 0 ∧ c < rleCap then rleEncodeFrom (.capture (c + 1)) rest
    else BitVec.ofNat 8 c :: v :: rleEncodeFrom (rleAfter 0 v) rest

/-- `rle_encode` (R202). -/
def rleEncode (x : List Byte) : List Byte := rleEncodeFrom (.verbatim 0) x

/-- The decoder's mode (R204): verbatim, or the next byte is a length. -/
inductive RleDecMode where
  | verbatim (zeros : Nat)
  | length
deriving DecidableEq, Repr

/-- The decoder from a given mode (R204): where the input ends after the fourth zero, it ends there. -/
def rleDecodeFrom : RleDecMode → List Byte → List Byte
  | _, [] => []
  | .verbatim zeros, v :: rest =>
    v :: rleDecodeFrom
      (if v = 0 then if zeros + 1 = rleThreshold then .length else .verbatim (zeros + 1) else .verbatim 0) rest
  | .length, c :: rest => List.replicate c.toNat 0 ++ rleDecodeFrom (.verbatim 0) rest

/-- `rle_decode` (R204). -/
def rleDecode (r : List Byte) : List Byte := rleDecodeFrom (.verbatim 0) r

/-- The shape of both commands: the check of the output's length against DCAP is "data-dependent" (R203, R206). -/
def State.recodeRuns (s : State) (limit : Nat) (f : List Byte → List Byte) : Result :=
  match firstFailing (s.byteChecks limit []) with
  | some e => s.raiseFault e
  | none =>
    let out := f s.srcBytes
    if s.dstSpan.len < out.length then s.raiseLateFault .dstOverflow [s.dstSpan]
    else .next (s.writeResult out).complete

/-- RLE_ENC (R203). -/
def execRleEnc (s : State) : Result := s.recodeRuns s.cfg.maxBlock rleEncode

/-- RLE_DEC (R206). -/
def execRleDec (s : State) : Result := s.recodeRuns s.maxRecoded rleDecode

end Sys2Proof.Machine
end

