-- ==== Sys2Proof/Machine/Frame.lean ====
section
/-! DEFINITION. The block pipeline and the frame (47_frame.md, 30_encoding.md R110 to R115): FRAME_ENC, FRAME_DEC. -/

namespace Sys2Proof.Machine

/-! ### Building a frame (R321) -/

/-- A frame as FRAME_ENC builds it: its fields (value, width) in order, why it is raw (0: it is not, 1 forced, 2 the
coder failed, 3 not smaller), and what the result registers record. -/
structure FrameImage where
  fields : List (Nat × Nat)
  why : Nat
  rot : Nat
  nrec : Nat
  clen : Nat
deriving DecidableEq, Repr

/-- 8-bit fields of a byte sequence (R110). -/
def byteFields (bs : List Byte) : List (Nat × Nat) := bs.map (fun b => (b.toNat, 8))

/-- The fields of an entropy-coded frame (R110, R321). -/
def entropyFields (last rot A nrec : Nat) (c : Coded) : List (Nat × Nat) :=
  [(last, 8), (0, 8), (rot, 32), (A, 16), (nrec, 32)] ++ c.freq.map (fun v => (v, 16)) ++
    [(c.toff, 8), (c.final, 32), (c.coded.length, 32)] ++ byteFields c.coded

/-- The fields of a raw frame (R110, R321). -/
def rawFields (last rot : Nat) (r : List Byte) : List (Nat × Nat) :=
  [(last, 8), (1, 8), (rot, 32), (r.length, 32)] ++ byteFields r

/-- The raw frame of a recoded block, for the reason `why`. -/
def rawImage (last rot : Nat) (r : List Byte) (why : Nat) : FrameImage :=
  { fields := rawFields last rot r, why := why, rot := rot, nrec := r.length, clen := 0 }

/-- The recoded block and the rotation index: sort, move to front, run lengths (R320, R321). -/
def recodedBlock (b : List Byte) : List Byte × Nat := (rleEncode (mtfEncode (forward b).1), (forward b).2)

/-- `frame_build(b, last, force_raw)` (R321 to R323): the entropy frame exactly when the coder succeeded and the frame is
strictly shorter than the raw one. -/
def frameBuild (b : List Byte) (last forceRaw : Bool) : FrameImage :=
  let r := (recodedBlock b).1
  let rot := (recodedBlock b).2
  let A := denseAlphabet r
  if forceRaw then rawImage last.toNat rot r 1
  else
    match compress (symbols r) A with
    | .error _ => rawImage last.toNat rot r 2
    | .ok c =>
      if 21 + 2 * A + c.coded.length < 10 + r.length then
        { fields := entropyFields last.toNat rot A r.length c, why := 0, rot := rot, nrec := r.length
          clen := c.coded.length }
      else rawImage last.toNat rot r 3

/-- The sum of the widths of fields. -/
def widthSum (fields : List (Nat × Nat)) : Nat := (fields.map Prod.snd).sum

/-- FRAME_ENC (R330). A frame that does not fit changes no DMEM bit: the check depends on the frame's fields alone and is
made as soon as the frame is built, before any bit is written (40_command_lifecycle.md R135; 95_test_vectors.md T9:
"DMEM 0..15 unchanged"). -/
def execFrameEnc (last forceRaw : Bool) (s : State) : Result :=
  match firstFailing
      [(decide (s.cfg.maxBlock < s.srcSpan.len) || s.badWCursor, .arg), (!s.valid s.srcSpan || !s.valid s.wSpan, .range),
        (s.srcSpan.overlaps s.wSpan, .overlap)] with
  | some e => s.raiseFault e
  | none =>
    let image := frameBuild s.srcBytes last forceRaw
    let p := s.wCursor
    let p' := p + widthSum image.fields
    if 8 * s.args.wlim.toNat < p' then s.raiseFault .dstOverflow
    else
      .next (((((s.writeFields p image.fields).setRegs
            { s.regs.setWCursor p' with rot := Word.ofInt image.rot }).setRes
            { s.res with
              nrec := Word.ofInt image.nrec
              clen := Word.ofInt image.clen
              rlen := Word.ofInt (widthSum image.fields / 8) }).setFrame last (image.why != 0)).setRawwhy
          image.why).complete

/-! ### Reading a frame (R325) -/

/-- `get(w)` at bit position `p` (R325): the field and the position after it, or TRUNCATED past bit `limit`. -/
def State.takeField (s : State) (limit w p : Nat) : Except ErrCode (Nat × Nat) :=
  if limit < p + w then .error .truncated else .ok (s.readField p w, p + w)

/-- That many fields of width `w`. -/
def State.takeFields (s : State) (limit w : Nat) : Nat → Nat → Except ErrCode (List Nat × Nat)
  | 0, p => .ok ([], p)
  | n + 1, p =>
    match s.takeField limit w p with
    | .error e => .error e
    | .ok (v, p') =>
      match s.takeFields limit w n p' with
      | .error e => .error e
      | .ok (vs, p'') => .ok (v :: vs, p'')

/-- The fields of a frame as read (R110): of an entropy-coded one, or of a raw one. -/
inductive FrameBody where
  | entropy (A nrec : Nat) (freq : List Nat) (toff final : Nat) (coded : List Byte)
  | raw (recoded : List Byte)
deriving DecidableEq, Repr

/-- A frame as read, and the bit position after it. -/
structure FrameRead where
  last : Nat
  rot : Nat
  body : FrameBody
  pos : Nat
deriving DecidableEq, Repr

/-- The rest of an entropy-coded frame from its alphabet size on (R325). -/
def State.parseEntropy (s : State) (limit p : Nat) : Except ErrCode (FrameBody × Nat) := do
  let (A, p) ← s.takeField limit 16 p
  if A = 0 ∨ 256 < A then .error .frameField
  else
    let (nrec, p) ← s.takeField limit 32 p
    if nrec = 0 ∨ s.maxRecoded < nrec then .error .frameField
    else
      let (freq, p) ← s.takeFields limit 16 A p
      let (toff, p) ← s.takeField limit 8 p
      let (final, p) ← s.takeField limit 32 p
      let (C, p) ← s.takeField limit 32 p
      let (coded, p) ← s.takeFields limit 8 C p
      .ok (.entropy A nrec freq toff final (coded.map (BitVec.ofNat 8)), p)

/-- The rest of a raw frame from its recoded length on (R325). -/
def State.parseRaw (s : State) (limit p : Nat) : Except ErrCode (FrameBody × Nat) := do
  let (nrec, p) ← s.takeField limit 32 p
  if s.maxRecoded < nrec then .error .frameField
  else
    let (r, p) ← s.takeFields limit 8 nrec p
    .ok (.raw (r.map (BitVec.ofNat 8)), p)

/-- The frame at bit position `p`, every field checked as it is read (R325, R342 rows 1 to 5). -/
def State.parseFrame (s : State) (limit p : Nat) : Except ErrCode FrameRead := do
  let (last, p) ← s.takeField limit 8 p
  if 1 < last then .error .lastFlag
  else
    let (mode, p) ← s.takeField limit 8 p
    if 1 < mode then .error .modeTag
    else
      let (rot, p) ← s.takeField limit 32 p
      let (body, p) ← if mode = 0 then s.parseEntropy limit p else s.parseRaw limit p
      .ok { last := last, rot := rot, body := body, pos := p }

/-- The recoded block of a frame: entropy decode or raw copy (R325). -/
def FrameBody.recoded : FrameBody → Except ErrCode (List Byte)
  | .entropy A nrec freq toff final coded => decompress coded freq toff final A nrec
  | .raw r => .ok r

/-- The mode tag (R110). -/
def FrameBody.mode : FrameBody → Bool
  | .entropy _ _ _ _ _ _ => false
  | .raw _ => true

/-- The recoded length, `nrec` (R325). -/
def FrameBody.nrec : FrameBody → Nat
  | .entropy _ nrec _ _ _ _ => nrec
  | .raw r => r.length

/-- The coded byte count `C`, 0 for a raw frame (R325). -/
def FrameBody.clen : FrameBody → Nat
  | .entropy _ _ _ _ _ coded => coded.length
  | .raw _ => 0

/-- From the recoded block back to the block (R325, R342 rows 12 to 15). -/
def restoreBlock (maxBlock dcap rot : Nat) (r : List Byte) : Except ErrCode (List Byte) :=
  let z := rleDecode r
  if maxBlock < z.length then .error .blockLen
  else if z.length < rot then .error .bwtRot
  else if dcap < z.length then .error .dstOverflow
  else
    match inverse (mtfDecode z) rot with
    | none => .error .bwtCycle
    | some x => .ok x

/-- `frame_parse_and_decode(p)` (R325). -/
def State.frameDecode (s : State) (limit p dcap : Nat) : Except ErrCode (FrameRead × List Byte) := do
  let frame ← s.parseFrame limit p
  let r ← frame.body.recoded
  let x ← restoreBlock s.cfg.maxBlock dcap frame.rot r
  .ok (frame, x)

/-- FRAME_DEC (R340). Every check of R342 is taken as of kind (6): R340 calls them data checks, while R135 counts the frame
fields among the values that an early check may depend on. DEDUCED (log entry 25, safe). -/
def execFrameDec (s : State) : Result :=
  match firstFailing
      [(s.badRCursor, .arg), (!s.valid s.rSpan || !s.valid s.dstSpan, .range), (s.rSpan.overlaps s.dstSpan, .overlap)] with
  | some e => s.raiseFault e
  | none =>
    match s.frameDecode (8 * s.args.rlim.toNat) s.rCursor s.dstSpan.len with
    | .error e => s.raiseLateFault e [s.dstSpan]
    | .ok (frame, x) =>
      .next ((((s.memWrite s.dstSpan.addr x).setRegs
            { s.regs.setRCursor frame.pos with rot := Word.ofInt frame.rot }).setRes
            { s.res with
              nrec := Word.ofInt frame.body.nrec
              clen := Word.ofInt frame.body.clen
              rlen := Word.ofInt x.length }).setFrame (frame.last == 1) frame.body.mode).complete

end Sys2Proof.Machine
end

