-- ==== Sys2Proof/Machine/Dispatch.lean ====
section
/-! DEFINITION. One arm per command: its meaning (30_encoding.md R101). -/

namespace Sys2Proof.Machine

def exec (i : Instr) (s : State) : Host.Outcome State Fault Refusal :=
  match i with
  | .nop => Sys2Proof.Machine.execNop s
  | .bwtFwd => Sys2Proof.Machine.execBwtFwd s
  | .bwtInv => Sys2Proof.Machine.execBwtInv s
  | .mtfEnc => Sys2Proof.Machine.execMtfEnc s
  | .mtfDec => Sys2Proof.Machine.execMtfDec s
  | .rleEnc => Sys2Proof.Machine.execRleEnc s
  | .rleDec => Sys2Proof.Machine.execRleDec s
  | .fseNorm autoa => Sys2Proof.Machine.execFseNorm autoa s
  | .fseBuild => Sys2Proof.Machine.execFseBuild s
  | .fseEnc autoa => Sys2Proof.Machine.execFseEnc autoa s
  | .fseDec => Sys2Proof.Machine.execFseDec s
  | .bsPut nbits => Sys2Proof.Machine.execBsPut nbits s
  | .bsGet nbits => Sys2Proof.Machine.execBsGet nbits s
  | .frameEnc last forceRaw => Sys2Proof.Machine.execFrameEnc last forceRaw s
  | .frameDec => Sys2Proof.Machine.execFrameDec s

end Sys2Proof.Machine
end

