-- ==== Sys2Proof/Machine/Flags.lean ====
section
/-! DEFINITION. The flags of the engine: STATUS as a word and its write-one-to-clear bits (10_state.md R33, R36), CTRL
as a word (R34), and the interrupt (60_exceptions.md R380). -/

namespace Sys2Proof.Machine

/-- STATUS as the host reads it (R33); bits 7 and 31:26 read 0. -/
def State.statusWord (s : State) : Word :=
  Word.ofInt
    (s.busy.toNat + 2 * s.status.done.toNat + 4 * s.status.fault.toNat + 8 * s.status.fail.toNat
      + 16 * s.status.last.toNat + 32 * s.status.mode.toNat + 64 * s.status.overrun.toNat
      + 2 ^ 8 * s.status.errcode.toNat + 2 ^ 16 * s.status.lastop.toNat + 2 ^ 24 * s.status.rawwhy.toNat)

/-- CTRL as the host reads it (R34): IE; SRST and bits 31:2 read 0. -/
def State.ctrlWord (s : State) : Word := Word.ofInt s.ie.toNat

/-- The interrupt output: `IRQ = CTRL.IE ∧ STATUS.DONE` (R380). -/
def State.irq (s : State) : Bool := s.ie && s.status.done

/-- A host write of `v` to STATUS: bit 1 clears DONE, bit 6 clears OVERRUN, "all other written bits are ignored" (R33). -/
def State.ackStatus (s : State) (v : Word) : State :=
  { s with
    status :=
      { s.status with done := s.status.done && !v.getLsbD 1, overrun := s.status.overrun && !v.getLsbD 6 } }

/-- OVERRUN is set: a write to CMD or to an argument register was ignored because BUSY was 1 (R33, R410). -/
def State.setOverrun (s : State) : State := { s with status := { s.status with overrun := true } }

end Sys2Proof.Machine
end

