-- ==== Sys2Proof/Machine/HostPort.lean ====
section
/-! DEFINITION. What the host and the platform do to the engine (60_exceptions.md R389, 10_state.md R31 to R34,
20_memory.md R81, R85 to R87, 70_reset_and_hazards.md R400 to R410): the register map, register and DMEM accesses at
host addresses, the resets, and the host syntax of 30_encoding.md R107. -/

namespace Sys2Proof.Machine

/-! ### The register map (R31) -/

/-- The offset of a register in the window (R31). -/
def Reg.offset : Reg → Nat
  | .id => 0x00
  | .cmd => 0x04
  | .status => 0x08
  | .ctrl => 0x0C
  | .src => 0x10
  | .slen => 0x14
  | .dst => 0x18
  | .dcap => 0x1C
  | .tbl => 0x20
  | .alpha => 0x24
  | .rot => 0x28
  | .toff => 0x2C
  | .fstate => 0x30
  | .olen => 0x34
  | .rlen => 0x38
  | .prec => 0x3C
  | .wptr => 0x40
  | .wbit => 0x44
  | .wlim => 0x48
  | .rptr => 0x4C
  | .rbit => 0x50
  | .rlim => 0x54
  | .bsval => 0x58
  | .nrec => 0x5C
  | .clen => 0x60
  | .maxblk => 0x64
  | .dmemsz => 0x68

/-- The registers of the window, by rising offset. -/
def Reg.all : List Reg :=
  [.id, .cmd, .status, .ctrl, .src, .slen, .dst, .dcap, .tbl, .alpha, .rot, .toff, .fstate, .olen, .rlen, .prec,
    .wptr, .wbit, .wlim, .rptr, .rbit, .rlim, .bsval, .nrec, .clen, .maxblk, .dmemsz]

/-- The register at an offset; the offsets 0x6C to 0x7C hold none (R31, R86). -/
def Reg.atOffset (off : Nat) : Option Reg := Reg.all.find? (fun r => r.offset == off)

/-- What a host read of a register returns (R31 to R34): CMD reads 0; reads have no side effect (R78). -/
def State.readReg (s : State) : Reg → Word
  | .id => 0x505A4531
  | .cmd => 0
  | .status => s.statusWord
  | .ctrl => s.ctrlWord
  | .src => s.regs.src
  | .slen => s.regs.slen
  | .dst => s.regs.dst
  | .dcap => s.regs.dcap
  | .tbl => s.regs.tbl
  | .alpha => s.regs.alpha
  | .rot => s.regs.rot
  | .toff => s.regs.toff
  | .fstate => s.regs.fstate
  | .olen => s.regs.olen
  | .rlen => s.res.rlen
  | .prec => s.res.prec
  | .wptr => s.regs.wptr
  | .wbit => s.regs.wbit
  | .wlim => s.regs.wlim
  | .rptr => s.regs.rptr
  | .rbit => s.regs.rbit
  | .rlim => s.regs.rlim
  | .bsval => s.regs.bsval
  | .nrec => s.res.nrec
  | .clen => s.res.clen
  | .maxblk => Word.ofInt s.cfg.maxBlock
  | .dmemsz => Word.ofInt s.cfg.dmemSize

/-- The argument registers with one of them written; `none` for a register that is no argument register (R32). -/
def ArgRegs.put (a : ArgRegs) (v : Word) : Reg → Option ArgRegs
  | .src => some { a with src := v }
  | .slen => some { a with slen := v }
  | .dst => some { a with dst := v }
  | .dcap => some { a with dcap := v }
  | .tbl => some { a with tbl := v }
  | .alpha => some { a with alpha := v }
  | .rot => some { a with rot := v }
  | .toff => some { a with toff := v }
  | .fstate => some { a with fstate := v }
  | .olen => some { a with olen := v }
  | .wptr => some { a with wptr := v }
  | .wbit => some { a with wbit := v }
  | .wlim => some { a with wlim := v }
  | .rptr => some { a with rptr := v }
  | .rbit => some { a with rbit := v }
  | .rlim => some { a with rlim := v }
  | .bsval => some { a with bsval := v }
  | .id | .cmd | .status | .ctrl | .rlen | .prec | .nrec | .clen | .maxblk | .dmemsz => none

/-! ### Reset (R400 to R402) -/

/-- The ranges that a running command may write; none with no command running (R402, R136). -/
def State.runningWritten (s : State) : List Span :=
  match s.running with
  | none => []
  | some i => s.writtenSpans i

/-- A running command is abandoned: every bit it may write is unspecified (R402). -/
def State.abandon (s : State) : State :=
  match s.seq with
  | .idle => s
  | .run _ _ => s.unspecified s.runningWritten

/-- Every register takes its reset value (R44, R400). -/
def State.resetRegisters (s : State) : State :=
  { s with seq := .idle, status := Status.reset, ie := false, regs := ArgRegs.reset, res := ResRegs.reset }

/-- A hard reset that is no power-on, and a soft reset: the same effect (R400, R401). -/
def State.resetEngine (s : State) : State := s.abandon.resetRegisters

/-- A power-on: a hard reset after which "every DMEM byte is unspecified" (R400). -/
def State.powerCycle (s : State) : State := { s.resetEngine with mem := [], epoch := s.epoch + 1 }

/-! ### Register writes (R130, R33, R34, R401, R410) -/

/-- A write of CTRL: SRST performs a soft reset, and IE is then not kept; otherwise IE is written (R34, R401). -/
def State.writeCtrl (s : State) (v : Word) : State :=
  if v.getLsbD 1 then s.resetEngine else { s with ie := v.getLsbD 0 }

/-- A host write of `v` to a register. CMD and the argument registers ignore it while BUSY and set OVERRUN (R130, R410);
result registers and constants ignore it always (R32). -/
def State.writeReg (s : State) (r : Reg) (v : Word) : State :=
  match r with
  | .cmd => if s.busy then s.setOverrun else s.accept v
  | .status => s.ackStatus v
  | .ctrl => s.writeCtrl v
  | .id | .rlen | .prec | .nrec | .clen | .maxblk | .dmemsz => s
  | .src | .slen | .dst | .dcap | .tbl | .alpha | .rot | .toff | .fstate | .olen | .wptr | .wbit | .wlim | .rptr | .rbit
  | .rlim | .bsval => if s.busy then s.setOverrun else s.setRegs ((s.regs.put v r).getD s.regs)

/-! ### Accesses at host addresses (R85 to R87, R81) -/

/-- What a host address names (R85). -/
inductive Target where
  | window (off : Nat)
  | dmem (off : Nat)
  | nowhere
deriving DecidableEq, Repr

/-- The window of 0x80 bytes at REG_BASE, DMEM at DMEM_BASE (R85). Where parameters that are not legal let the two share
an address the window answers. DESIGN CHOICE (log entry 24, unsafe): R85 says nothing of such an address. -/
def State.target (s : State) (addr : Nat) : Target :=
  if s.cfg.regBase ≤ addr ∧ addr < s.cfg.regBase + 0x80 then .window (addr - s.cfg.regBase)
  else if s.cfg.dmemBase ≤ addr ∧ addr < s.cfg.dmemBase + s.cfg.dmemSize then .dmem (addr - s.cfg.dmemBase)
  else .nowhere

/-- The host access touches a byte of a range of the running command (R81, R136). -/
def State.races (s : State) (off width : Nat) : Bool :=
  match s.running with
  | none => false
  | some i => (s.readSpans i ++ s.writtenSpans i).any (fun sp => sp.overlaps { addr := off, len := width })

/-- An aligned 32-bit access (R86). The alignment is that of the offset in the window. DESIGN CHOICE (log entry 13,
unsafe): the spec does not say that REG_BASE is a multiple of 4. -/
def alignedWord (off width : Nat) : Bool := width == 4 && off % 4 == 0

/-- The value a read of the window at an offset returns; reserved offsets read 0 (R86). -/
def State.readWindow (s : State) (off : Nat) : Word :=
  match Reg.atOffset off with
  | some r => s.readReg r
  | none => 0

/-- A write of the window at an offset; reserved offsets ignore it (R86). -/
def State.writeWindow (s : State) (off : Nat) (v : Word) : State :=
  match Reg.atOffset off with
  | some r => s.writeReg r v
  | none => s

/-- The 32-bit value of the data of a window write, the lowest byte first (R87). -/
def wordOfData : List Byte → Word
  | [b0, b1, b2, b3] => wordOfBytes b0 b1 b2 b3
  | _ => 0

/-- A host access to DMEM can be made: the bytes exist, and no running command owns one of them (R81, R412). -/
def State.dmemAccess (s : State) (off width : Nat) (ok : State) : Result :=
  if s.cfg.dmemSize < off + width then .fault .hostAddress
  else if s.races off width then .refused .hostRace
  else .next ok

/-- A move of the host (R389). -/
def State.hostMove (s : State) : HostAccess → Result
  | .read addr width =>
    match s.target addr with
    | .window off =>
      if alignedWord off width then .next { s with readData := bytesOfWord (s.readWindow off) }
      else .refused .registerAccess
    | .dmem off => s.dmemAccess off width { s with readData := s.memRead off width }
    | .nowhere => .fault .hostAddress
  | .write addr data =>
    match s.target addr with
    | .window off =>
      if alignedWord off data.length then .next (s.writeWindow off (wordOfData data)) else .refused .registerAccess
    | .dmem off => s.dmemAccess off data.length (s.memWrite off data)
    | .nowhere => .fault .hostAddress

/-! ### The host syntax of R107 and R108, as moves -/

/-- `wr NAME, v` (R107). -/
def wr (c : Config) (r : Reg) (v : Word) : Turn := .host (.write (c.regBase + r.offset) (bytesOfWord v))

/-- `rd NAME` (R107). -/
def rd (c : Config) (r : Reg) : Turn := .host (.read (c.regBase + r.offset) 4)

/-- `mem ADDR: b0 b1 ...` (R107). -/
def memBytes (c : Config) (a : Nat) (bs : List Byte) : Turn := .host (.write (c.dmemBase + a) bs)

/-- `cmd MNEMONIC, imm` (R107): the command word written to CMD. -/
def cmd (c : Config) (i : Instr) : Turn := wr c .cmd (encode i)

/-- `ack` (R108). -/
def ack (c : Config) : Turn := wr c .status 0x00000002

/-- `run MNEMONIC, imm` (R108): the command, the engine's move, and the read of STATUS that ends the `wait` loop. -/
def runCmd (c : Config) (i : Instr) : List Turn := [cmd c i, .engine, rd c .status]

end Sys2Proof.Machine
end

