-- ==== Sys2Proof/Machine/Engine.lean ====
section
/-! DEFINITION. The moves of a step: the engine's (a running command completes, 40_command_lifecycle.md R132, R133,
R137), the host's and the platform's. -/

namespace Sys2Proof.Machine

/-- The engine's move. A running command is decoded from its latched word and runs to its end in this one step, since
nothing can be observed in between (R35, R80; log entry 8); an illegal word ends with `Fault(ILLEGAL_CMD)` (R132). With
no command running the engine does nothing (R391). -/
def engineMove (s : State) : Result :=
  match s.seq with
  | .idle => .next s
  | .run w _ =>
    match decodeWord w with
    | .ok i => exec i s
    | .error _ => s.raiseFault .illegalCmd

/-- A move of any agent (R372: "The engine's steps are atomic, and any two events happen in some order"). -/
def takeTurn (s : State) : Turn → Result
  | .engine => engineMove s
  | .host a => s.hostMove a
  | .hardReset => .next s.resetEngine
  | .powerOn => .next s.powerCycle

end Sys2Proof.Machine
end

