-- ==== Sys2Proof/Machine/Step.lean ====
section
/-! DEFINITION. One step of the machine: the oldest move that is still to come, or the engine's where there is none (so
that a running command completes: weak fairness, 40_command_lifecycle.md R137). -/

namespace Sys2Proof.Machine

/-- One step. -/
def step (s : State) : Host.Outcome State Fault Refusal :=
  match s.turns with
  | [] => engineMove s
  | t :: rest => takeTurn { s with turns := rest } t

/-- `s` with the command word `w` accepted (R131) and the engine to move next, so that the next step runs it: the
engine fetches nothing, it takes "each command word from the value written to CMD" (20_memory.md R88; log entry 4). -/
def State.withFetchWord (s : State) (nbits w : Nat) : State :=
  { s.accept (Word.ofInt (w % 2 ^ nbits)) with turns := .engine :: s.turns }

end Sys2Proof.Machine
end

