-- ==== Sys2Proof/Safety.lean ====
section
/-! DEFINITION. The terms the claims use: the invariant every step keeps, what a completed command leaves, where a
range lies, and the bits of a frame. They are written from the rules in plain arithmetic, apart from the operations
of Machine/ that they speak about. -/

namespace Sys2Proof.Machine

/-! ### The invariant -/

/-- The listed bytes of DMEM are in canonical form and lie in DMEM (20_memory.md R70). -/
abbrev State.memInv (s : State) : Prop := s.mem.wf ∧ ∀ c ∈ s.mem, c.1 < s.cfg.dmemSize

/-- While a command runs, STATUS and the argument registers are as acceptance left them: DONE, FAULT, FAIL and ERRCODE
are 0, LASTOP is its opcode, and the latched arguments are still the registers (40_command_lifecycle.md R131, R410, R411). -/
abbrev State.runInv (s : State) : Prop :=
  match s.seq with
  | .idle => True
  | .run w latched =>
    latched = s.regs ∧ s.status.lastop = BitVec.ofNat 8 w.toNat ∧ s.status.done = false ∧ s.status.fault = false ∧
      s.status.fail = false ∧ s.status.errcode = 0

/-- FAULT and FAIL are never both set (60_exceptions.md R371), ERRCODE is 0 exactly on neither, and the codes 0x16 to
0xFF are never written (R360). -/
abbrev State.codeInv (s : State) : Prop :=
  ¬(s.status.fault = true ∧ s.status.fail = true) ∧
    (s.status.errcode = 0 ↔ s.status.fault = false ∧ s.status.fail = false) ∧ s.status.errcode.toNat ≤ 0x15

/-- The invariant. -/
abbrev State.Inv (s : State) : Prop := s.cfg.wf ∧ s.memInv ∧ s.runInv ∧ s.codeInv

/-! ### Ranges -/

/-- The range `(addr, len)` is valid (20_memory.md R71). -/
abbrev State.inDmem (s : State) (addr len : Nat) : Prop := len = 0 ∨ addr + len ≤ s.cfg.dmemSize

/-- Two ranges share no byte (20_memory.md R79). -/
abbrev apart (a l b m : Nat) : Prop := l = 0 ∨ m = 0 ∨ a + l ≤ b ∨ b + m ≤ a

/-- Every DMEM byte outside the range `(addr, len)` reads as before. -/
def State.sameOutside (s t : State) (addr len : Nat) : Prop :=
  ∀ a, ¬(addr ≤ a ∧ a < addr + len) → t.byteAt a = s.byteAt a

/-- Every DMEM byte reads as before. -/
def State.sameBytes (s t : State) : Prop := ∀ a, t.byteAt a = s.byteAt a

/-! ### What a command leaves -/

/-- The command has ended with these outcome fields (40_command_lifecycle.md R133). -/
def State.endedAs (t : State) (fault fail : Bool) (code : Byte) : Prop :=
  t.seq = .idle ∧ t.status.done = true ∧ t.status.fault = fault ∧ t.status.fail = fail ∧ t.status.errcode = code

/-- What no command changes: CTRL, OVERRUN, LASTOP, the parameters, the moves to come and the host's data. -/
def State.keepsRest (s t : State) : Prop :=
  t.ie = s.ie ∧ t.status.overrun = s.status.overrun ∧ t.status.lastop = s.status.lastop ∧ t.cfg = s.cfg ∧
    t.turns = s.turns ∧ t.readData = s.readData ∧ t.epoch = s.epoch

/-- STATUS.LAST, MODE and RAWWHY, which only a successful frame command writes (10_state.md R36). -/
def State.keepsFrameFlags (s t : State) : Prop :=
  t.status.last = s.status.last ∧ t.status.mode = s.status.mode ∧ t.status.rawwhy = s.status.rawwhy

/-- Success of a command that writes no frame flag (R133). -/
def State.succeeded (s t : State) : Prop := t.endedAs false false 0 ∧ s.keepsRest t ∧ s.keepsFrameFlags t

/-- A FAULT or FAIL: "no register other than STATUS changes" (R133, R370). -/
def State.stoppedAs (s t : State) (fault fail : Bool) (code : Byte) : Prop :=
  t.endedAs fault fail code ∧ s.keepsRest t ∧ s.keepsFrameFlags t ∧ t.regs = s.regs ∧ t.res = s.res

/-- A FAULT that changes no DMEM bit (R133, kinds (1) to (5)). -/
def State.preciseFault (s t : State) (code : Byte) : Prop := s.stoppedAs t true false code ∧ t.mem = s.mem

/-- The command ends with a FAULT that changes no DMEM bit. -/
abbrev State.earlyFault (s : State) (i : Instr) (code : Byte) : Prop := ∃ t, exec i s = .next t ∧ s.preciseFault t code

/-- Every bit of DMEM outside the ranges a command may write reads as before (R133, R136). -/
def State.writesOnly (s t : State) (i : Instr) : Prop :=
  ∀ p, (∀ sp ∈ s.writtenSpans i, ¬(8 * sp.addr + sp.keep ≤ p ∧ p < 8 * (sp.addr + sp.len))) → t.getBit p = s.getBit p

/-! ### The operands of the byte commands -/

/-- A byte command may start: the length within its limit, both ranges valid, no shared byte (R160, R182, R203). -/
abbrev State.byteReady (s : State) (limit : Nat) : Prop :=
  s.args.slen.toNat ≤ limit ∧ s.inDmem s.args.src.toNat s.args.slen.toNat ∧
    s.inDmem s.args.dst.toNat s.args.dcap.toNat ∧
    apart s.args.src.toNat s.args.slen.toNat s.args.dst.toNat s.args.dcap.toNat

/-- The block at `(SRC, SLEN)`. -/
abbrev State.block (s : State) : List Byte := s.memRead s.args.src.toNat s.args.slen.toNat

/-! ### Frames -/

/-- The bits of fields: "an integer field of width `w` contributes its bits 0 to `w-1` in that order" (30 R110). -/
def fieldBits (fields : List (Nat × Nat)) : List Bool :=
  fields.flatMap (fun f => (List.range f.2).map (fun i => f.1.testBit i))

/-- The integer that `n` bits from bit `p` on hold, least significant first (20_memory.md R74, 30 R111). -/
def bitsAt (w : List Bool) (p n : Nat) : Nat := ((List.range n).map (fun i => (w.getD (p + i) false).toNat * 2 ^ i)).sum

/-! ### The decoder's runs -/

/-- `rank` after `j` bits are shifted in, read backwards from `pos` (45_fse_codec.md R273, R274). -/
def shifted (bit : Nat → Bool) (rank pos : Nat) : Nat → Nat
  | 0 => rank
  | j + 1 => 2 * shifted bit rank pos j + (bit (pos - 1 - j)).toNat

/-- `n` rounds of the decoder's loop, from a state with `pos` bits left to a state with `pos'` left, decoding `out`, the
last symbol first: each round reads the state's entry and shifts in as few bits as bring its rank to `l` (R274). -/
def decodeRun (t : Tables) (bit : Nat → Bool) (l : Nat) : Nat → Nat → Nat → Nat → Nat → List Nat → Prop
  | 0, x, pos, x', pos', out => x' = x ∧ pos' = pos ∧ out = []
  | n + 1, x, pos, x', pos', out => ∃ s rank j rest, t.entry x = some (s, rank) ∧ j ≤ pos ∧
      l ≤ shifted bit rank pos j ∧ (∀ k < j, shifted bit rank pos k < l) ∧
      decodeRun t bit l n (shifted bit rank pos j) (pos - j) x' pos' rest ∧ out = rest ++ [s]

end Sys2Proof.Machine
end

