-- ==== Sys2Proof/Certificates/Slice0/Obligations.lean ====
section
/-! DEFINITION. The statements about the model, for the provers: each docstring names the rule of spec/ it formalises. -/

open Sys2Proof Sys2Proof.Machine

/-! ### Encoding -/

/-- R109: the worked command words, each way, and the four illegal ones. -/
def Obligations.WorkedCommandWords : Prop :=
  (∀ p ∈ ([(0x00000000, .nop), (0x00000001, .bwtFwd), (0x00000109, .fseEnc true), (0x0000080B, .bsPut 8),
      (0x0000200C, .bsGet 32), (0x0000010D, .frameEnc true false), (0x0000030D, .frameEnc true true),
      (0x0000000E, .frameDec)] : List (Word × Instr)), decodeWord p.1 = .ok p.2 ∧ encode p.2 = p.1) ∧
  ∀ w ∈ ([0x0000000F, 0x00010001, 0x00000101, 0x0000000B] : List Word), ∀ i, decodeWord w ≠ .ok i

/-- Decoding the encoding of a well-formed command gives it back, with every immediate R102 admits. -/
def Obligations.DecodeInvertsEncode : Prop :=
  ∀ i : Instr, i.wf = true → decodeWord (encode i) = .ok i

/-- A word that decodes is the encoding of what it decodes to, which is well-formed: no bit is ignored (R104). -/
def Obligations.DecodedWordIsItsEncoding : Prop :=
  ∀ (w : Word) (i : Instr), decodeWord w = .ok i → i.wf = true ∧ encode i = w

/-- R104: exactly the words it lists are illegal, and a running illegal word ends with `Fault(ILLEGAL_CMD)` at once,
having read and written nothing else. -/
def Obligations.IllegalWordFaultsAtOnce : Prop :=
  (∀ w : Word, (∃ e, decodeWord w = .error e) ↔
    (let op := w.toNat % 2 ^ 8
     let imm := w.toNat / 2 ^ 8 % 2 ^ 8
     let rsv := w.toNat / 2 ^ 16
     0x0F ≤ op ∨ rsv ≠ 0 ∨
      (op ∈ [0x00, 0x01, 0x02, 0x03, 0x04, 0x05, 0x06, 0x08, 0x0A, 0x0E] ∧ imm ≠ 0) ∨
      (op ∈ [0x07, 0x09] ∧ imm / 2 ≠ 0) ∨ (op = 0x0D ∧ imm / 4 ≠ 0) ∨
      (op ∈ [0x0B, 0x0C] ∧ (imm = 0 ∨ 32 < imm)))) ∧
  (∀ (s : State) (w : Word), s.seq = .idle → (s.writeReg .cmd w).seq = .run w s.regs) ∧
  ∀ (s : State) (w : Word) (a : ArgRegs) (e : Reject), s.seq = .run w a → decodeWord w = .error e →
    s.turns = [] → ∃ t, step s = .next t ∧ s.preciseFault t 0x01

/-! ### Steps -/

/-- R132: the engine decodes the latched word; a legal word runs the rule of its opcode, an illegal one ends with
`Fault(ILLEGAL_CMD)`. With the engine to move and the latched word decoding to `i`, a step is `exec i` of the state
less the move it used; `withFetchWord` builds such a state by the acceptance of R131. -/
def Obligations.StepRunsTheLatchedCommand : Prop :=
  (∀ (s : State) (w : Word) (a : ArgRegs) (i : Instr), s.seq = .run w a → decodeWord w = .ok i →
    (s.turns = [] → step s = exec i s) ∧
    ∀ rest, s.turns = .engine :: rest → step s = exec i { s with turns := rest }) ∧
  (∀ (s : State) (w : Word) (a : ArgRegs) (e : Reject), s.seq = .run w a → decodeWord w = .error e →
    ∀ rest, s.turns = .engine :: rest → ∃ t, step s = .next t ∧ State.preciseFault { s with turns := rest } t 0x01) ∧
  ∀ (s : State) (nbits w : Nat) (i : Instr), decodeTableWord nbits w = some i →
    step (s.withFetchWord nbits w) = exec i (s.accept (Word.ofInt (w % 2 ^ nbits)))

/-- Every step keeps the invariant: DMEM stays canonical and inside DMEM_SIZE, a running command's latched arguments stay
the registers, FAULT and FAIL exclude each other, ERRCODE is 0 exactly without them and never a reserved code; and no
step changes the parameters (R8, R10). -/
def Obligations.StepKeepsInvariant : Prop :=
  (∀ s t : State, s.Inv → step s = .next t → t.Inv) ∧ ∀ s t : State, step s = .next t → t.cfg = s.cfg

/-- The state after reset satisfies the invariant, for all legal parameters; those of `State.reset` are legal. -/
def Obligations.ResetSatisfiesInvariant : Prop :=
  (∀ c : Config, c.wf → (State.resetWith c).Inv) ∧ Config.default.wf ∧ State.reset.Inv

/-! ### Reset -/

/-- R44, R400 to R402: after a hard or a soft reset or a power-on SEQ is IDLE, STATUS, CTRL and every argument and result
register are 0, the constants hold; a reset that is no power-on leaves DMEM unchanged but for the bits a running command
may write, and wholly where none or an illegal word runs; after power-on every DMEM byte is unspecified. (The ranges of a
running command are the model's where a register is illegal, log entry 15; that power-on is a move of its own, and that
its bytes are the free values of that power-on, are the model's form, log entries 20 and 5.) -/
def Obligations.ResetLeavesRegistersZero : Prop :=
  (∀ s t : State, (takeTurn s .hardReset = .next t ∨ (∃ v : Word, v.getLsbD 1 = true ∧ t = s.writeReg .ctrl v) ∨
        takeTurn s .powerOn = .next t) →
      t.seq = .idle ∧ t.statusWord = 0 ∧ t.ctrlWord = 0 ∧ t.irq = false ∧
      (∀ r : Reg, (s.regs.put 0 r).isSome = true ∨ r ∈ [Reg.rlen, .prec, .nrec, .clen] → t.readReg r = 0) ∧
      t.readReg .id = 0x505A4531 ∧ t.readReg .maxblk = Word.ofInt s.cfg.maxBlock ∧
      t.readReg .dmemsz = Word.ofInt s.cfg.dmemSize) ∧
  (∀ s t : State, (takeTurn s .hardReset = .next t ∨ ∃ v : Word, v.getLsbD 1 = true ∧ t = s.writeReg .ctrl v) →
      (s.seq = .idle → s.sameBytes t) ∧
      (∀ w a e, s.seq = .run w a → decodeWord w = .error e → s.sameBytes t) ∧
      (∀ w a i, s.seq = .run w a → decodeWord w = .ok i → s.writesOnly t i)) ∧
  ∀ s t : State, takeTurn s .powerOn = .next t → ∀ a, t.byteAt a = Config.powerOnByte (s.epoch + 1) a

/-- R402: when a reset ends a running command, each byte its ranges hold becomes a fresh draw, but for the low WBIT bits of
the byte at WPTR; every register takes its reset value. (That the draw is the free value `Config.freeByte` at the
number of the event is the model's form of "fresh draws", log entry 6.) -/
def Obligations.AbandonedCommandBitsAreDrawn : Prop :=
  ∀ (s : State) (w : Word) (a : ArgRegs) (i : Instr), s.seq = .run w a → decodeWord w = .ok i →
    (∀ sp ∈ s.writtenSpans i, ∀ p, 8 * sp.addr + sp.keep ≤ p → p < 8 * (sp.addr + sp.len) → p < 8 * s.cfg.dmemSize →
      s.resetEngine.getBit p = (Config.freeByte s.draws (p / 8)).getLsbD (p % 8)) ∧
    s.resetEngine.seq = .idle ∧ s.resetEngine.status = Status.reset ∧ s.resetEngine.ie = false ∧
    s.resetEngine.regs = ArgRegs.reset ∧ s.resetEngine.res = ResRegs.reset

/-! ### The register window -/

/-- R131: acceptance latches the word and the argument registers, sets BUSY, clears DONE, FAULT, FAIL and ERRCODE, records
LASTOP, keeps LAST, MODE, RAWWHY and OVERRUN, and changes nothing else; the command then reads the latched values. -/
def Obligations.CmdWriteIsAccepted : Prop :=
  ∀ (s : State) (w : Word), s.seq = .idle →
    let t := s.writeReg .cmd w
    t = { s with
      seq := .run w s.regs
      status := { s.status with
        done := false, fault := false, fail := false, errcode := 0, lastop := BitVec.ofNat 8 (w.toNat % 2 ^ 8) } } ∧
    t.busy = true ∧ ∀ t' : State, t'.seq = t.seq → t'.args = s.regs

/-- R410: while BUSY a write to CMD or to an argument register only sets OVERRUN; a write to CTRL or STATUS takes effect
as usual and one to a read-only or reserved register is ignored; over every step, "OVERRUN stays set until the host
writes STATUS with bit 6 set or a reset occurs". -/
def Obligations.WritesWhileBusySetStickyOverrun : Prop :=
  (∀ (s : State) (v : Word), s.busy = true →
    (∀ r : Reg, r = .cmd ∨ (s.regs.put v r).isSome = true →
      s.writeReg r v = { s with status := { s.status with overrun := true } }) ∧
    (v.getLsbD 1 = false → s.writeReg .ctrl v = { s with ie := v.getLsbD 0 }) ∧
    (v.getLsbD 1 = true → s.writeReg .ctrl v = s.resetEngine) ∧
    (s.writeReg .status v).status.overrun = (s.status.overrun && !v.getLsbD 6) ∧
    (∀ r ∈ [Reg.id, .rlen, .prec, .nrec, .clen, .maxblk, .dmemsz], s.writeReg r v = s) ∧
    ∀ off, 0x6C ≤ off → s.writeWindow off v = s) ∧
  ∀ s t : State, s.status.overrun = true → step s = .next t → t.status.overrun = false →
    (∃ rest, s.turns = .hardReset :: rest ∨ s.turns = .powerOn :: rest) ∨
    ∃ addr data rest, s.turns = .host (.write addr data) :: rest ∧
      ((addr = s.cfg.regBase + 0x08 ∧ (wordOfData data).getLsbD 6 = true) ∨
        (addr = s.cfg.regBase + 0x0C ∧ (wordOfData data).getLsbD 1 = true))

/-- R32 and R410: while no command runs a write to an argument register stores the whole value, whatever it is, in the
register of that name, the one commands read, and in nothing else. -/
def Obligations.ArgumentRegisterHoldsWhatIsWritten : Prop :=
  ∀ (s : State) (r : Reg) (v : Word) (a : ArgRegs), s.seq = .idle → (r, a) ∈
    [(Reg.src, { s.regs with src := v }), (.slen, { s.regs with slen := v }), (.dst, { s.regs with dst := v }),
      (.dcap, { s.regs with dcap := v }), (.tbl, { s.regs with tbl := v }), (.alpha, { s.regs with alpha := v }),
      (.rot, { s.regs with rot := v }), (.toff, { s.regs with toff := v }), (.fstate, { s.regs with fstate := v }),
      (.olen, { s.regs with olen := v }), (.wptr, { s.regs with wptr := v }), (.wbit, { s.regs with wbit := v }),
      (.wlim, { s.regs with wlim := v }), (.rptr, { s.regs with rptr := v }), (.rbit, { s.regs with rbit := v }),
      (.rlim, { s.regs with rlim := v }), (.bsval, { s.regs with bsval := v })] →
    s.writeReg r v = { s with regs := a } ∧ (s.writeReg r v).args = a

/-- R33: which bit of a STATUS read is which field; bits 7 and 31:26 read 0. -/
def Obligations.StatusReadShowsItsFields : Prop :=
  ∀ s : State, let w := s.readReg .status
    w.getLsbD 0 = s.busy ∧ w.getLsbD 1 = s.status.done ∧ w.getLsbD 2 = s.status.fault ∧ w.getLsbD 3 = s.status.fail ∧
    w.getLsbD 4 = s.status.last ∧ w.getLsbD 5 = s.status.mode ∧ w.getLsbD 6 = s.status.overrun ∧ w.getLsbD 7 = false ∧
    w.extractLsb' 8 8 = s.status.errcode ∧ w.extractLsb' 16 8 = s.status.lastop ∧
    w.extractLsb' 24 2 = s.status.rawwhy ∧ w.extractLsb' 26 6 = 0

/-- R33: "Writing STATUS with bit 1 set clears DONE; with bit 6 set clears OVERRUN; all other written bits are ignored." -/
def Obligations.StatusWriteClearsOnlyItsBits : Prop :=
  ∀ (s : State) (v : Word), let t := s.writeReg .status v
    t.status.done = (if v.getLsbD 1 then false else s.status.done) ∧
    t.status.overrun = (if v.getLsbD 6 then false else s.status.overrun) ∧
    { t with status := { t.status with done := s.status.done, overrun := s.status.overrun } } = s

/-- R380, R34, R401: IRQ is IE and DONE; every completion raises it when enabled, and a step that sets DONE is the engine's
move of a running command, the single source; an acknowledge, an acceptance, a masking and a reset drop it, and a CTRL
write without SRST writes IE alone, so the mask leaves DONE. -/
def Obligations.InterruptIsEnabledDone : Prop :=
  (∀ s : State, (s.irq = true ↔ s.ie = true ∧ s.status.done = true) ∧
    (∀ i t, s.ie = true → exec i s = .next t → t.irq = true) ∧
    (∀ t, s.ie = true → s.busy = true → engineMove s = .next t → t.irq = true) ∧
    (∀ v : Word, v.getLsbD 1 = true → (s.writeReg .status v).irq = false) ∧
    (∀ w : Word, s.seq = .idle → (s.writeReg .cmd w).irq = false) ∧
    (∀ v : Word, v.getLsbD 1 = false → s.writeReg .ctrl v = { s with ie := v.getLsbD 0 }) ∧
    (∀ v : Word, v.getLsbD 0 = false → v.getLsbD 1 = false →
      (s.writeReg .ctrl v).irq = false ∧ (s.writeReg .ctrl v).status.done = s.status.done) ∧
    s.resetEngine.irq = false) ∧
  ∀ s t : State, step s = .next t → s.status.done = false → t.status.done = true →
    s.busy = true ∧ t.busy = false ∧ (s.turns = [] ∨ ∃ rest, s.turns = .engine :: rest)

/-- R86: the window takes aligned 32-bit accesses only, others are refused; the offsets 0x6C to 0x7C and CMD read 0;
writes to reserved offsets and to read-only registers are ignored. (That alignment is that of the offset, for every
REG_BASE, that the window answers where DMEM shares its addresses, and that what is read is kept in `readData`, are the
model's choices, log entries 13, 24 and 17.) -/
def Obligations.WindowTakesAlignedWordsOnly : Prop :=
  ∀ (s : State) (off : Nat), off < 0x80 →
    (∀ width, ¬(width = 4 ∧ off % 4 = 0) →
      s.hostMove (.read (s.cfg.regBase + off) width) = .refused .registerAccess) ∧
    (∀ data : List Byte, ¬(data.length = 4 ∧ off % 4 = 0) →
      s.hostMove (.write (s.cfg.regBase + off) data) = .refused .registerAccess) ∧
    (off % 4 = 0 → (0x6C ≤ off ∨ off = 0x04) →
      s.hostMove (.read (s.cfg.regBase + off) 4) = .next { s with readData := [0, 0, 0, 0] }) ∧
    (∀ data : List Byte, data.length = 4 → off % 4 = 0 →
      (0x6C ≤ off ∨ off ∈ [0x00, 0x38, 0x3C, 0x5C, 0x60, 0x64, 0x68]) →
      s.hostMove (.write (s.cfg.regBase + off) data) = .next s)

/-- R31, R32, R34: the offset of every register, for reads and for writes through the window, and the value each read
returns; a read returns the register's bytes, the lowest first, and changes nothing else (R78). (That an access at
REG_BASE + offset is an aligned one for every REG_BASE, that the window answers where DMEM shares its addresses, and that
what is read is kept in `readData`, are the model's choices, log entries 13, 24 and 17.) -/
def Obligations.RegisterMapOffsets : Prop :=
  ∀ (s : State) (r : Reg) (off : Nat) (value : Word), (off, r, value) ∈
    [(0x00, Reg.id, 0x505A4531), (0x04, .cmd, 0), (0x08, .status, s.statusWord), (0x0C, .ctrl, if s.ie then 1 else 0),
      (0x10, .src, s.regs.src), (0x14, .slen, s.regs.slen), (0x18, .dst, s.regs.dst), (0x1C, .dcap, s.regs.dcap),
      (0x20, .tbl, s.regs.tbl), (0x24, .alpha, s.regs.alpha), (0x28, .rot, s.regs.rot), (0x2C, .toff, s.regs.toff),
      (0x30, .fstate, s.regs.fstate), (0x34, .olen, s.regs.olen), (0x38, .rlen, s.res.rlen), (0x3C, .prec, s.res.prec),
      (0x40, .wptr, s.regs.wptr), (0x44, .wbit, s.regs.wbit), (0x48, .wlim, s.regs.wlim), (0x4C, .rptr, s.regs.rptr),
      (0x50, .rbit, s.regs.rbit), (0x54, .rlim, s.regs.rlim), (0x58, .bsval, s.regs.bsval), (0x5C, .nrec, s.res.nrec),
      (0x60, .clen, s.res.clen), (0x64, .maxblk, Word.ofInt s.cfg.maxBlock), (0x68, .dmemsz, Word.ofInt s.cfg.dmemSize)] →
    s.readReg r = value ∧
    (∃ t, s.hostMove (.read (s.cfg.regBase + off) 4) = .next t ∧ { t with readData := s.readData } = s ∧
      t.readData.length = 4 ∧ wordOfData t.readData = value) ∧
    ∀ v : Word, s.hostMove (.write (s.cfg.regBase + off) (bytesOfWord v)) = .next (s.writeReg r v)

/-- R81, R412, R87: a host access to a byte of a running command's ranges has no move; one to other bytes of DMEM is
ordinary memory of any width, also while a command runs. (The model's: the refusal's name, log entry 12; the ranges where a
register holds an illegal value or AUTOA has no readable data, which are empty, entry 15; that the two windows share no
host address, as legal parameters have it, entry 24; that what is read is kept in `readData`, entry 17.) -/
def Obligations.HostKeepsOutOfRunningRanges : Prop :=
  ∀ (s : State) (off : Nat) (data : List Byte), s.cfg.wf → data ≠ [] → off + data.length ≤ s.cfg.dmemSize →
    ((∃ w a i sp b, s.seq = .run w a ∧ decodeWord w = .ok i ∧ sp ∈ s.readSpans i ++ s.writtenSpans i ∧
        sp.addr ≤ b ∧ b < sp.addr + sp.len ∧ off ≤ b ∧ b < off + data.length) →
      s.hostMove (.read (s.cfg.dmemBase + off) data.length) = .refused .hostRace ∧
      s.hostMove (.write (s.cfg.dmemBase + off) data) = .refused .hostRace) ∧
    ((∀ w a i, s.seq = .run w a → decodeWord w = .ok i → ∀ sp ∈ s.readSpans i ++ s.writtenSpans i,
        sp.len = 0 ∨ off + data.length ≤ sp.addr ∨ sp.addr + sp.len ≤ off) →
      s.hostMove (.read (s.cfg.dmemBase + off) data.length)
        = .next { s with readData := s.memRead off data.length } ∧
      ∃ t, s.hostMove (.write (s.cfg.dmemBase + off) data) = .next t ∧ t.memRead off data.length = data ∧
        s.sameOutside t off data.length ∧ { t with mem := s.mem } = s)

/-- R411, R130: while a command runs no move of the host changes the registers it writes, STATUS.LAST, MODE and RAWWHY
among them, nor the command, but for a CTRL write with SRST set, which resets. -/
def Obligations.HostCannotDisturbRunningCommand : Prop :=
  ∀ (s t : State) (w : Word) (a : ArgRegs) (m : HostAccess), s.Inv → s.seq = .run w a →
    s.hostMove m = .next t →
    (t.seq = .run w a ∧ t.regs = s.regs ∧ t.res = s.res ∧ t.status.done = s.status.done ∧ s.keepsFrameFlags t) ∨
      (t = s.resetEngine ∧ ∃ addr data, m = .write addr data ∧ addr = s.cfg.regBase + 0x0C ∧
        (wordOfData data).getLsbD 1 = true)

/-! ### Every command -/

/-- R133: a command that runs ends, in exactly one of three outcomes, with SEQ IDLE, BUSY 0 and DONE 1. -/
def Obligations.EveryCommandEnds : Prop :=
  ∀ (i : Instr) (s : State), ∃ t, exec i s = .next t ∧ t.seq = .idle ∧ t.busy = false ∧ t.status.done = true ∧
    ((t.status.fault = false ∧ t.status.fail = false ∧ t.status.errcode = 0) ∨
      (t.status.fault = true ∧ t.status.fail = false ∧ t.status.errcode ≠ 0) ∨
      (t.status.fault = false ∧ t.status.fail = true ∧ t.status.errcode ≠ 0))

/-- R133, R136, R77: whatever the outcome, no command changes a DMEM bit outside the ranges it may write, nor CTRL, OVERRUN,
LASTOP, the parameters or the moves to come. (That AUTOA with no data names no byte at TBL, and that a range with an
illegal limit is empty, are the model's readings, log entries 11 and 15.) -/
def Obligations.CommandsWriteOnlyTheirRanges : Prop :=
  ∀ (i : Instr) (s t : State), exec i s = .next t → s.writesOnly t i ∧ s.keepsRest t

/-- R133, R370, R36: a FAULT or a FAIL changes no register other than STATUS, and in STATUS neither LAST, MODE, RAWWHY nor
OVERRUN. -/
def Obligations.FailedCommandsChangeOnlyStatus : Prop :=
  ∀ (i : Instr) (s t : State), exec i s = .next t → (t.status.fault = true ∨ t.status.fail = true) →
    t.regs = s.regs ∧ t.res = s.res ∧ s.keepsFrameFlags t ∧ t.status.overrun = s.status.overrun ∧ t.ie = s.ie

/-- R133, R135, R370: a FAULT of an early check (the command word, ARG, RANGE, OVERLAP; DST_OVERFLOW where the output length
is known before processing, and that of FRAME_ENC, known from the frame's fields) changes no DMEM bit. (That BWT_ROT of
BWT_INV and TOFF_INVALID of FSE_DEC are early is the model's reading, log entry 10.) -/
def Obligations.EarlyFaultsLeaveDmem : Prop :=
  ∀ (i : Instr) (s t : State), exec i s = .next t → t.status.fault = true →
    (t.status.errcode ∈ [0x01, 0x02, 0x03, 0x04] ∨
      (t.status.errcode = 0x05 ∧
        (i ∈ [Instr.bwtFwd, .bwtInv, .mtfEnc, .mtfDec, .fseBuild, .fseDec] ∨ (∃ n, i = .bsPut n) ∨
          ∃ last forceRaw, i = .frameEnc last forceRaw)) ∨
      (t.status.errcode = 0x06 ∧ i = .bwtInv) ∨ (t.status.errcode = 0x10 ∧ i = .fseDec)) →
    t.mem = s.mem

/-- R362: only FSE_NORM and FSE_ENC end with FAIL, with FSE_EMPTY, TABLE_FULL or ENC_UNDERFLOW, FSE_NORM only with the
first; FRAME_ENC recovers from the same failures by a raw frame. -/
def Obligations.OnlyEntropyEncodersFail : Prop :=
  (∀ (i : Instr) (s t : State), exec i s = .next t → t.status.fail = true →
    ((∃ autoa, i = .fseNorm autoa) ∧ t.status.errcode = 0x09) ∨
    ((∃ autoa, i = .fseEnc autoa) ∧ t.status.errcode ∈ [0x09, 0x0A, 0x0B])) ∧
  ∀ (b : List Byte) (last : Bool) (e : ErrCode), compress (symbols (recodedBlock b).1) (denseAlphabet (recodedBlock b).1)
      = .error e →
    (frameBuild b last false).why = 2 ∧
    (frameBuild b last false).fields = rawFields last.toNat (recodedBlock b).2 (recodedBlock b).1

/-- R360: which commands raise which FAULT code: each code only by the commands listed. -/
def Obligations.FaultCodesOnlyByListedCommands : Prop :=
  ∀ (i : Instr) (s t : State), exec i s = .next t → t.status.fault = true →
    match i with
    | .nop => False
    | .bwtFwd | .mtfEnc | .mtfDec | .rleEnc | .rleDec => t.status.errcode ∈ [0x02, 0x03, 0x04, 0x05]
    | .bwtInv => t.status.errcode ∈ [0x02, 0x03, 0x04, 0x05, 0x06, 0x07]
    | .fseNorm autoa => t.status.errcode ∈ [0x02, 0x03, 0x04, 0x08] ∧ (autoa = true → t.status.errcode ≠ 0x08)
    | .fseBuild => t.status.errcode ∈ [0x02, 0x03, 0x04, 0x05, 0x0A, 0x0C]
    | .fseEnc autoa => t.status.errcode ∈ [0x02, 0x03, 0x04, 0x05, 0x08] ∧ (autoa = true → t.status.errcode ≠ 0x08)
    | .fseDec => t.status.errcode ∈ [0x02, 0x03, 0x04, 0x05, 0x0A, 0x0C, 0x0D, 0x0E, 0x0F, 0x10]
    | .bsPut _ => t.status.errcode ∈ [0x01, 0x02, 0x03, 0x05]
    | .bsGet _ => t.status.errcode ∈ [0x01, 0x02, 0x03, 0x13]
    | .frameEnc _ _ => t.status.errcode ∈ [0x02, 0x03, 0x04, 0x05]
    | .frameDec =>
      t.status.errcode ∈ [0x02, 0x03, 0x04, 0x05, 0x06, 0x07, 0x0A, 0x0C, 0x0D, 0x0E, 0x0F, 0x10, 0x11, 0x12, 0x13,
        0x14, 0x15]

/-! ### The commands one by one -/

/-- R140: NOP completes, changing no register but STATUS and no DMEM byte; a word with OP 0 and IMM or RSV not 0 is illegal; from
reset, `cmd NOP` leaves STATUS 2. -/
def Obligations.NopOnlyCompletes : Prop :=
  (∀ s : State, ∃ t, exec .nop s = .next t ∧ s.succeeded t ∧ t.mem = s.mem ∧ t.regs = s.regs ∧ t.res = s.res) ∧
  (∀ w : Word, w.toNat % 256 = 0 → w ≠ 0 → ∃ e, decodeWord w = .error e) ∧
  ∃ t, step (State.reset.withFetchWord 32 0) = .next t ∧ t.statusWord = 0x00000002

/-- R160: BWT_FWD writes the forward transform of the block at DST, its rotation index to ROT and SLEN to RLEN. -/
def Obligations.BwtFwdWritesForwardTransform : Prop :=
  ∀ s : State, s.byteReady s.cfg.maxBlock → s.args.slen.toNat ≤ s.args.dcap.toNat →
    ∃ t, exec .bwtFwd s = .next t ∧ s.succeeded t ∧
      t.memRead s.args.dst.toNat s.args.slen.toNat = (forward s.block).1 ∧
      s.sameOutside t s.args.dst.toNat s.args.slen.toNat ∧
      t.regs.rot.toNat = (forward s.block).2 ∧ { t.regs with rot := s.regs.rot } = s.regs ∧
      t.res = { s.res with rlen := s.args.slen }

/-- R165: BWT_INV writes the block the walk of R157 emits at DST and SLEN to RLEN; where the walk meets the sentinel it ends
with `Fault(BWT_CYCLE)`, and `ROT > SLEN` ends it with `Fault(BWT_ROT)` before any range check. (That BWT_ROT changes no
DMEM bit is the model's reading, log entry 10.) -/
def Obligations.BwtInvWritesInverse : Prop :=
  ∀ s : State, s.args.slen.toNat ≤ s.cfg.maxBlock →
    (s.args.slen.toNat < s.args.rot.toNat → ∃ t, exec .bwtInv s = .next t ∧ s.preciseFault t 0x06) ∧
    (s.args.rot.toNat ≤ s.args.slen.toNat → s.byteReady s.cfg.maxBlock → s.args.slen.toNat ≤ s.args.dcap.toNat →
      match inverse s.block s.args.rot.toNat with
      | none => ∃ t, exec .bwtInv s = .next t ∧ s.stoppedAs t true false 0x07 ∧
          s.sameOutside t s.args.dst.toNat s.args.dcap.toNat
      | some x => ∃ t, exec .bwtInv s = .next t ∧ s.succeeded t ∧
          t.memRead s.args.dst.toNat s.args.slen.toNat = x ∧
          s.sameOutside t s.args.dst.toNat s.args.slen.toNat ∧
          t.regs = s.regs ∧ t.res = { s.res with rlen := s.args.slen })

/-- R182, R184: MTF_ENC and MTF_DEC write the recoded block of the same length at DST and SLEN to RLEN. The corner cases: the
first occurrence of a byte encodes as its value plus the number of distinct greater values before it, a byte equal to the
one before it as 0; a zero rank repeats the byte before it, or gives 0 at the start. -/
def Obligations.MtfCommandsWriteRecodedBlock : Prop :=
  (∀ (x : List Byte) (b : Byte),
    (b ∉ x → mtfEncode (x ++ [b]) = mtfEncode x ++
      [BitVec.ofNat 8 (b.toNat + (x.dedup.filter (fun v => decide (b.toNat < v.toNat))).length)]) ∧
    mtfEncode (x ++ [b, b]) = mtfEncode (x ++ [b]) ++ [0] ∧
    mtfDecode (x ++ [0]) = mtfDecode x ++ [(mtfDecode x).getLastD 0]) ∧
  ∀ (s : State) (i : Instr) (f : List Byte → List Byte), (i, f) = (.mtfEnc, mtfEncode) ∨ (i, f) = (.mtfDec, mtfDecode) →
    s.byteReady s.cfg.maxBlock → s.args.slen.toNat ≤ s.args.dcap.toNat →
    ∃ t, exec i s = .next t ∧ s.succeeded t ∧ t.memRead s.args.dst.toNat s.args.slen.toNat = f s.block ∧
      s.sameOutside t s.args.dst.toNat s.args.slen.toNat ∧ t.regs = s.regs ∧ t.res = { s.res with rlen := s.args.slen }

/-- R203, R206, R134: RLE_ENC and RLE_DEC write their output at DST and its length to RLEN, leaving the rest of the
destination; an output longer than DCAP ends with `Fault(DST_OVERFLOW)`. -/
def Obligations.RleCommandsWriteRecodedBlock : Prop :=
  ∀ (s : State) (i : Instr) (f : List Byte → List Byte) (limit : Nat),
    (i, f, limit) = (.rleEnc, rleEncode, s.cfg.maxBlock) ∨
      (i, f, limit) = (.rleDec, rleDecode, s.cfg.maxBlock + s.cfg.maxBlock / 4) →
    s.byteReady limit →
    ((f s.block).length ≤ s.args.dcap.toNat →
      ∃ t, exec i s = .next t ∧ s.succeeded t ∧ t.memRead s.args.dst.toNat (f s.block).length = f s.block ∧
        s.sameOutside t s.args.dst.toNat (f s.block).length ∧ t.regs = s.regs ∧
        t.res.rlen.toNat = (f s.block).length ∧ { t.res with rlen := s.res.rlen } = s.res) ∧
    (s.args.dcap.toNat < (f s.block).length →
      ∃ t, exec i s = .next t ∧ s.stoppedAs t true false 0x05 ∧ s.sameOutside t s.args.dst.toNat s.args.dcap.toNat)

/-- R135, R160, R165, R182, R184, R203, R206: the byte commands report the first failing check: the length, the ranges, the
overlap, the known capacity, after BWT_INV's own check of ROT; each changes no DMEM bit. -/
def Obligations.ByteCommandsCheckInOrder : Prop :=
  ∀ (s : State) (i : Instr) (limit : Nat),
    (i ∈ [Instr.bwtFwd, .bwtInv, .mtfEnc, .mtfDec, .rleEnc] ∧ limit = s.cfg.maxBlock) ∨
      (i = .rleDec ∧ limit = s.cfg.maxBlock + s.cfg.maxBlock / 4) →
    (limit < s.args.slen.toNat → s.earlyFault i 0x02) ∧
    (s.args.slen.toNat ≤ limit → (i = .bwtInv → s.args.rot.toNat ≤ s.args.slen.toNat) →
      (¬(s.inDmem s.args.src.toNat s.args.slen.toNat ∧ s.inDmem s.args.dst.toNat s.args.dcap.toNat) →
        s.earlyFault i 0x03) ∧
      (s.inDmem s.args.src.toNat s.args.slen.toNat → s.inDmem s.args.dst.toNat s.args.dcap.toNat →
        ¬apart s.args.src.toNat s.args.slen.toNat s.args.dst.toNat s.args.dcap.toNat → s.earlyFault i 0x04) ∧
      (i ∈ [Instr.bwtFwd, .bwtInv, .mtfEnc, .mtfDec] → s.byteReady limit → s.args.dcap.toNat < s.args.slen.toNat →
        s.earlyFault i 0x05))

/-- R226: the checks of FSE_NORM in their order (no data is EmptyDataFails); with data that pass them it writes the
normalised table at TBL, P to PREC, 2A to RLEN and, with AUTOA, A to ALPHA. -/
def Obligations.FseNormWritesTable : Prop :=
  ∀ (autoa : Bool) (s : State), let i := Instr.fseNorm autoa
    (s.cfg.maxBlock + s.cfg.maxBlock / 4 < s.args.slen.toNat ∨
      (autoa = false ∧ (s.args.alpha.toNat = 0 ∨ 256 < s.args.alpha.toNat)) → s.earlyFault i 0x02) ∧
    (s.args.slen.toNat ≤ s.cfg.maxBlock + s.cfg.maxBlock / 4 →
      (autoa = false → 1 ≤ s.args.alpha.toNat ∧ s.args.alpha.toNat ≤ 256) →
      (¬s.inDmem s.args.src.toNat s.args.slen.toNat → s.earlyFault i 0x03) ∧
      (s.inDmem s.args.src.toNat s.args.slen.toNat → s.args.slen.toNat ≠ 0 → ∀ A,
        A = (if autoa then (s.block.map BitVec.toNat).foldl max 0 + 1 else s.args.alpha.toNat) →
        (¬s.inDmem s.args.tbl.toNat (2 * A) → s.earlyFault i 0x03) ∧
        (s.inDmem s.args.tbl.toNat (2 * A) →
          (¬apart s.args.tbl.toNat (2 * A) s.args.src.toNat s.args.slen.toNat → s.earlyFault i 0x04) ∧
          (apart s.args.tbl.toNat (2 * A) s.args.src.toNat s.args.slen.toNat →
            ((∃ v ∈ s.block, A ≤ v.toNat) → ∃ t, exec i s = .next t ∧ s.stoppedAs t true false 0x08 ∧
              s.sameOutside t s.args.tbl.toNat (2 * A)) ∧
            ((∀ v ∈ s.block, v.toNat < A) → ∃ t, exec i s = .next t ∧ s.succeeded t ∧
              t.memRead s.args.tbl.toNat (2 * A) = (normalize (s.block.map BitVec.toNat) A).flatMap
                (fun f => [BitVec.ofNat 8 f, BitVec.ofNat 8 (f / 256)]) ∧
              s.sameOutside t s.args.tbl.toNat (2 * A) ∧
              t.regs = (if autoa then { s.regs with alpha := Word.ofInt A } else s.regs) ∧
              t.res = { s.res with prec := Word.ofInt (bitLength A + 4), rlen := Word.ofInt (2 * A) })))))

/-- R226, R270, R225: with no data, AUTOA ends FSE_NORM and FSE_ENC with `Fail(FSE_EMPTY)` wherever TBL points; without
AUTOA the range of the table, and for FSE_ENC its overlap with the destination, is checked first. (That FSE_ENC with AUTOA
then leaves the bytes at TBL is the model's reading, log entry 11.) -/
def Obligations.EmptyDataFails : Prop :=
  ∀ s : State, s.args.slen.toNat = 0 →
    (∃ t, exec (.fseNorm true) s = .next t ∧ s.stoppedAs t false true 0x09) ∧
    (s.inDmem s.args.dst.toNat s.args.dcap.toNat →
      ∃ t, exec (.fseEnc true) s = .next t ∧ s.stoppedAs t false true 0x09 ∧
        s.sameOutside t s.args.dst.toNat s.args.dcap.toNat) ∧
    (1 ≤ s.args.alpha.toNat → s.args.alpha.toNat ≤ 256 →
      (¬s.inDmem s.args.tbl.toNat (2 * s.args.alpha.toNat) →
        s.earlyFault (.fseNorm false) 0x03 ∧
        (s.inDmem s.args.dst.toNat s.args.dcap.toNat → s.earlyFault (.fseEnc false) 0x03)) ∧
      (s.inDmem s.args.tbl.toNat (2 * s.args.alpha.toNat) →
        (∃ t, exec (.fseNorm false) s = .next t ∧ s.stoppedAs t false true 0x09 ∧
          s.sameOutside t s.args.tbl.toNat (2 * s.args.alpha.toNat)) ∧
        (s.inDmem s.args.dst.toNat s.args.dcap.toNat →
          ¬apart s.args.tbl.toNat (2 * s.args.alpha.toNat) s.args.dst.toNat s.args.dcap.toNat →
          s.earlyFault (.fseEnc false) 0x04) ∧
        (s.inDmem s.args.dst.toNat s.args.dcap.toNat →
          apart s.args.tbl.toNat (2 * s.args.alpha.toNat) s.args.dst.toNat s.args.dcap.toNat →
          ∃ t, exec (.fseEnc false) s = .next t ∧ s.stoppedAs t false true 0x09 ∧
            ∀ a, ¬(s.args.dst.toNat ≤ a ∧ a < s.args.dst.toNat + s.args.dcap.toNat) →
              ¬(s.args.tbl.toNat ≤ a ∧ a < s.args.tbl.toNat + 2 * s.args.alpha.toNat) → t.byteAt a = s.byteAt a)))

/-- R241, R240: the checks of FSE_BUILD in their order; with arguments that pass them it dumps the decoding table of a valid
table that builds, four bytes a state, FREE as FF FF 00 00; an invalid table ends with `Fault(FREQ_INVALID)`, a full one
with `Fault(TABLE_FULL)`. -/
def Obligations.FseBuildDumpsDecodingTable : Prop :=
  ∀ (s : State) (A : Nat) (f : List Nat), A = s.args.alpha.toNat →
    f = (List.range A).map (fun q => s.memRead16 (s.args.tbl.toNat + 2 * q)) →
    (A = 0 ∨ 256 < A → s.earlyFault .fseBuild 0x02) ∧
    (1 ≤ A → A ≤ 256 →
      (¬(s.inDmem s.args.tbl.toNat (2 * A) ∧ s.inDmem s.args.dst.toNat s.args.dcap.toNat) →
        s.earlyFault .fseBuild 0x03) ∧
      (s.inDmem s.args.tbl.toNat (2 * A) → s.inDmem s.args.dst.toNat s.args.dcap.toNat →
        (¬apart s.args.tbl.toNat (2 * A) s.args.dst.toNat s.args.dcap.toNat → s.earlyFault .fseBuild 0x04) ∧
        (apart s.args.tbl.toNat (2 * A) s.args.dst.toNat s.args.dcap.toNat →
          (s.args.dcap.toNat < 4 * 2 ^ (bitLength A + 5) → s.earlyFault .fseBuild 0x05) ∧
          (4 * 2 ^ (bitLength A + 5) ≤ s.args.dcap.toNat →
            (validTable f A = false → ∃ t, exec .fseBuild s = .next t ∧ s.stoppedAs t true false 0x0C ∧
              s.sameOutside t s.args.dst.toNat s.args.dcap.toNat) ∧
            (validTable f A = true → buildTables f A = none → ∃ t, exec .fseBuild s = .next t ∧
              s.stoppedAs t true false 0x0A ∧ s.sameOutside t s.args.dst.toNat s.args.dcap.toNat) ∧
            ∀ tables, validTable f A = true → buildTables f A = some tables →
              ∃ t, exec .fseBuild s = .next t ∧ s.succeeded t ∧
                (∀ y < 2 ^ (bitLength A + 5), t.memRead (s.args.dst.toNat + 4 * y) 4 =
                  match tables.entry y with
                  | some (q, x) =>
                    [BitVec.ofNat 8 q, BitVec.ofNat 8 (q / 256), BitVec.ofNat 8 x, BitVec.ofNat 8 (x / 256)]
                  | none => [0xFF, 0xFF, 0x00, 0x00]) ∧
                s.sameOutside t s.args.dst.toNat (4 * 2 ^ (bitLength A + 5)) ∧ t.regs = s.regs ∧
                t.res = { s.res with
                  prec := Word.ofInt (bitLength A + 4), rlen := Word.ofInt (4 * 2 ^ (bitLength A + 5)) }))))

/-- R270, R135: the checks of FSE_ENC in their order (no data is EmptyDataFails; that without AUTOA the RANGE of the table comes
before every OVERLAP, as R135 has it and R270's list does not, is the model's reading, log entry 23); with data that pass
them it writes the coded bytes at DST, the table at TBL, TOFF, FSTATE, PREC, RLEN and, with AUTOA, ALPHA, when the
compression of R266 succeeds and fits in DCAP; its failure is the FAIL of its code. -/
def Obligations.FseEncWritesCompressedBlock : Prop :=
  ∀ (autoa : Bool) (s : State), let i := Instr.fseEnc autoa
    (s.cfg.maxBlock + s.cfg.maxBlock / 4 < s.args.slen.toNat ∨
      (autoa = false ∧ (s.args.alpha.toNat = 0 ∨ 256 < s.args.alpha.toNat)) → s.earlyFault i 0x02) ∧
    (s.args.slen.toNat ≤ s.cfg.maxBlock + s.cfg.maxBlock / 4 →
      (autoa = false → 1 ≤ s.args.alpha.toNat ∧ s.args.alpha.toNat ≤ 256) →
      (¬(s.inDmem s.args.src.toNat s.args.slen.toNat ∧ s.inDmem s.args.dst.toNat s.args.dcap.toNat) →
        s.earlyFault i 0x03) ∧
      (s.inDmem s.args.src.toNat s.args.slen.toNat → s.inDmem s.args.dst.toNat s.args.dcap.toNat →
        (autoa = false → ¬s.inDmem s.args.tbl.toNat (2 * s.args.alpha.toNat) → s.earlyFault i 0x03) ∧
        (¬apart s.args.src.toNat s.args.slen.toNat s.args.dst.toNat s.args.dcap.toNat →
          (autoa = true ∨ s.inDmem s.args.tbl.toNat (2 * s.args.alpha.toNat)) → s.earlyFault i 0x04) ∧
        (apart s.args.src.toNat s.args.slen.toNat s.args.dst.toNat s.args.dcap.toNat → s.args.slen.toNat ≠ 0 → ∀ A,
          A = (if autoa then (s.block.map BitVec.toNat).foldl max 0 + 1 else s.args.alpha.toNat) →
          (¬s.inDmem s.args.tbl.toNat (2 * A) → s.earlyFault i 0x03) ∧
          (s.inDmem s.args.tbl.toNat (2 * A) →
            (¬(apart s.args.tbl.toNat (2 * A) s.args.src.toNat s.args.slen.toNat ∧
                apart s.args.tbl.toNat (2 * A) s.args.dst.toNat s.args.dcap.toNat) → s.earlyFault i 0x04) ∧
            (apart s.args.tbl.toNat (2 * A) s.args.src.toNat s.args.slen.toNat →
              apart s.args.tbl.toNat (2 * A) s.args.dst.toNat s.args.dcap.toNat →
              ((∃ v ∈ s.block, A ≤ v.toNat) → ∃ t, exec i s = .next t ∧ s.stoppedAs t true false 0x08) ∧
              ((∀ v ∈ s.block, v.toNat < A) →
                (∀ e, compress (s.block.map BitVec.toNat) A = .error e → ∃ t, exec i s = .next t ∧
                  s.stoppedAs t false true e.code) ∧
                ∀ c, compress (s.block.map BitVec.toNat) A = .ok c →
                  (s.args.dcap.toNat < c.coded.length → ∃ t, exec i s = .next t ∧ s.stoppedAs t true false 0x05) ∧
                  (c.coded.length ≤ s.args.dcap.toNat → ∃ t, exec i s = .next t ∧ s.succeeded t ∧
                    t.memRead s.args.dst.toNat c.coded.length = c.coded ∧
                    t.memRead s.args.tbl.toNat (2 * A)
                      = c.freq.flatMap (fun f => [BitVec.ofNat 8 f, BitVec.ofNat 8 (f / 256)]) ∧
                    (∀ a, ¬(s.args.dst.toNat ≤ a ∧ a < s.args.dst.toNat + c.coded.length) →
                      ¬(s.args.tbl.toNat ≤ a ∧ a < s.args.tbl.toNat + 2 * A) → t.byteAt a = s.byteAt a) ∧
                    t.regs.toff = Word.ofInt c.toff ∧ t.regs.fstate = Word.ofInt c.final ∧
                    t.regs.alpha = (if autoa then Word.ofInt A else s.regs.alpha) ∧
                    { t.regs with toff := s.regs.toff, fstate := s.regs.fstate, alpha := s.regs.alpha } = s.regs ∧
                    t.res = { s.res with
                      prec := Word.ofInt (bitLength A + 4), rlen := Word.ofInt c.coded.length })))))))

/-- R280: the checks of FSE_DEC in their order; with arguments that pass them it writes the decoded symbols at DST, P to PREC
and OLEN to RLEN when the decompression of R274 succeeds; its error (DecompressChecksInOrder) is the FAULT of its code.
(That TOFF_INVALID changes no DMEM bit is the model's reading, log entry 10.) -/
def Obligations.FseDecWritesDecodedBlock : Prop :=
  ∀ (s : State) (A : Nat) (f : List Nat), A = s.args.alpha.toNat →
    f = (List.range A).map (fun q => s.memRead16 (s.args.tbl.toNat + 2 * q)) →
    (A = 0 ∨ 256 < A ∨ s.cfg.maxBlock + s.cfg.maxBlock / 4 < s.args.olen.toNat → s.earlyFault .fseDec 0x02) ∧
    (1 ≤ A → A ≤ 256 → s.args.olen.toNat ≤ s.cfg.maxBlock + s.cfg.maxBlock / 4 →
      (7 < s.args.toff.toNat ∨ (0 < s.args.toff.toNat ∧ s.args.slen.toNat = 0) → s.earlyFault .fseDec 0x10) ∧
      (¬(7 < s.args.toff.toNat ∨ (0 < s.args.toff.toNat ∧ s.args.slen.toNat = 0)) →
        (¬(s.inDmem s.args.src.toNat s.args.slen.toNat ∧ s.inDmem s.args.tbl.toNat (2 * A) ∧
            s.inDmem s.args.dst.toNat s.args.dcap.toNat) → s.earlyFault .fseDec 0x03) ∧
        (s.inDmem s.args.src.toNat s.args.slen.toNat → s.inDmem s.args.tbl.toNat (2 * A) →
          s.inDmem s.args.dst.toNat s.args.dcap.toNat →
          (¬(apart s.args.dst.toNat s.args.dcap.toNat s.args.src.toNat s.args.slen.toNat ∧
              apart s.args.dst.toNat s.args.dcap.toNat s.args.tbl.toNat (2 * A)) → s.earlyFault .fseDec 0x04) ∧
          (apart s.args.dst.toNat s.args.dcap.toNat s.args.src.toNat s.args.slen.toNat →
            apart s.args.dst.toNat s.args.dcap.toNat s.args.tbl.toNat (2 * A) →
            (s.args.dcap.toNat < s.args.olen.toNat → s.earlyFault .fseDec 0x05) ∧
            (s.args.olen.toNat ≤ s.args.dcap.toNat →
              match decompress s.block f s.args.toff.toNat s.args.fstate.toNat A s.args.olen.toNat with
              | .error e => ∃ t, exec .fseDec s = .next t ∧ s.stoppedAs t true false e.code ∧
                  s.sameOutside t s.args.dst.toNat s.args.dcap.toNat
              | .ok out => ∃ t, exec .fseDec s = .next t ∧ s.succeeded t ∧
                  t.memRead s.args.dst.toNat s.args.olen.toNat = out ∧
                  s.sameOutside t s.args.dst.toNat s.args.olen.toNat ∧ t.regs = s.regs ∧
                  t.res = { s.res with prec := Word.ofInt (bitLength A + 4), rlen := s.args.olen })))))

/-- R304, R300: BS_PUT writes the low NBITS bits of BSVAL at the write cursor, least significant first, changes no other
bit of DMEM, and moves the cursor past them. -/
def Obligations.BsPutWritesField : Prop :=
  ∀ (n : Nat) (s : State), 1 ≤ n → n ≤ 32 → s.args.wbit.toNat ≤ 7 → s.args.wptr.toNat ≤ s.args.wlim.toNat →
    s.inDmem s.args.wptr.toNat (s.args.wlim.toNat - s.args.wptr.toNat) →
    8 * s.args.wptr.toNat + s.args.wbit.toNat + n ≤ 8 * s.args.wlim.toNat →
    let p := 8 * s.args.wptr.toNat + s.args.wbit.toNat
    ∃ t, exec (.bsPut n) s = .next t ∧ s.succeeded t ∧
      (∀ k < n, t.getBit (p + k) = s.args.bsval.getLsbD k) ∧
      (∀ q, ¬(p ≤ q ∧ q < p + n) → t.getBit q = s.getBit q) ∧
      t.regs = { s.regs with wptr := Word.ofInt ((p + n) / 8), wbit := Word.ofInt ((p + n) % 8) } ∧ t.res = s.res

/-- R306: BS_GET reads NBITS bits at the read cursor into BSVAL, zero-extended, moves the cursor past them and changes no
byte of DMEM. -/
def Obligations.BsGetReadsField : Prop :=
  ∀ (n : Nat) (s : State), 1 ≤ n → n ≤ 32 → s.args.rbit.toNat ≤ 7 → s.args.rptr.toNat ≤ s.args.rlim.toNat →
    s.inDmem s.args.rptr.toNat (s.args.rlim.toNat - s.args.rptr.toNat) →
    8 * s.args.rptr.toNat + s.args.rbit.toNat + n ≤ 8 * s.args.rlim.toNat →
    let p := 8 * s.args.rptr.toNat + s.args.rbit.toNat
    ∃ t, exec (.bsGet n) s = .next t ∧ s.succeeded t ∧ t.mem = s.mem ∧
      (∀ k < 32, t.regs.bsval.getLsbD k = (decide (k < n) && s.getBit (p + k))) ∧
      { t.regs with bsval := s.regs.bsval } =
        { s.regs with rptr := Word.ofInt ((p + n) / 8), rbit := Word.ofInt ((p + n) % 8) } ∧ t.res = s.res

/-- R304, R306: the checks of BS_PUT and BS_GET in their order, none of which changes DMEM. -/
def Obligations.BitCommandsCheckInOrder : Prop :=
  ∀ (n : Nat) (s : State),
    (¬(1 ≤ n ∧ n ≤ 32) → (∃ t, exec (.bsPut n) s = .next t ∧ s.preciseFault t 0x01) ∧
      ∃ t, exec (.bsGet n) s = .next t ∧ s.preciseFault t 0x01) ∧
    (1 ≤ n → n ≤ 32 →
      ((7 < s.args.wbit.toNat ∨ s.args.wlim.toNat < s.args.wptr.toNat) →
        ∃ t, exec (.bsPut n) s = .next t ∧ s.preciseFault t 0x02) ∧
      (s.args.wbit.toNat ≤ 7 → s.args.wptr.toNat ≤ s.args.wlim.toNat →
        (¬s.inDmem s.args.wptr.toNat (s.args.wlim.toNat - s.args.wptr.toNat) →
          ∃ t, exec (.bsPut n) s = .next t ∧ s.preciseFault t 0x03) ∧
        (s.inDmem s.args.wptr.toNat (s.args.wlim.toNat - s.args.wptr.toNat) →
          8 * s.args.wlim.toNat < 8 * s.args.wptr.toNat + s.args.wbit.toNat + n →
          ∃ t, exec (.bsPut n) s = .next t ∧ s.preciseFault t 0x05)) ∧
      ((7 < s.args.rbit.toNat ∨ s.args.rlim.toNat < s.args.rptr.toNat) →
        ∃ t, exec (.bsGet n) s = .next t ∧ s.preciseFault t 0x02) ∧
      (s.args.rbit.toNat ≤ 7 → s.args.rptr.toNat ≤ s.args.rlim.toNat →
        (¬s.inDmem s.args.rptr.toNat (s.args.rlim.toNat - s.args.rptr.toNat) →
          ∃ t, exec (.bsGet n) s = .next t ∧ s.preciseFault t 0x03) ∧
        (s.inDmem s.args.rptr.toNat (s.args.rlim.toNat - s.args.rptr.toNat) →
          8 * s.args.rlim.toNat < 8 * s.args.rptr.toNat + s.args.rbit.toNat + n →
          ∃ t, exec (.bsGet n) s = .next t ∧ s.preciseFault t 0x13)))

/-- R307: no cursor wraps: a successful BS_PUT leaves the cursor, as an integer, NBITS further and
`WPTR <= WLIM <= DMEM_SIZE`; a successful BS_GET leaves `RPTR <= RLIM`. -/
def Obligations.BitCursorsNeverWrap : Prop :=
  ∀ (n : Nat) (s t : State),
    (exec (.bsPut n) s = .next t → t.status.fault = false →
      8 * t.regs.wptr.toNat + t.regs.wbit.toNat = 8 * s.args.wptr.toNat + s.args.wbit.toNat + n ∧
      t.regs.wbit.toNat ≤ 7 ∧ t.regs.wptr.toNat ≤ s.args.wlim.toNat ∧ s.args.wlim.toNat ≤ s.cfg.dmemSize) ∧
    (exec (.bsGet n) s = .next t → t.status.fault = false →
      8 * t.regs.rptr.toNat + t.regs.rbit.toNat = 8 * s.args.rptr.toNat + s.args.rbit.toNat + n ∧
      t.regs.rbit.toNat ≤ 7 ∧ t.regs.rptr.toNat ≤ s.args.rlim.toNat)

/-- R330, R324, R110, R135: the checks of FRAME_ENC in their order; with arguments that pass them it writes the bits of the
frame of R321 at the write cursor, changes no other bit of DMEM, and writes the cursor, ROT, NREC, CLEN, RLEN and
STATUS.LAST, MODE, RAWWHY; a frame that does not fit ends with `Fault(DST_OVERFLOW)` and changes no DMEM bit. -/
def Obligations.FrameEncWritesFrame : Prop :=
  ∀ (last forceRaw : Bool) (s : State), let i := Instr.frameEnc last forceRaw
    (s.cfg.maxBlock < s.args.slen.toNat ∨ 7 < s.args.wbit.toNat ∨ s.args.wlim.toNat < s.args.wptr.toNat →
      s.earlyFault i 0x02) ∧
    (s.args.slen.toNat ≤ s.cfg.maxBlock → s.args.wbit.toNat ≤ 7 → s.args.wptr.toNat ≤ s.args.wlim.toNat →
      (¬(s.inDmem s.args.src.toNat s.args.slen.toNat ∧
          s.inDmem s.args.wptr.toNat (s.args.wlim.toNat - s.args.wptr.toNat)) → s.earlyFault i 0x03) ∧
      (s.inDmem s.args.src.toNat s.args.slen.toNat →
        s.inDmem s.args.wptr.toNat (s.args.wlim.toNat - s.args.wptr.toNat) →
        (¬apart s.args.src.toNat s.args.slen.toNat s.args.wptr.toNat (s.args.wlim.toNat - s.args.wptr.toNat) →
          s.earlyFault i 0x04) ∧
        (apart s.args.src.toNat s.args.slen.toNat s.args.wptr.toNat (s.args.wlim.toNat - s.args.wptr.toNat) →
          let image := frameBuild s.block last forceRaw
          let bits := fieldBits image.fields
          let p := 8 * s.args.wptr.toNat + s.args.wbit.toNat
          (8 * s.args.wlim.toNat < p + bits.length → s.earlyFault i 0x05) ∧
          (p + bits.length ≤ 8 * s.args.wlim.toNat → ∃ t, exec i s = .next t ∧
            t.endedAs false false 0 ∧ s.keepsRest t ∧
            (∀ k < bits.length, t.getBit (p + k) = bits.getD k false) ∧
            (∀ q, ¬(p ≤ q ∧ q < p + bits.length) → t.getBit q = s.getBit q) ∧
            t.regs = { s.regs with
              wptr := Word.ofInt ((p + bits.length) / 8)
              wbit := Word.ofInt ((p + bits.length) % 8)
              rot := Word.ofInt image.rot } ∧
            t.res = { s.res with
              nrec := Word.ofInt image.nrec
              clen := Word.ofInt image.clen
              rlen := Word.ofInt (bits.length / 8) } ∧
            t.status.last = last ∧ t.status.mode = decide (image.why ≠ 0) ∧ t.status.rawwhy.toNat = image.why))))

/-- R340: the checks of FRAME_DEC in their order; with arguments that pass them it writes the block of the frame at the read
cursor at DST and the cursor, ROT, NREC, CLEN, RLEN, STATUS.LAST and MODE, not RAWWHY, when the frame decodes; its error
(FrameFieldsAreCheckedInOrder) is the FAULT of its code. -/
def Obligations.FrameDecWritesBlock : Prop :=
  ∀ s : State,
    (7 < s.args.rbit.toNat ∨ s.args.rlim.toNat < s.args.rptr.toNat → s.earlyFault .frameDec 0x02) ∧
    (s.args.rbit.toNat ≤ 7 → s.args.rptr.toNat ≤ s.args.rlim.toNat →
      (¬(s.inDmem s.args.rptr.toNat (s.args.rlim.toNat - s.args.rptr.toNat) ∧
          s.inDmem s.args.dst.toNat s.args.dcap.toNat) → s.earlyFault .frameDec 0x03) ∧
      (s.inDmem s.args.rptr.toNat (s.args.rlim.toNat - s.args.rptr.toNat) →
        s.inDmem s.args.dst.toNat s.args.dcap.toNat →
        (¬apart s.args.rptr.toNat (s.args.rlim.toNat - s.args.rptr.toNat) s.args.dst.toNat s.args.dcap.toNat →
          s.earlyFault .frameDec 0x04) ∧
        (apart s.args.rptr.toNat (s.args.rlim.toNat - s.args.rptr.toNat) s.args.dst.toNat s.args.dcap.toNat →
          match s.frameDecode (8 * s.args.rlim.toNat) (8 * s.args.rptr.toNat + s.args.rbit.toNat) s.args.dcap.toNat with
          | .error e => ∃ t, exec .frameDec s = .next t ∧ s.stoppedAs t true false e.code ∧
              s.sameOutside t s.args.dst.toNat s.args.dcap.toNat
          | .ok (frame, x) => ∃ t, exec .frameDec s = .next t ∧ t.endedAs false false 0 ∧ s.keepsRest t ∧
              t.memRead s.args.dst.toNat x.length = x ∧ s.sameOutside t s.args.dst.toNat x.length ∧
              t.regs = { s.regs with
                rptr := Word.ofInt (frame.pos / 8), rbit := Word.ofInt (frame.pos % 8), rot := Word.ofInt frame.rot } ∧
              t.res = { s.res with
                nrec := Word.ofInt frame.body.nrec, clen := Word.ofInt frame.body.clen, rlen := Word.ofInt x.length } ∧
              t.status.last.toNat = frame.last ∧ t.status.mode = frame.body.mode ∧
              t.status.rawwhy = s.status.rawwhy)))

/-- R342, R325, R110, R113: the checks of a frame in their order. The fields, as they are read: a flag above 1, a mode above
1, an illegal alphabet size, an illegal recoded length; any field past the limit is TRUNCATED, and nothing past it is
guessed; a frame whose fields pass is read at the places of R110. Then the entropy decoder's error, if any (rows 6 to 11:
DecompressChecksInOrder); then the restored block's: BLOCK_LEN, BWT_ROT, DST_OVERFLOW, BWT_CYCLE. -/
def Obligations.FrameFieldsAreCheckedInOrder : Prop :=
  (∀ (s : State) (limit p : Nat),
    let maxRecoded := s.cfg.maxBlock + s.cfg.maxBlock / 4
    let last := s.readField p 8
    let mode := s.readField (p + 8) 8
    (limit < p + 8 → s.parseFrame limit p = .error .truncated) ∧
    (p + 8 ≤ limit → 1 < last → s.parseFrame limit p = .error .lastFlag) ∧
    (p + 8 ≤ limit → last ≤ 1 → limit < p + 16 → s.parseFrame limit p = .error .truncated) ∧
    (p + 16 ≤ limit → last ≤ 1 → 1 < mode → s.parseFrame limit p = .error .modeTag) ∧
    (p + 16 ≤ limit → last ≤ 1 → mode ≤ 1 → limit < p + 48 → s.parseFrame limit p = .error .truncated) ∧
    (p + 48 ≤ limit → last ≤ 1 → mode = 0 →
      let A := s.readField (p + 48) 16
      let nrec := s.readField (p + 64) 32
      let C := s.readField (p + 136 + 16 * A) 32
      (limit < p + 64 → s.parseFrame limit p = .error .truncated) ∧
      (p + 64 ≤ limit → (A = 0 ∨ 256 < A) → s.parseFrame limit p = .error .frameField) ∧
      (p + 64 ≤ limit → 1 ≤ A → A ≤ 256 →
        (limit < p + 96 → s.parseFrame limit p = .error .truncated) ∧
        (p + 96 ≤ limit → (nrec = 0 ∨ maxRecoded < nrec) → s.parseFrame limit p = .error .frameField) ∧
        (p + 96 ≤ limit → 1 ≤ nrec → nrec ≤ maxRecoded →
          (limit < p + 168 + 16 * A → s.parseFrame limit p = .error .truncated) ∧
          (p + 168 + 16 * A ≤ limit → limit < p + 168 + 16 * A + 8 * C → s.parseFrame limit p = .error .truncated) ∧
          (p + 168 + 16 * A + 8 * C ≤ limit → s.parseFrame limit p =
            .ok {
              last := last
              rot := s.readField (p + 16) 32
              body := .entropy A nrec ((List.range A).map (fun q => s.readField (p + 96 + 16 * q) 16))
                (s.readField (p + 96 + 16 * A) 8) (s.readField (p + 104 + 16 * A) 32)
                ((List.range C).map (fun k => BitVec.ofNat 8 (s.readField (p + 168 + 16 * A + 8 * k) 8)))
              pos := p + 168 + 16 * A + 8 * C })))) ∧
    (p + 48 ≤ limit → last ≤ 1 → mode = 1 →
      let nrec := s.readField (p + 48) 32
      (limit < p + 80 → s.parseFrame limit p = .error .truncated) ∧
      (p + 80 ≤ limit → maxRecoded < nrec → s.parseFrame limit p = .error .frameField) ∧
      (p + 80 ≤ limit → nrec ≤ maxRecoded → limit < p + 80 + 8 * nrec → s.parseFrame limit p = .error .truncated) ∧
      (nrec ≤ maxRecoded → p + 80 + 8 * nrec ≤ limit → s.parseFrame limit p =
        .ok {
          last := last
          rot := s.readField (p + 16) 32
          body := .raw ((List.range nrec).map (fun k => BitVec.ofNat 8 (s.readField (p + 80 + 8 * k) 8)))
          pos := p + 80 + 8 * nrec }))) ∧
  ∀ (s : State) (limit p dcap : Nat),
    (∀ e, s.parseFrame limit p = .error e → s.frameDecode limit p dcap = .error e) ∧
    ∀ frame, s.parseFrame limit p = .ok frame →
      (∀ A nrec freq toff final coded, frame.body = .entropy A nrec freq toff final coded → ∀ e,
        decompress coded freq toff final A nrec = .error e → s.frameDecode limit p dcap = .error e) ∧
      ∀ r, (frame.body = .raw r ∨ ∃ A nrec freq toff final coded,
          frame.body = .entropy A nrec freq toff final coded ∧ decompress coded freq toff final A nrec = .ok r) →
        let z := rleDecode r
        (s.cfg.maxBlock < z.length → s.frameDecode limit p dcap = .error .blockLen) ∧
        (z.length ≤ s.cfg.maxBlock → z.length < frame.rot → s.frameDecode limit p dcap = .error .bwtRot) ∧
        (z.length ≤ s.cfg.maxBlock → frame.rot ≤ z.length →
          (dcap < z.length → s.frameDecode limit p dcap = .error .dstOverflow) ∧
          (z.length ≤ dcap → inverse (mtfDecode z) frame.rot = none →
            s.frameDecode limit p dcap = .error .bwtCycle) ∧
          ∀ x, z.length ≤ dcap → inverse (mtfDecode z) frame.rot = some x →
            s.frameDecode limit p dcap = .ok (frame, x))

/-! ### The algorithms -/

/-- R152: `SA` is the one permutation of the positions `0..n` whose suffixes rise strictly, and it is also the sorted order
of the cyclic rotations of the augmented block. -/
def Obligations.SuffixOrderSortsSuffixesAndRotations : Prop :=
  ∀ b : List Byte, let a := b.map BitVec.toNat ++ [256]
    (suffixOrder b).Perm (List.range (b.length + 1)) ∧
    (suffixOrder b).Pairwise (fun i j => a.drop i < a.drop j) ∧
    (suffixOrder b).Pairwise (fun i j => a.rotate i < a.rotate j) ∧
    ∀ sa : List Nat, sa.Perm (List.range (b.length + 1)) → sa.Pairwise (fun i j => a.drop i < a.drop j) →
      sa = suffixOrder b

/-- R156: the rotation index is the row of position 0, at most `n`, and the output is the symbol before each other row's
position, in row order, of length `n`. -/
def Obligations.ForwardOutputIsPrecedingSymbols : Prop :=
  ∀ b : List Byte, let a := b.map BitVec.toNat ++ [256]
    (forward b).2 ≤ b.length ∧ (suffixOrder b).getD (forward b).2 1 = 0 ∧ (forward b).1.length = b.length ∧
    (forward b).1.map BitVec.toNat =
      ((List.range (b.length + 1)).filter (fun r => decide (r ≠ (forward b).2))).map
        (fun r => a.getD ((suffixOrder b).getD r 0 - 1) 0)

/-- R158: the inverse undoes the forward transform on every block, so BWT_CYCLE arises only for a pair no block produces;
the walk, which starts at the row of position 0, visits the rows of positions 1, 2, ..., n in turn. -/
def Obligations.InverseUndoesForward : Prop :=
  ∀ b : List Byte,
    inverse (forward b).1 (forward b).2 = some b ∧
    ∀ k ≤ b.length,
      (fun j => (nextRow (reinserted (forward b).1 (forward b).2)).getD j 0)^[k] (forward b).2 = (suffixOrder b).idxOf k

/-- R155, R153, R154: the rank-doubling reference procedure ends with the suffix order. -/
def Obligations.RankDoublingComputesSuffixOrder : Prop :=
  ∀ b : List Byte, doublingOrder b = suffixOrder b

/-- R185: `decode(encode(x)) = x`, because after each pair of steps the two recency lists are equal. What each step reads
(R180, R181, R183): after a block the list holds the block's distinct bytes, the most recent first, then every other byte
in ascending order; a byte encodes as its position in that list, and a rank decodes as the byte at it. -/
def Obligations.MtfDecodeUndoesEncode : Prop :=
  (∀ x : List Byte, mtfDecode (mtfEncode x) = x) ∧
  (let recency := fun x : List Byte =>
      x.dedup.reverse ++ ((List.range 256).map (BitVec.ofNat 8)).filter (fun v => decide (v ∉ x));
    mtfEncode [] = [] ∧ mtfDecode [] = [] ∧
    (∀ (x : List Byte) (b : Byte), mtfEncode (x ++ [b]) = mtfEncode x ++ [BitVec.ofNat 8 ((recency x).idxOf b)]) ∧
    ∀ (z : List Byte) (r : Byte), mtfDecode (z ++ [r]) = mtfDecode z ++ [(recency (mtfDecode z)).getD r.toNat 0]) ∧
  ∀ (lst : List Byte) (b : Byte), lst.Perm recencyInit →
    let r : Byte := BitVec.ofNat 8 (lst.idxOf b)
    lst.getD r.toNat 0 = b ∧
    moveToFront lst (lst.idxOf b) b = moveToFront lst r.toNat (lst.getD r.toNat 0) ∧
    (moveToFront lst (lst.idxOf b) b).Perm recencyInit

/-- R205: decoding undoes encoding; the encoding is at most a quarter longer; a run of zeros between non-zero bytes or the
block's ends takes `5 q + t` bytes; 1000 zeros take 20. -/
def Obligations.RunLengthProperties : Prop :=
  (∀ x : List Byte, rleDecode (rleEncode x) = x ∧ (rleEncode x).length ≤ x.length + x.length / 4) ∧
  (∀ (pre post : List Byte) (z : Nat), (pre = [] ∨ ∃ u v, pre = u ++ [v] ∧ v ≠ 0) → (post = [] ∨ ∃ v w, post = v :: w ∧ v ≠ 0) →
    ∃ run : List Byte, rleEncode (pre ++ List.replicate z 0 ++ post) = rleEncode pre ++ run ++ rleEncode post ∧
      run.length = 5 * (z / 259) + (if z % 259 < 4 then z % 259 else 5)) ∧
  rleEncode (List.replicate 1000 0) =
    [0, 0, 0, 0, 0xFF, 0, 0, 0, 0, 0xFF, 0, 0, 0, 0, 0xFF, 0, 0, 0, 0, 0xDB]

/-- R227: for a sequence of at least one symbol, each below A, the normalised counts sum to `2^P`, each is at least 1, and
the rounding residual is below A; with `A = 1` the table is [32]. -/
def Obligations.NormalizedTableIsValid : Prop :=
  ∀ (d : List Nat) (A : Nat), d ≠ [] → 1 ≤ A → A ≤ 256 → (∀ v ∈ d, v < A) →
    (normalize d A).length = A ∧ (normalize d A).sum = 2 ^ (bitLength A + 4) ∧ (∀ f ∈ normalize d A, 1 ≤ f) ∧
    (scaleCounts (rawCounts d A) (precision A) d.length).sum ≤ 2 ^ (bitLength A + 4) ∧
    2 ^ (bitLength A + 4) < (scaleCounts (rawCounts d A) (precision A) d.length).sum + A ∧
    (A = 1 → normalize d A = [32])

/-- R230, R232 (a), (b), (c): a successful build of a valid table gives symbol `s` exactly `2 f[s] - 1` states, each at or
above its target, those of rank `f[s]` and more in range, and never assigns the slots 0 and 1. -/
def Obligations.BuildGivesEachSymbolItsStates : Prop :=
  ∀ (f : List Nat) (A : Nat) (t : Tables), validTable f A = true → buildTables f A = some t →
    t.entry 0 = none ∧ t.entry 1 = none ∧
    ∀ s < A, (t.states.getD s []).length = 2 * f.getD s 0 - 1 ∧
      ∀ x, 1 ≤ x → x ≤ 2 * f.getD s 0 - 1 →
        x * 2 ^ (bitLength A + 4) / f.getD s 0 ≤ t.state s x ∧ 2 ≤ t.state s x ∧
        t.state s x ≤ 2 ^ (bitLength A + 5) - 1 ∧ (f.getD s 0 ≤ x → 2 ^ (bitLength A + 4) ≤ t.state s x)

/-- R234: each assigned slot has exactly one owner: `E_s[x] = y` iff `D[y] = (s, x)`. -/
def Obligations.EncodingAndDecodingTablesAgree : Prop :=
  ∀ (f : List Nat) (A : Nat) (t : Tables), buildTables f A = some t →
    ∀ s x y, t.entry y = some (s, x) ↔ s < A ∧ 1 ≤ x ∧ x ≤ (t.states.getD s []).length ∧ t.state s x = y

/-- R232 (e), R267: with one symbol the build always raises TABLE_FULL, so an all-zero sequence is never coded. -/
def Obligations.OneSymbolAlphabetNeverCodes : Prop :=
  buildTables [32] 1 = none ∧ ∀ n : Nat, compress (List.replicate (n + 1) 0) 1 = .error .tableFull

/-- R263: for a table that builds, ENC_UNDERFLOW never arises. -/
def Obligations.EncoderNeverUnderflows : Prop :=
  ∀ (d : List Nat) (A : Nat), 1 ≤ A → A ≤ 256 → (∀ v ∈ d, v < A) → compress d A ≠ .error .encUnderflow

/-- R268, R265: emitted bit `w[i]` is where R268 puts it; `C = ceil(B / 8)`; the trailing bit offset is 0 or `8 C - B`; the
padding bits are 0. -/
def Obligations.PackedBitsAreWhereTheyBelong : Prop :=
  ∀ w : List Bool, let c := (pack w).1; let toff := (pack w).2
    c.length = (w.length + 7) / 8 ∧ toff + w.length = 8 * c.length ∧ toff ≤ 7 ∧
    (∀ i < w.length,
      let o := if i / 8 = c.length - 1 ∧ 0 < toff then toff else 0
      (c.getD (i / 8) 0).getLsbD (i % 8 + o) = w.getD i false ∧ codedBit c toff i = w.getD i false) ∧
    ∀ k < toff, (c.getD (c.length - 1) 0).getLsbD k = false

/-- R277: what `compress` returns, `decompress` turns back, passing every check, because a decoder step undoes an encoder
step: the slot of the state an encoder step reached recovers the symbol and the renormalised value, and its emitted bits,
read backwards, rebuild the state it started from. -/
def Obligations.DecompressUndoesCompress : Prop :=
  (∀ (d : List Nat) (A : Nat) (c : Coded), 1 ≤ A → A ≤ 256 → (∀ v ∈ d, v < A) → compress d A = .ok c →
    decompress c.coded c.freq c.toff c.final A d.length = .ok (d.map (BitVec.ofNat 8))) ∧
  ∀ (f : List Nat) (A : Nat) (t : Tables) (x s : Nat) (w : List Bool) (y : Nat), validTable f A = true →
    buildTables f A = some t → 2 ^ (bitLength A + 4) ≤ x → x < 2 ^ (bitLength A + 5) →
    encodeSymbol f A t x s = .ok (w, y) →
    ∃ rank, t.entry y = some (s, rank) ∧ rank = x / 2 ^ w.length ∧
      ∀ (bit : Nat → Bool) (pos : Nat), (∀ k < w.length, bit (pos + k) = w.getD k false) →
        shiftIn bit (2 ^ (bitLength A + 4)) (pos + w.length) rank = .ok (x, pos)

/-- R272 to R276: the checks of the entropy decoder in their order: the trailing bit offset, the table (R228), its build, the
initial state; then the loop. It answers exactly the symbols of a run that ends in MaxState with no bit left; a run of
OLEN rounds that ends otherwise is TRAILING, one that cannot go on for want of bits is BITS_EXHAUSTED, one that meets a
FREE slot is STATE_RANGE. -/
def Obligations.DecompressChecksInOrder : Prop :=
  ∀ (coded : List Byte) (f : List Nat) (toff x0 A olen : Nat),
    let L := 2 ^ (bitLength A + 4)
    let answer := decompress coded f toff x0 A olen
    let offsetBad := 7 < toff ∨ (0 < toff ∧ coded.length = 0)
    let tableGood := 1 ≤ A ∧ A ≤ 256 ∧ f.length = A ∧ (∀ x ∈ f, 1 ≤ x) ∧ f.sum = L
    (offsetBad → answer = .error .toffInvalid) ∧
    (¬offsetBad → ¬tableGood → answer = .error .freqInvalid) ∧
    (¬offsetBad → tableGood → buildTables f A = none → answer = .error .tableFull) ∧
    (¬offsetBad → tableGood → ∀ t, buildTables f A = some t →
      (¬(L ≤ x0 ∧ x0 ≤ 2 * L - 1 ∧ t.entry x0 ≠ none) → answer = .error .stateRange) ∧
      (L ≤ x0 → x0 ≤ 2 * L - 1 → t.entry x0 ≠ none →
        let bit := codedBit coded toff
        let run := fun n x pos out => decodeRun t bit L n x0 (8 * coded.length - toff) x pos out
        (∀ out, answer = .ok out ↔ ∃ syms, run olen (2 * L - 1) 0 syms ∧ out = syms.map (BitVec.ofNat 8)) ∧
        (answer = .error .trailing ↔ ∃ x pos syms, run olen x pos syms ∧ ¬(x = 2 * L - 1 ∧ pos = 0)) ∧
        (answer = .error .bitsExhausted ↔ ∃ n x pos syms s rank, n < olen ∧ run n x pos syms ∧
          t.entry x = some (s, rank) ∧ shifted bit rank pos pos < L) ∧
        (answer = .error .stateRange ↔ ∃ n x pos syms, n < olen ∧ run n x pos syms ∧ t.entry x = none)))

/-- R323, R110 to R112: the entropy frame is written exactly when it is not forced raw, compression succeeded and its
`21 + 2A + C` bytes are fewer than the raw frame's `10 + nrec`; otherwise the raw frame, and RAWWHY says why. Either frame
holds its fields at the places of R111 or R112. -/
def Obligations.FrameModeIsTheShorter : Prop :=
  ∀ (b : List Byte) (last forceRaw : Bool),
    let r := (recodedBlock b).1
    let rot := (recodedBlock b).2
    let A := denseAlphabet r
    let image := frameBuild b last forceRaw
    let value := bitsAt (fieldBits image.fields)
    (forceRaw = true → image.why = 1) ∧
    (forceRaw = false → ∀ e, compress (symbols r) A = .error e → image.why = 2) ∧
    (forceRaw = false → ∀ c, compress (symbols r) A = .ok c →
      image.why = if 21 + 2 * A + c.coded.length < 10 + r.length then 0 else 3) ∧
    image.rot = rot ∧ image.nrec = r.length ∧
    (image.why = 0 → ∃ c, compress (symbols r) A = .ok c ∧
      (fieldBits image.fields).length = 8 * (21 + 2 * A + c.coded.length) ∧ image.clen = c.coded.length ∧
      (b.length ≤ 2 ^ 31 →
        value 0 8 = last.toNat ∧ value 8 8 = 0 ∧ value 16 32 = rot ∧ value 48 16 = A ∧ value 64 32 = r.length ∧
        (∀ q < A, value (8 * (12 + 2 * q)) 16 = c.freq.getD q 0) ∧ value (8 * (12 + 2 * A)) 8 = c.toff ∧
        value (8 * (13 + 2 * A)) 32 = c.final ∧ value (8 * (17 + 2 * A)) 32 = c.coded.length ∧
        ∀ k < c.coded.length, value (8 * (21 + 2 * A + k)) 8 = (c.coded.getD k 0).toNat)) ∧
    (image.why ≠ 0 → (fieldBits image.fields).length = 8 * (10 + r.length) ∧ image.clen = 0 ∧
      (b.length ≤ 2 ^ 31 →
        value 0 8 = last.toNat ∧ value 8 8 = 1 ∧ value 16 32 = rot ∧ value 48 32 = r.length ∧
        ∀ k < r.length, value (8 * (10 + k)) 8 = (r.getD k 0).toNat))

/-- R302, R300, R301: a field written is read back modulo its width, and no other bit changes. -/
def Obligations.FieldWriteThenRead : Prop :=
  ∀ (s : State) (p v w : Nat),
    (s.writeField p v w).readField p w = v % 2 ^ w ∧
    (∀ k < w, (s.writeField p v w).getBit (p + k) = v.testBit k) ∧
    ∀ q, ¬(p ≤ q ∧ q < p + w) → (s.writeField p v w).getBit q = s.getBit q

/-- R326: for every block of at most MAX_BLOCK bytes, either flag and either mode, the frame of `frame_build`, written at any
bit position, decodes to the block without a fault, with its flag, mode, rotation index and recoded length, and the
parse ends exactly at its end. -/
def Obligations.FrameRoundTrip : Prop :=
  ∀ (s : State) (b : List Byte) (last forceRaw : Bool) (p limit dcap : Nat), s.cfg.wf → b.length ≤ s.cfg.maxBlock →
    b.length ≤ dcap →
    let image := frameBuild b last forceRaw
    p + (fieldBits image.fields).length ≤ limit →
    ∃ frame, (s.writeFields p image.fields).frameDecode limit p dcap = .ok (frame, b) ∧
      frame.last = last.toNat ∧ frame.rot = image.rot ∧ frame.body.mode = decide (image.why ≠ 0) ∧
      frame.body.nrec = image.nrec ∧ frame.body.clen = image.clen ∧
      frame.pos = p + (fieldBits image.fields).length
end

