-- ==== Sys2Proof/Laws/State.lean ====
section
/-! SUPPORT. One equation per field of State per update, so that no proof unfolds a record update; and what the reads of a
state depend on. -/

namespace Sys2Proof.Machine

/-! ### `setByte` -/

@[simp] theorem State.setByte_seq (s : State) (a : Nat) (v : Byte) : (s.setByte a v).seq = s.seq := rfl
@[simp] theorem State.setByte_status (s : State) (a : Nat) (v : Byte) : (s.setByte a v).status = s.status := rfl
@[simp] theorem State.setByte_ie (s : State) (a : Nat) (v : Byte) : (s.setByte a v).ie = s.ie := rfl
@[simp] theorem State.setByte_regs (s : State) (a : Nat) (v : Byte) : (s.setByte a v).regs = s.regs := rfl
@[simp] theorem State.setByte_res (s : State) (a : Nat) (v : Byte) : (s.setByte a v).res = s.res := rfl
@[simp] theorem State.setByte_mem (s : State) (a : Nat) (v : Byte) : (s.setByte a v).mem = s.mem.set a v := rfl
@[simp] theorem State.setByte_cfg (s : State) (a : Nat) (v : Byte) : (s.setByte a v).cfg = s.cfg := rfl
@[simp] theorem State.setByte_turns (s : State) (a : Nat) (v : Byte) : (s.setByte a v).turns = s.turns := rfl
@[simp] theorem State.setByte_readData (s : State) (a : Nat) (v : Byte) : (s.setByte a v).readData = s.readData := rfl
@[simp] theorem State.setByte_draws (s : State) (a : Nat) (v : Byte) : (s.setByte a v).draws = s.draws := rfl
@[simp] theorem State.setByte_epoch (s : State) (a : Nat) (v : Byte) : (s.setByte a v).epoch = s.epoch := rfl

/-! ### `setRegs` -/

@[simp] theorem State.setRegs_seq (s : State) (r : ArgRegs) : (s.setRegs r).seq = s.seq := rfl
@[simp] theorem State.setRegs_status (s : State) (r : ArgRegs) : (s.setRegs r).status = s.status := rfl
@[simp] theorem State.setRegs_ie (s : State) (r : ArgRegs) : (s.setRegs r).ie = s.ie := rfl
@[simp] theorem State.setRegs_regs (s : State) (r : ArgRegs) : (s.setRegs r).regs = r := rfl
@[simp] theorem State.setRegs_res (s : State) (r : ArgRegs) : (s.setRegs r).res = s.res := rfl
@[simp] theorem State.setRegs_mem (s : State) (r : ArgRegs) : (s.setRegs r).mem = s.mem := rfl
@[simp] theorem State.setRegs_cfg (s : State) (r : ArgRegs) : (s.setRegs r).cfg = s.cfg := rfl
@[simp] theorem State.setRegs_turns (s : State) (r : ArgRegs) : (s.setRegs r).turns = s.turns := rfl
@[simp] theorem State.setRegs_readData (s : State) (r : ArgRegs) : (s.setRegs r).readData = s.readData := rfl
@[simp] theorem State.setRegs_draws (s : State) (r : ArgRegs) : (s.setRegs r).draws = s.draws := rfl
@[simp] theorem State.setRegs_epoch (s : State) (r : ArgRegs) : (s.setRegs r).epoch = s.epoch := rfl

/-! ### `setRes` -/

@[simp] theorem State.setRes_seq (s : State) (r : ResRegs) : (s.setRes r).seq = s.seq := rfl
@[simp] theorem State.setRes_status (s : State) (r : ResRegs) : (s.setRes r).status = s.status := rfl
@[simp] theorem State.setRes_ie (s : State) (r : ResRegs) : (s.setRes r).ie = s.ie := rfl
@[simp] theorem State.setRes_regs (s : State) (r : ResRegs) : (s.setRes r).regs = s.regs := rfl
@[simp] theorem State.setRes_res (s : State) (r : ResRegs) : (s.setRes r).res = r := rfl
@[simp] theorem State.setRes_mem (s : State) (r : ResRegs) : (s.setRes r).mem = s.mem := rfl
@[simp] theorem State.setRes_cfg (s : State) (r : ResRegs) : (s.setRes r).cfg = s.cfg := rfl
@[simp] theorem State.setRes_turns (s : State) (r : ResRegs) : (s.setRes r).turns = s.turns := rfl
@[simp] theorem State.setRes_readData (s : State) (r : ResRegs) : (s.setRes r).readData = s.readData := rfl
@[simp] theorem State.setRes_draws (s : State) (r : ResRegs) : (s.setRes r).draws = s.draws := rfl
@[simp] theorem State.setRes_epoch (s : State) (r : ResRegs) : (s.setRes r).epoch = s.epoch := rfl

/-! ### `setFrame` -/

@[simp] theorem State.setFrame_seq (s : State) (last mode : Bool) : (s.setFrame last mode).seq = s.seq := rfl
@[simp] theorem State.setFrame_status (s : State) (last mode : Bool) :
    (s.setFrame last mode).status = { s.status with last := last, mode := mode } := rfl
@[simp] theorem State.setFrame_ie (s : State) (last mode : Bool) : (s.setFrame last mode).ie = s.ie := rfl
@[simp] theorem State.setFrame_regs (s : State) (last mode : Bool) : (s.setFrame last mode).regs = s.regs := rfl
@[simp] theorem State.setFrame_res (s : State) (last mode : Bool) : (s.setFrame last mode).res = s.res := rfl
@[simp] theorem State.setFrame_mem (s : State) (last mode : Bool) : (s.setFrame last mode).mem = s.mem := rfl
@[simp] theorem State.setFrame_cfg (s : State) (last mode : Bool) : (s.setFrame last mode).cfg = s.cfg := rfl
@[simp] theorem State.setFrame_turns (s : State) (last mode : Bool) : (s.setFrame last mode).turns = s.turns := rfl
@[simp] theorem State.setFrame_readData (s : State) (last mode : Bool) :
    (s.setFrame last mode).readData = s.readData := rfl
@[simp] theorem State.setFrame_draws (s : State) (last mode : Bool) : (s.setFrame last mode).draws = s.draws := rfl
@[simp] theorem State.setFrame_epoch (s : State) (last mode : Bool) : (s.setFrame last mode).epoch = s.epoch := rfl

/-! ### `setRawwhy` -/

@[simp] theorem State.setRawwhy_seq (s : State) (why : Nat) : (s.setRawwhy why).seq = s.seq := rfl
@[simp] theorem State.setRawwhy_status (s : State) (why : Nat) :
    (s.setRawwhy why).status = { s.status with rawwhy := BitVec.ofNat 2 why } := rfl
@[simp] theorem State.setRawwhy_ie (s : State) (why : Nat) : (s.setRawwhy why).ie = s.ie := rfl
@[simp] theorem State.setRawwhy_regs (s : State) (why : Nat) : (s.setRawwhy why).regs = s.regs := rfl
@[simp] theorem State.setRawwhy_res (s : State) (why : Nat) : (s.setRawwhy why).res = s.res := rfl
@[simp] theorem State.setRawwhy_mem (s : State) (why : Nat) : (s.setRawwhy why).mem = s.mem := rfl
@[simp] theorem State.setRawwhy_cfg (s : State) (why : Nat) : (s.setRawwhy why).cfg = s.cfg := rfl
@[simp] theorem State.setRawwhy_turns (s : State) (why : Nat) : (s.setRawwhy why).turns = s.turns := rfl
@[simp] theorem State.setRawwhy_readData (s : State) (why : Nat) : (s.setRawwhy why).readData = s.readData := rfl
@[simp] theorem State.setRawwhy_draws (s : State) (why : Nat) : (s.setRawwhy why).draws = s.draws := rfl
@[simp] theorem State.setRawwhy_epoch (s : State) (why : Nat) : (s.setRawwhy why).epoch = s.epoch := rfl

/-! ### `endCommand` -/

@[simp] theorem State.endCommand_seq (s : State) (fault fail : Bool) (code : Byte) :
    (s.endCommand fault fail code).seq = .idle := rfl
@[simp] theorem State.endCommand_status (s : State) (fault fail : Bool) (code : Byte) :
    (s.endCommand fault fail code).status =
      { s.status with done := true, fault := fault, fail := fail, errcode := code } := rfl
@[simp] theorem State.endCommand_ie (s : State) (fault fail : Bool) (code : Byte) :
    (s.endCommand fault fail code).ie = s.ie := rfl
@[simp] theorem State.endCommand_regs (s : State) (fault fail : Bool) (code : Byte) :
    (s.endCommand fault fail code).regs = s.regs := rfl
@[simp] theorem State.endCommand_res (s : State) (fault fail : Bool) (code : Byte) :
    (s.endCommand fault fail code).res = s.res := rfl
@[simp] theorem State.endCommand_mem (s : State) (fault fail : Bool) (code : Byte) :
    (s.endCommand fault fail code).mem = s.mem := rfl
@[simp] theorem State.endCommand_cfg (s : State) (fault fail : Bool) (code : Byte) :
    (s.endCommand fault fail code).cfg = s.cfg := rfl
@[simp] theorem State.endCommand_turns (s : State) (fault fail : Bool) (code : Byte) :
    (s.endCommand fault fail code).turns = s.turns := rfl
@[simp] theorem State.endCommand_readData (s : State) (fault fail : Bool) (code : Byte) :
    (s.endCommand fault fail code).readData = s.readData := rfl
@[simp] theorem State.endCommand_draws (s : State) (fault fail : Bool) (code : Byte) :
    (s.endCommand fault fail code).draws = s.draws := rfl
@[simp] theorem State.endCommand_epoch (s : State) (fault fail : Bool) (code : Byte) :
    (s.endCommand fault fail code).epoch = s.epoch := rfl

/-! ### `complete` -/

@[simp] theorem State.complete_seq (s : State) : (s.complete).seq = .idle := rfl
@[simp] theorem State.complete_status (s : State) :
    (s.complete).status = { s.status with done := true, fault := false, fail := false, errcode := 0 } := rfl
@[simp] theorem State.complete_ie (s : State) : (s.complete).ie = s.ie := rfl
@[simp] theorem State.complete_regs (s : State) : (s.complete).regs = s.regs := rfl
@[simp] theorem State.complete_res (s : State) : (s.complete).res = s.res := rfl
@[simp] theorem State.complete_mem (s : State) : (s.complete).mem = s.mem := rfl
@[simp] theorem State.complete_cfg (s : State) : (s.complete).cfg = s.cfg := rfl
@[simp] theorem State.complete_turns (s : State) : (s.complete).turns = s.turns := rfl
@[simp] theorem State.complete_readData (s : State) : (s.complete).readData = s.readData := rfl
@[simp] theorem State.complete_draws (s : State) : (s.complete).draws = s.draws := rfl
@[simp] theorem State.complete_epoch (s : State) : (s.complete).epoch = s.epoch := rfl

/-! ### `accept` -/

@[simp] theorem State.accept_seq (s : State) (w : Word) : (s.accept w).seq = .run w s.regs := rfl
@[simp] theorem State.accept_status (s : State) (w : Word) :
    (s.accept w).status =
      { s.status with done := false, fault := false, fail := false, errcode := 0, lastop := BitVec.ofNat 8 (opField w) } := rfl
@[simp] theorem State.accept_ie (s : State) (w : Word) : (s.accept w).ie = s.ie := rfl
@[simp] theorem State.accept_regs (s : State) (w : Word) : (s.accept w).regs = s.regs := rfl
@[simp] theorem State.accept_res (s : State) (w : Word) : (s.accept w).res = s.res := rfl
@[simp] theorem State.accept_mem (s : State) (w : Word) : (s.accept w).mem = s.mem := rfl
@[simp] theorem State.accept_cfg (s : State) (w : Word) : (s.accept w).cfg = s.cfg := rfl
@[simp] theorem State.accept_turns (s : State) (w : Word) : (s.accept w).turns = s.turns := rfl
@[simp] theorem State.accept_readData (s : State) (w : Word) : (s.accept w).readData = s.readData := rfl
@[simp] theorem State.accept_draws (s : State) (w : Word) : (s.accept w).draws = s.draws := rfl
@[simp] theorem State.accept_epoch (s : State) (w : Word) : (s.accept w).epoch = s.epoch := rfl

/-! ### `setOverrun` -/

@[simp] theorem State.setOverrun_seq (s : State) : (s.setOverrun).seq = s.seq := rfl
@[simp] theorem State.setOverrun_status (s : State) : (s.setOverrun).status = { s.status with overrun := true } := rfl
@[simp] theorem State.setOverrun_ie (s : State) : (s.setOverrun).ie = s.ie := rfl
@[simp] theorem State.setOverrun_regs (s : State) : (s.setOverrun).regs = s.regs := rfl
@[simp] theorem State.setOverrun_res (s : State) : (s.setOverrun).res = s.res := rfl
@[simp] theorem State.setOverrun_mem (s : State) : (s.setOverrun).mem = s.mem := rfl
@[simp] theorem State.setOverrun_cfg (s : State) : (s.setOverrun).cfg = s.cfg := rfl
@[simp] theorem State.setOverrun_turns (s : State) : (s.setOverrun).turns = s.turns := rfl
@[simp] theorem State.setOverrun_readData (s : State) : (s.setOverrun).readData = s.readData := rfl
@[simp] theorem State.setOverrun_draws (s : State) : (s.setOverrun).draws = s.draws := rfl
@[simp] theorem State.setOverrun_epoch (s : State) : (s.setOverrun).epoch = s.epoch := rfl

/-! ### `ackStatus` -/

@[simp] theorem State.ackStatus_seq (s : State) (v : Word) : (s.ackStatus v).seq = s.seq := rfl
@[simp] theorem State.ackStatus_status (s : State) (v : Word) :
    (s.ackStatus v).status =
      { s.status with done := s.status.done && !v.getLsbD 1, overrun := s.status.overrun && !v.getLsbD 6 } := rfl
@[simp] theorem State.ackStatus_ie (s : State) (v : Word) : (s.ackStatus v).ie = s.ie := rfl
@[simp] theorem State.ackStatus_regs (s : State) (v : Word) : (s.ackStatus v).regs = s.regs := rfl
@[simp] theorem State.ackStatus_res (s : State) (v : Word) : (s.ackStatus v).res = s.res := rfl
@[simp] theorem State.ackStatus_mem (s : State) (v : Word) : (s.ackStatus v).mem = s.mem := rfl
@[simp] theorem State.ackStatus_cfg (s : State) (v : Word) : (s.ackStatus v).cfg = s.cfg := rfl
@[simp] theorem State.ackStatus_turns (s : State) (v : Word) : (s.ackStatus v).turns = s.turns := rfl
@[simp] theorem State.ackStatus_readData (s : State) (v : Word) : (s.ackStatus v).readData = s.readData := rfl
@[simp] theorem State.ackStatus_draws (s : State) (v : Word) : (s.ackStatus v).draws = s.draws := rfl
@[simp] theorem State.ackStatus_epoch (s : State) (v : Word) : (s.ackStatus v).epoch = s.epoch := rfl

/-! ### `resetRegisters` -/

@[simp] theorem State.resetRegisters_seq (s : State) : (s.resetRegisters).seq = .idle := rfl
@[simp] theorem State.resetRegisters_status (s : State) : (s.resetRegisters).status = Status.reset := rfl
@[simp] theorem State.resetRegisters_ie (s : State) : (s.resetRegisters).ie = false := rfl
@[simp] theorem State.resetRegisters_regs (s : State) : (s.resetRegisters).regs = ArgRegs.reset := rfl
@[simp] theorem State.resetRegisters_res (s : State) : (s.resetRegisters).res = ResRegs.reset := rfl
@[simp] theorem State.resetRegisters_mem (s : State) : (s.resetRegisters).mem = s.mem := rfl
@[simp] theorem State.resetRegisters_cfg (s : State) : (s.resetRegisters).cfg = s.cfg := rfl
@[simp] theorem State.resetRegisters_turns (s : State) : (s.resetRegisters).turns = s.turns := rfl
@[simp] theorem State.resetRegisters_readData (s : State) : (s.resetRegisters).readData = s.readData := rfl
@[simp] theorem State.resetRegisters_draws (s : State) : (s.resetRegisters).draws = s.draws := rfl
@[simp] theorem State.resetRegisters_epoch (s : State) : (s.resetRegisters).epoch = s.epoch := rfl

/-! ### `powerCycle` -/

@[simp] theorem State.powerCycle_seq (s : State) : (s.powerCycle).seq = .idle := rfl
@[simp] theorem State.powerCycle_status (s : State) : (s.powerCycle).status = Status.reset := rfl
@[simp] theorem State.powerCycle_ie (s : State) : (s.powerCycle).ie = false := rfl
@[simp] theorem State.powerCycle_regs (s : State) : (s.powerCycle).regs = ArgRegs.reset := rfl
@[simp] theorem State.powerCycle_res (s : State) : (s.powerCycle).res = ResRegs.reset := rfl
@[simp] theorem State.powerCycle_mem (s : State) : (s.powerCycle).mem = [] := rfl
@[simp] theorem State.powerCycle_cfg (s : State) : (s.powerCycle).cfg = s.resetEngine.cfg := rfl
@[simp] theorem State.powerCycle_turns (s : State) : (s.powerCycle).turns = s.resetEngine.turns := rfl
@[simp] theorem State.powerCycle_readData (s : State) : (s.powerCycle).readData = s.resetEngine.readData := rfl
@[simp] theorem State.powerCycle_draws (s : State) : (s.powerCycle).draws = s.resetEngine.draws := rfl
@[simp] theorem State.powerCycle_epoch (s : State) : (s.powerCycle).epoch = s.epoch + 1 := rfl

/-! ### `resetEngine` -/

@[simp] theorem State.resetEngine_seq (s : State) : (s.resetEngine).seq = .idle := rfl
@[simp] theorem State.resetEngine_status (s : State) : (s.resetEngine).status = Status.reset := rfl
@[simp] theorem State.resetEngine_ie (s : State) : (s.resetEngine).ie = false := rfl
@[simp] theorem State.resetEngine_regs (s : State) : (s.resetEngine).regs = ArgRegs.reset := rfl
@[simp] theorem State.resetEngine_res (s : State) : (s.resetEngine).res = ResRegs.reset := rfl
@[simp] theorem State.resetEngine_mem (s : State) : (s.resetEngine).mem = s.abandon.mem := rfl
@[simp] theorem State.resetEngine_cfg (s : State) : (s.resetEngine).cfg = s.abandon.cfg := rfl
@[simp] theorem State.resetEngine_turns (s : State) : (s.resetEngine).turns = s.abandon.turns := rfl
@[simp] theorem State.resetEngine_readData (s : State) : (s.resetEngine).readData = s.abandon.readData := rfl
@[simp] theorem State.resetEngine_draws (s : State) : (s.resetEngine).draws = s.abandon.draws := rfl
@[simp] theorem State.resetEngine_epoch (s : State) : (s.resetEngine).epoch = s.abandon.epoch := rfl

/-! ### The latched arguments and DMEM reads after an update that touches neither -/

@[simp] theorem State.setByte_args (s : State) (a : Nat) (v : Byte) : (s.setByte a v).args = s.args := rfl
@[simp] theorem State.setRegs_byteAt (s : State) (r : ArgRegs) (x : Nat) : (s.setRegs r).byteAt x = s.byteAt x := rfl
@[simp] theorem State.setRegs_getBit (s : State) (r : ArgRegs) (p : Nat) : (s.setRegs r).getBit p = s.getBit p := rfl
@[simp] theorem State.setRes_byteAt (s : State) (r : ResRegs) (x : Nat) : (s.setRes r).byteAt x = s.byteAt x := rfl
@[simp] theorem State.setRes_getBit (s : State) (r : ResRegs) (p : Nat) : (s.setRes r).getBit p = s.getBit p := rfl
@[simp] theorem State.setRes_args (s : State) (r : ResRegs) : (s.setRes r).args = s.args := rfl
@[simp] theorem State.setFrame_byteAt (s : State) (last mode : Bool) (x : Nat) : (s.setFrame last mode).byteAt x = s.byteAt x := rfl
@[simp] theorem State.setFrame_getBit (s : State) (last mode : Bool) (p : Nat) : (s.setFrame last mode).getBit p = s.getBit p := rfl
@[simp] theorem State.setFrame_args (s : State) (last mode : Bool) : (s.setFrame last mode).args = s.args := rfl
@[simp] theorem State.setRawwhy_byteAt (s : State) (why : Nat) (x : Nat) : (s.setRawwhy why).byteAt x = s.byteAt x := rfl
@[simp] theorem State.setRawwhy_getBit (s : State) (why : Nat) (p : Nat) : (s.setRawwhy why).getBit p = s.getBit p := rfl
@[simp] theorem State.setRawwhy_args (s : State) (why : Nat) : (s.setRawwhy why).args = s.args := rfl
@[simp] theorem State.endCommand_byteAt (s : State) (fault fail : Bool) (code : Byte) (x : Nat) : (s.endCommand fault fail code).byteAt x = s.byteAt x := rfl
@[simp] theorem State.endCommand_getBit (s : State) (fault fail : Bool) (code : Byte) (p : Nat) : (s.endCommand fault fail code).getBit p = s.getBit p := rfl
@[simp] theorem State.complete_byteAt (s : State) (x : Nat) : (s.complete).byteAt x = s.byteAt x := rfl
@[simp] theorem State.complete_getBit (s : State) (p : Nat) : (s.complete).getBit p = s.getBit p := rfl
@[simp] theorem State.accept_byteAt (s : State) (w : Word) (x : Nat) : (s.accept w).byteAt x = s.byteAt x := rfl
@[simp] theorem State.accept_getBit (s : State) (w : Word) (p : Nat) : (s.accept w).getBit p = s.getBit p := rfl
@[simp] theorem State.setOverrun_byteAt (s : State) (x : Nat) : (s.setOverrun).byteAt x = s.byteAt x := rfl
@[simp] theorem State.setOverrun_getBit (s : State) (p : Nat) : (s.setOverrun).getBit p = s.getBit p := rfl
@[simp] theorem State.setOverrun_args (s : State) : (s.setOverrun).args = s.args := rfl
@[simp] theorem State.ackStatus_byteAt (s : State) (v : Word) (x : Nat) : (s.ackStatus v).byteAt x = s.byteAt x := rfl
@[simp] theorem State.ackStatus_getBit (s : State) (v : Word) (p : Nat) : (s.ackStatus v).getBit p = s.getBit p := rfl
@[simp] theorem State.ackStatus_args (s : State) (v : Word) : (s.ackStatus v).args = s.args := rfl
@[simp] theorem State.resetRegisters_byteAt (s : State) (x : Nat) : (s.resetRegisters).byteAt x = s.byteAt x := rfl
@[simp] theorem State.resetRegisters_getBit (s : State) (p : Nat) : (s.resetRegisters).getBit p = s.getBit p := rfl

/-- A running command reads the values acceptance latched (40_command_lifecycle.md R131). -/
@[simp] theorem State.accept_args (s : State) (w : Word) : (s.accept w).args = s.regs := rfl

theorem State.args_idle {s : State} (h : s.seq = .idle) : s.args = s.regs := by simp [State.args, h]

theorem State.args_run {s : State} {w : Word} {a : ArgRegs} (h : s.seq = .run w a) : s.args = a := by
  simp [State.args, h]

theorem State.busy_iff (s : State) : s.busy = true ↔ ∃ w a, s.seq = .run w a := by
  unfold State.busy; split <;> simp_all

theorem State.busy_eq_false (s : State) : s.busy = false ↔ s.seq = .idle := by
  unfold State.busy; split <;> simp_all

theorem State.running_idle {s : State} (h : s.seq = .idle) : s.running = none := by simp [State.running, h]

theorem State.running_run {s : State} {w : Word} {a : ArgRegs} {i : Instr} (h : s.seq = .run w a)
    (hd : decodeWord w = .ok i) : s.running = some i := by simp [State.running, h, hd]

theorem State.running_illegal {s : State} {w : Word} {a : ArgRegs} {e : Reject} (h : s.seq = .run w a)
    (hd : decodeWord w = .error e) : s.running = none := by simp [State.running, h, hd]

end Sys2Proof.Machine
end

