-- ==== Sys2Proof/Laws/Memory.lean ====
section
/-! SUPPORT. The laws of DMEM: read after write, and the canonical form, for one byte, for byte sequences, for bits and
bit fields, and for bits left unspecified. -/

namespace Sys2Proof.Machine

/-! ### The list of written bytes -/

theorem Memory.get?_set_self (m : Memory) (a : Nat) (v : Byte) : (m.set a v).get? a = some v := by
  induction m with
  | nil => simp [Memory.set, Memory.get?]
  | cons c m ih =>
    obtain ⟨b, w⟩ := c
    by_cases h : a < b
    · simp [Memory.set, Memory.get?, h]
    · by_cases h' : a = b <;> simp [Memory.set, Memory.get?, h, h', ih]

theorem Memory.get?_set_of_ne (m : Memory) {a x : Nat} (v : Byte) (hx : x ≠ a) : (m.set a v).get? x = m.get? x := by
  induction m with
  | nil => simp [Memory.set, Memory.get?, hx]
  | cons c m ih =>
    obtain ⟨b, w⟩ := c
    by_cases h : a < b
    · simp [Memory.set, Memory.get?, h, hx]
    · by_cases h' : a = b
      · subst h'; simp [Memory.set, Memory.get?, hx]
      · by_cases hb : x = b <;> simp [Memory.set, Memory.get?, h, h', hb, ih]

theorem Memory.mem_set {m : Memory} {a : Nat} {v : Byte} {c : Host.Cell} (h : c ∈ m.set a v) : c = (a, v) ∨ c ∈ m := by
  induction m with
  | nil => simpa [Memory.set] using h
  | cons d m ih =>
    obtain ⟨b, w⟩ := d
    simp only [Memory.set] at h
    split at h
    · simpa using h
    · split at h
      · rcases List.mem_cons.1 h with h | h
        · exact .inl h
        · exact .inr (List.mem_cons_of_mem _ h)
      · rcases List.mem_cons.1 h with h | h
        · exact .inr (h ▸ List.mem_cons_self)
        · exact (ih h).imp id (List.mem_cons_of_mem _)

/-- A write keeps the canonical form. -/
theorem Memory.set_wf {m : Memory} (h : m.wf) (a : Nat) (v : Byte) : (m.set a v).wf := by
  induction m with
  | nil => simp [Memory.set, Memory.wf]
  | cons d m ih =>
    obtain ⟨b, w⟩ := d
    obtain ⟨hb, hm⟩ := List.pairwise_cons.1 h
    simp only [Memory.set]
    split
    · rename_i hlt
      refine List.pairwise_cons.2 ⟨fun c hc => ?_, h⟩
      rcases List.mem_cons.1 hc with rfl | hc
      · exact hlt
      · exact Nat.lt_trans hlt (hb c hc)
    · split
      · rename_i _ heq
        subst heq
        exact List.pairwise_cons.2 ⟨hb, hm⟩
      · rename_i hlt heq
        refine List.pairwise_cons.2 ⟨fun c hc => ?_, ih hm⟩
        rcases Memory.mem_set hc with rfl | hc
        · show b < a
          omega
        · exact hb c hc

/-- Equal reads of canonical memories are equal memories: the form is canonical. -/
theorem Memory.ext_of_get? {m n : Memory} (hm : m.wf) (hn : n.wf) (h : ∀ a, m.get? a = n.get? a) : m = n := by
  have get?_none : ∀ {l : Memory} {a : Nat}, (∀ c ∈ l, a < c.1) → l.get? a = none := by
    intro l a hl
    induction l with
    | nil => rfl
    | cons d l ih =>
      obtain ⟨b, w⟩ := d
      have hb : a < b := hl (b, w) (by simp)
      simp only [Memory.get?, Nat.ne_of_lt hb, if_false]
      exact ih fun c hc => hl c (List.mem_cons_of_mem _ hc)
  induction m generalizing n with
  | nil =>
    cases n with
    | nil => rfl
    | cons d n => have := h d.1; simp [Memory.get?] at this
  | cons c m ih =>
    obtain ⟨a, v⟩ := c
    obtain ⟨ha, hm'⟩ := List.pairwise_cons.1 hm
    cases n with
    | nil => have := h a; simp [Memory.get?] at this
    | cons d n =>
      obtain ⟨b, w⟩ := d
      obtain ⟨hb, hn'⟩ := List.pairwise_cons.1 hn
      have hab : a = b := by
        rcases Nat.lt_trichotomy a b with hlt | heq | hlt
        · have h1 := h a
          rw [get?_none (l := (b, w) :: n)] at h1
          · simp [Memory.get?] at h1
          · intro c hc
            rcases List.mem_cons.1 hc with rfl | hc
            · exact hlt
            · exact Nat.lt_trans hlt (hb c hc)
        · exact heq
        · have h1 := h b
          rw [get?_none (l := (a, v) :: m)] at h1
          · simp [Memory.get?] at h1
          · intro c hc
            rcases List.mem_cons.1 hc with rfl | hc
            · exact hlt
            · exact Nat.lt_trans hlt (ha c hc)
      subst hab
      have hvw : v = w := by have h1 := h a; simpa [Memory.get?] using h1
      subst hvw
      congr 1
      refine ih hm' hn' fun x => ?_
      have h1 := h x
      by_cases hx : x = a
      · subst hx; rw [get?_none ha, get?_none hb]
      · simpa [Memory.get?, hx] using h1

/-! ### One byte -/

theorem State.byteAt_setByte (s : State) (a x : Nat) (v : Byte) :
    (s.setByte a v).byteAt x = if x = a then v else s.byteAt x := by
  unfold State.byteAt State.setByte
  by_cases h : x = a
  · subst h; simp [Memory.get?_set_self]
  · simp [Memory.get?_set_of_ne _ _ h, h]

/-- A byte write inside DMEM keeps the memory invariant (20_memory.md R70). -/
theorem State.memInv_setByte {s : State} (h : s.memInv) {a : Nat} (ha : a < s.cfg.dmemSize) (v : Byte) :
    (s.setByte a v).memInv := by
  refine ⟨Memory.set_wf h.1 a v, fun c hc => ?_⟩
  rcases Memory.mem_set hc with rfl | hc
  · exact ha
  · exact h.2 c hc

/-- Two states with the same written bytes and power-on read the same. -/
theorem State.byteAt_congr {s t : State} (hm : t.mem = s.mem) (he : t.epoch = s.epoch) (a : Nat) :
    t.byteAt a = s.byteAt a := by simp [State.byteAt, hm, he]

theorem State.getBit_congr {s t : State} (hm : t.mem = s.mem) (he : t.epoch = s.epoch) (p : Nat) :
    t.getBit p = s.getBit p := by simp [State.getBit, State.byteAt_congr hm he]

theorem State.memRead_congr {s t : State} {a n : Nat} (h : ∀ i < n, t.byteAt (a + i) = s.byteAt (a + i)) :
    t.memRead a n = s.memRead a n := by
  unfold State.memRead
  exact List.map_congr_left fun i hi => h i (List.mem_range.1 hi)

@[simp] theorem State.memRead_length (s : State) (a n : Nat) : (s.memRead a n).length = n := by simp [State.memRead]

@[simp] theorem State.readTable_length (s : State) (a n : Nat) : (s.readTable a n).length = n := by
  simp [State.readTable]

theorem State.memRead_getD (s : State) (a n i : Nat) (h : i < n) : (s.memRead a n).getD i 0 = s.byteAt (a + i) := by
  simp [State.memRead, List.getD, h]

/-! ### Byte sequences -/

/-- A byte sequence written changes `mem` only. -/
theorem State.memWrite_eq (s : State) (a : Nat) (bs : List Byte) :
    s.memWrite a bs = { s with mem := (s.memWrite a bs).mem } := by
  induction bs generalizing s a with
  | nil => rfl
  | cons b bs ih => rw [State.memWrite, ih]; rfl

theorem State.byteAt_memWrite (s : State) (a : Nat) (bs : List Byte) (x : Nat) :
    (s.memWrite a bs).byteAt x = if a ≤ x ∧ x < a + bs.length then bs.getD (x - a) 0 else s.byteAt x := by
  induction bs generalizing s a with
  | nil => have : ¬(a ≤ x ∧ x < a) := by omega
           simp [State.memWrite, this]
  | cons b bs ih =>
    rw [State.memWrite, ih, State.byteAt_setByte]
    rcases Nat.lt_trichotomy x a with h | h | h
    · simp [show ¬ a + 1 ≤ x by omega, show ¬ a ≤ x by omega, show x ≠ a by omega]
    · subst h; simp
    · by_cases h' : x < a + 1 + bs.length
      · have hx : x - a = x - (a + 1) + 1 := by omega
        simp [show a + 1 ≤ x by omega, h', show a ≤ x by omega, show x < a + (bs.length + 1) by omega, hx]
      · simp [h', show ¬ x < a + (bs.length + 1) by omega, show x ≠ a by omega]

/-- Read after write: the bytes written (20_memory.md R78). -/
theorem State.memRead_memWrite (s : State) (a : Nat) (bs : List Byte) : (s.memWrite a bs).memRead a bs.length = bs := by
  refine List.ext_getElem (by simp) fun i h1 h2 => ?_
  simp [State.memRead, State.byteAt_memWrite, h2]

/-- Every byte outside the bytes written reads as before. -/
theorem State.sameOutside_memWrite (s : State) (a : Nat) (bs : List Byte) :
    s.sameOutside (s.memWrite a bs) a bs.length := by
  intro x hx
  rw [State.byteAt_memWrite, if_neg hx]

theorem State.memInv_memWrite {s : State} (h : s.memInv) {a : Nat} {bs : List Byte}
    (ha : bs = [] ∨ a + bs.length ≤ s.cfg.dmemSize) : (s.memWrite a bs).memInv := by
  induction bs generalizing s a with
  | nil => exact h
  | cons b bs ih =>
    have ha' : a + (bs.length + 1) ≤ s.cfg.dmemSize := by simpa using ha
    refine ih (State.memInv_setByte h (by omega) b) ?_
    right
    show a + 1 + bs.length ≤ s.cfg.dmemSize
    omega

/-! ### Bits -/

theorem Byte.getLsbD_putBit (b : Byte) (i j : Nat) (v : Bool) (hj : j < 8) :
    (Byte.putBit b i v).getLsbD j = if j = i then v else b.getLsbD j := by
  have h : (BitVec.ofNat 8 (2 ^ i)).getLsbD j = decide (j = i) := by
    rw [BitVec.getLsbD_ofNat, Nat.testBit_two_pow]
    simp [hj, eq_comm]
  unfold Byte.putBit
  cases v <;>
    simp only [if_true, if_false, Bool.false_eq_true, BitVec.getLsbD_or, BitVec.getLsbD_and, BitVec.getLsbD_not, h, hj] <;>
    by_cases hji : j = i <;> simp [hji]

theorem State.getBit_putBit (s : State) (p q : Nat) (v : Bool) :
    (s.putBit p v).getBit q = if q = p then v else s.getBit q := by
  unfold State.getBit State.putBit
  rw [State.byteAt_setByte]
  by_cases h : q / 8 = p / 8
  · rw [if_pos h, Byte.getLsbD_putBit _ _ _ _ (Nat.mod_lt _ (by omega)), ← h]
    have : q % 8 = p % 8 ↔ q = p := by omega
    simp [this]
  · have : q ≠ p := fun e => h (e ▸ rfl)
    simp [h, this]

/-- A bit written changes `mem` only. -/
theorem State.putBit_eq (s : State) (p : Nat) (v : Bool) : s.putBit p v = { s with mem := (s.putBit p v).mem } := rfl

theorem State.memInv_putBit {s : State} (h : s.memInv) {p : Nat} (hp : p < 8 * s.cfg.dmemSize) (v : Bool) :
    (s.putBit p v).memInv := State.memInv_setByte h (by omega) _

/-- A field written changes `mem` only. -/
theorem State.writeField_eq (s : State) (p v w : Nat) : s.writeField p v w = { s with mem := (s.writeField p v w).mem } := by
  induction w generalizing s p v with
  | zero => rfl
  | succ w ih => rw [State.writeField, ih]; rfl

theorem State.memInv_writeField {s : State} (h : s.memInv) {p v w : Nat} (hp : p + w ≤ 8 * s.cfg.dmemSize) :
    (s.writeField p v w).memInv := by
  induction w generalizing s p v with
  | zero => exact h
  | succ w ih =>
    refine ih (State.memInv_putBit h (by omega) _) ?_
    show p + 1 + w ≤ 8 * s.cfg.dmemSize
    omega

/-- Fields written change `mem` only. -/
theorem State.writeFields_eq (s : State) (p : Nat) (fs : List (Nat × Nat)) :
    s.writeFields p fs = { s with mem := (s.writeFields p fs).mem } := by
  induction fs generalizing s p with
  | nil => rfl
  | cons f fs ih => rw [State.writeFields, ih, State.writeField_eq s]

theorem State.memInv_writeFields {s : State} (h : s.memInv) {p : Nat} {fs : List (Nat × Nat)}
    (hp : p + (fs.map Prod.snd).sum ≤ 8 * s.cfg.dmemSize) : (s.writeFields p fs).memInv := by
  induction fs generalizing s p with
  | nil => exact h
  | cons f fs ih =>
    have hp' : p + (f.2 + (fs.map Prod.snd).sum) ≤ 8 * s.cfg.dmemSize := by simpa using hp
    refine ih (State.memInv_writeField h (by omega)) ?_
    rw [State.writeField_eq]
    show p + f.2 + (fs.map Prod.snd).sum ≤ 8 * s.cfg.dmemSize
    omega

/-! ### Bits left unspecified -/

/-- Drawn bytes change `mem` only. -/
theorem State.drawBytes_eq (s : State) (k keep a n : Nat) :
    s.drawBytes k keep a n = { s with mem := (s.drawBytes k keep a n).mem } := by
  induction n generalizing s keep a with
  | zero => rfl
  | succ n ih => rw [State.drawBytes, ih]; rfl

theorem State.byteAt_drawBytes_outside (s : State) (k keep a n x : Nat) (hx : ¬(a ≤ x ∧ x < a + n)) :
    (s.drawBytes k keep a n).byteAt x = s.byteAt x := by
  induction n generalizing s keep a with
  | zero => rfl
  | succ n ih =>
    rw [State.drawBytes, ih _ _ _ (by omega), State.byteAt_setByte, if_neg (by omega)]

theorem State.memInv_drawBytes {s : State} (h : s.memInv) (k keep : Nat) {a n : Nat} (ha : a + n ≤ s.cfg.dmemSize ∨ n = 0) :
    (s.drawBytes k keep a n).memInv := by
  induction n generalizing s keep a with
  | zero => exact h
  | succ n ih =>
    have ha' : a + (n + 1) ≤ s.cfg.dmemSize := by simpa using ha
    refine ih (State.memInv_setByte h (by omega) _) 0 (.inl ?_)
    show a + 1 + n ≤ s.cfg.dmemSize
    omega

theorem State.memInv_drawSpan {s : State} (h : s.memInv) (k : Nat) (sp : Span) : (s.drawSpan k sp).memInv :=
  State.memInv_drawBytes h k _ (by omega)

theorem State.drawSpan_eq (s : State) (k : Nat) (sp : Span) : s.drawSpan k sp = { s with mem := (s.drawSpan k sp).mem } :=
  State.drawBytes_eq ..

theorem State.byteAt_drawSpan_outside (s : State) (k : Nat) (sp : Span) (x : Nat)
    (hx : ¬(sp.addr ≤ x ∧ x < sp.addr + sp.len)) : (s.drawSpan k sp).byteAt x = s.byteAt x :=
  State.byteAt_drawBytes_outside _ _ _ _ _ _ (by omega)

/-- What leaving ranges unspecified can do: it changes `mem`, in those ranges, and counts the event. -/
theorem State.unspecified_eq (s : State) (spans : List Span) :
    s.unspecified spans = { s with mem := (s.unspecified spans).mem, draws := s.draws + 1 } := by
  have : ∀ (k : Nat) (t : State), (spans.foldl (fun t sp => t.drawSpan k sp) t) =
      { t with mem := (spans.foldl (fun t sp => t.drawSpan k sp) t).mem } := by
    intro k
    induction spans with
    | nil => intro t; rfl
    | cons sp spans ih => intro t; rw [List.foldl_cons, ih, State.drawSpan_eq]
  unfold State.unspecified
  rw [this]

theorem State.byteAt_unspecified_outside (s : State) (spans : List Span) (x : Nat)
    (hx : ∀ sp ∈ spans, ¬(sp.addr ≤ x ∧ x < sp.addr + sp.len)) : (s.unspecified spans).byteAt x = s.byteAt x := by
  have : ∀ (k : Nat) (t : State), (spans.foldl (fun t sp => t.drawSpan k sp) t).byteAt x = t.byteAt x := by
    intro k
    induction spans with
    | nil => intro t; rfl
    | cons sp spans ih =>
      intro t
      rw [List.foldl_cons, ih fun q hq => hx q (List.mem_cons_of_mem _ hq),
        State.byteAt_drawSpan_outside _ _ _ _ (hx sp (by simp))]
  exact this _ _

theorem State.memInv_unspecified {s : State} (h : s.memInv) (spans : List Span) : (s.unspecified spans).memInv := by
  have : ∀ (k : Nat) (t : State), t.memInv → (spans.foldl (fun t sp => t.drawSpan k sp) t).memInv := by
    intro k
    induction spans with
    | nil => intro t ht; exact ht
    | cons sp spans ih => intro t ht; exact ih _ (State.memInv_drawSpan ht k sp)
  exact this _ _ h

/-- Memory right after reset is canonical: nothing is listed. -/
theorem State.reset_memInv : State.reset.memInv := ⟨List.Pairwise.nil, fun _ h => absurd h (List.not_mem_nil)⟩

end Sys2Proof.Machine
end

