-- ==== Sys2Proof/Laws/Outcomes.lean ====
section
/-! SUPPORT. What the shared operations of a command can do, each said once: the checks, the three ends of a command, the
ranges, and the moves a step can take. Later proofs cite these instead of unfolding the operations. -/

namespace Sys2Proof.Machine

/-! ### Checks -/

theorem firstFailing_eq_none {l : List (Bool × ErrCode)} : firstFailing l = none ↔ ∀ c ∈ l, c.1 = false := by
  induction l with
  | nil => simp [firstFailing]
  | cons c l ih =>
    obtain ⟨bad, e⟩ := c
    cases bad <;> simp [firstFailing, ih]

/-- A reported check fails, and every check before it passes (40_command_lifecycle.md R135). -/
theorem firstFailing_eq_some {l : List (Bool × ErrCode)} {e : ErrCode} (h : firstFailing l = some e) :
    ∃ pre post, l = pre ++ (true, e) :: post ∧ ∀ c ∈ pre, c.1 = false := by
  induction l with
  | nil => simp [firstFailing] at h
  | cons c l ih =>
    obtain ⟨bad, e'⟩ := c
    cases bad with
    | true =>
      obtain rfl : e' = e := by simpa [firstFailing] using h
      exact ⟨[], l, rfl, by simp⟩
    | false =>
      obtain ⟨pre, post, rfl, hp⟩ := ih (by simpa [firstFailing] using h)
      exact ⟨(false, e') :: pre, post, rfl, by simpa using hp⟩

theorem firstFailing_append (l m : List (Bool × ErrCode)) :
    firstFailing (l ++ m) = (firstFailing l).or (firstFailing m) := by
  induction l with
  | nil => simp [firstFailing]
  | cons c l ih =>
    obtain ⟨bad, e⟩ := c
    cases bad <;> simp [firstFailing, ih]

theorem ErrCode.code_ne_zero (e : ErrCode) : e.code ≠ 0 := by cases e <;> decide

theorem ErrCode.code_le (e : ErrCode) : e.code.toNat ≤ 0x15 := by cases e <;> decide

/-- Different errors have different codes (60_exceptions.md R360). -/
theorem ErrCode.code_injective {e f : ErrCode} (h : e.code = f.code) : e = f := by
  revert h; cases e <;> cases f <;> decide

/-! ### Ranges -/

theorem State.valid_iff (s : State) (sp : Span) : s.valid sp = true ↔ s.inDmem sp.addr sp.len := by
  simp [State.valid, State.inDmem]

theorem Span.overlaps_eq_false (p q : Span) : p.overlaps q = false ↔ apart p.addr p.len q.addr q.len := by
  unfold Span.overlaps apart
  simp only [Bool.and_eq_false_iff, decide_eq_false_iff_not]
  omega

/-- Two ranges overlap exactly where some byte is in both (20_memory.md R79). -/
theorem Span.overlaps_iff (p q : Span) :
    p.overlaps q = true ↔ ∃ b, (p.addr ≤ b ∧ b < p.addr + p.len) ∧ q.addr ≤ b ∧ b < q.addr + q.len := by
  unfold Span.overlaps
  simp only [Bool.and_eq_true, decide_eq_true_eq]
  constructor
  · intro h; exact ⟨max p.addr q.addr, by omega, by omega⟩
  · rintro ⟨b, h1, h2⟩; omega

/-! ### The ends of a command -/

theorem State.succeeded_complete (s : State) : s.succeeded s.complete := by
  simp [State.succeeded, State.endedAs, State.keepsRest, State.keepsFrameFlags]

/-- All that a FAULT of an early check does (40_command_lifecycle.md R133). -/
theorem State.raiseFault_spec (s : State) (e : ErrCode) : ∃ t, s.raiseFault e = .next t ∧ s.preciseFault t e.code :=
  ⟨_, rfl, by
    simp [State.preciseFault, State.stoppedAs, State.endedAs, State.keepsRest, State.keepsFrameFlags]⟩

theorem State.stoppedAs_endCommand_unspecified (s : State) (spans : List Span) (fault fail : Bool) (code : Byte) :
    s.stoppedAs ((s.unspecified spans).endCommand fault fail code) fault fail code := by
  rw [State.unspecified_eq]
  simp [State.stoppedAs, State.endedAs, State.keepsRest, State.keepsFrameFlags]

/-- All that a FAULT of a data-dependent check does, but for the values it draws (R133). -/
theorem State.raiseLateFault_spec (s : State) (e : ErrCode) (written : List Span) :
    ∃ t, s.raiseLateFault e written = .next t ∧ s.stoppedAs t true false e.code ∧
      (∀ x, (∀ sp ∈ written, ¬(sp.addr ≤ x ∧ x < sp.addr + sp.len)) → t.byteAt x = s.byteAt x) ∧
      (s.memInv → t.memInv) :=
  ⟨_, rfl, State.stoppedAs_endCommand_unspecified .., fun x hx => by
    simpa using State.byteAt_unspecified_outside s written x hx, fun h => State.memInv_unspecified h written⟩

/-- All that a FAIL does, but for the values it draws (R133, 60_exceptions.md R362). -/
theorem State.raiseFail_spec (s : State) (e : ErrCode) (written : List Span) :
    ∃ t, s.raiseFail e written = .next t ∧ s.stoppedAs t false true e.code ∧
      (∀ x, (∀ sp ∈ written, ¬(sp.addr ≤ x ∧ x < sp.addr + sp.len)) → t.byteAt x = s.byteAt x) ∧
      (s.memInv → t.memInv) :=
  ⟨_, rfl, State.stoppedAs_endCommand_unspecified .., fun x hx => by
    simpa using State.byteAt_unspecified_outside s written x hx, fun h => State.memInv_unspecified h written⟩

/-! ### Moves -/

/-- What the engine's move can be. -/
theorem engineMove_cases {s : State} {r : Result} (h : engineMove s = r) :
    (s.seq = .idle ∧ r = .next s) ∨ (∃ w a i, s.seq = .run w a ∧ decodeWord w = .ok i ∧ r = exec i s) ∨
      ∃ w a e, s.seq = .run w a ∧ decodeWord w = .error e ∧ r = s.raiseFault .illegalCmd := by
  unfold engineMove at h
  split at h
  · exact .inl ⟨‹_›, h.symm⟩
  · split at h
    · exact .inr (.inl ⟨_, _, _, ‹_›, ‹_›, h.symm⟩)
    · exact .inr (.inr ⟨_, _, _, ‹_›, ‹_›, h.symm⟩)

/-- A step is the move of the oldest turn, or of the engine where no turn is listed. -/
theorem step_cases {s : State} {r : Result} (h : step s = r) :
    (s.turns = [] ∧ r = engineMove s) ∨ ∃ t rest, s.turns = t :: rest ∧ r = takeTurn { s with turns := rest } t := by
  unfold step at h
  split at h
  · exact .inl ⟨‹_›, h.symm⟩
  · exact .inr ⟨_, _, ‹_›, h.symm⟩

theorem State.target_window (s : State) {off : Nat} (h : off < 0x80) : s.target (s.cfg.regBase + off) = .window off := by
  unfold State.target
  rw [if_pos (by omega)]
  congr 1
  omega

theorem State.target_dmem {s : State} (hc : s.cfg.wf) {off : Nat} (h : off < s.cfg.dmemSize) :
    s.target (s.cfg.dmemBase + off) = .dmem off := by
  obtain ⟨_, _, hw⟩ := hc
  unfold State.target
  rw [if_neg (by omega), if_pos (by omega)]
  congr 1
  omega

/-- What a host access to DMEM can be. -/
theorem State.dmemAccess_cases (s : State) (off width : Nat) (ok : State) :
    (s.cfg.dmemSize < off + width ∧ s.dmemAccess off width ok = .fault .hostAddress) ∨
      (off + width ≤ s.cfg.dmemSize ∧ s.races off width = true ∧ s.dmemAccess off width ok = .refused .hostRace) ∨
      (off + width ≤ s.cfg.dmemSize ∧ s.races off width = false ∧ s.dmemAccess off width ok = .next ok) := by
  unfold State.dmemAccess
  by_cases h : s.cfg.dmemSize < off + width
  · simp [h]
  · cases hr : s.races off width <;> simp [h] <;> omega

end Sys2Proof.Machine
end

