-- ==== Sys2Proof/Laws/Commands.lean ====
section
/-! SUPPORT. What the shapes that several commands share can do, each said once: the checks of the byte commands, a result
written at DST, and the fields of a frame as they are read. -/

namespace Sys2Proof.Machine

/-! ### The byte commands -/

/-- The checks of a byte command all pass exactly where it may start and its own checks pass. -/
theorem State.byteChecks_eq_none (s : State) (limit : Nat) (own : List (Bool × ErrCode)) :
    firstFailing (s.byteChecks limit own) = none ↔ s.byteReady limit ∧ ∀ c ∈ own, c.1 = false := by
  have hl : decide (limit < s.srcSpan.len) = false ↔ s.args.slen.toNat ≤ limit :=
    decide_eq_false_iff_not.trans Nat.not_lt
  have hd : (!s.valid s.srcSpan || !s.valid s.dstSpan) = false ↔
      s.inDmem s.args.src.toNat s.args.slen.toNat ∧ s.inDmem s.args.dst.toNat s.args.dcap.toNat := by
    rw [Bool.or_eq_false_iff, Bool.not_eq_false', Bool.not_eq_false', State.valid_iff, State.valid_iff]
    rfl
  have ho : s.srcSpan.overlaps s.dstSpan = false ↔
      apart s.args.src.toNat s.args.slen.toNat s.args.dst.toNat s.args.dcap.toNat := Span.overlaps_eq_false ..
  rw [firstFailing_eq_none]
  constructor
  · intro h
    have h1 := hd.1 (h (!s.valid s.srcSpan || !s.valid s.dstSpan, .range) (by simp [State.byteChecks]))
    have h2 := ho.1 (h (s.srcSpan.overlaps s.dstSpan, .overlap) (by simp [State.byteChecks]))
    exact ⟨⟨hl.1 (h _ List.mem_cons_self), h1.1, h1.2, h2⟩, fun c hc => h c (by simp [State.byteChecks, hc])⟩
  · rintro ⟨⟨h1, h2, h3, h4⟩, hown⟩ c hc
    simp only [State.byteChecks, List.cons_append, List.mem_cons, List.mem_append, List.not_mem_nil, or_false] at hc
    rcases hc with rfl | hc | rfl | rfl
    · exact hl.2 h1
    · exact hown c hc
    · exact hd.2 ⟨h2, h3⟩
    · exact ho.2 h4

theorem State.capacityCheck_eq_false (s : State) (n : Nat) : (s.capacityCheck n).1 = false ↔ n ≤ s.args.dcap.toNat :=
  decide_eq_false_iff_not.trans Nat.not_lt

/-- All that a command that writes `out` at DST does on success (40_command_lifecycle.md R133, R134). -/
theorem State.writeResult_complete_spec (s : State) (out : List Byte) :
    s.succeeded (s.writeResult out).complete ∧
      (s.writeResult out).complete.memRead s.args.dst.toNat out.length = out ∧
      s.sameOutside (s.writeResult out).complete s.args.dst.toNat out.length ∧
      (s.writeResult out).complete.regs = s.regs ∧
      (s.writeResult out).complete.res = { s.res with rlen := Word.ofInt out.length } := by
  refine ⟨?_, State.memRead_memWrite s s.args.dst.toNat out, State.sameOutside_memWrite s s.args.dst.toNat out, ?_, rfl⟩
  · rw [State.writeResult, State.memWrite_eq]
    simp [State.succeeded, State.endedAs, State.keepsRest, State.keepsFrameFlags]
  · rw [State.writeResult, State.memWrite_eq]
    rfl

/-! ### The fields of a frame as read -/

theorem State.takeField_eq_ok {s : State} {limit w p : Nat} {r : Nat × Nat} :
    s.takeField limit w p = .ok r ↔ p + w ≤ limit ∧ r = (s.readField p w, p + w) := by
  unfold State.takeField
  by_cases h : limit < p + w
  · simp [h]
  · simp [h, Nat.not_lt.1 h, eq_comm]

/-- The only error of a field read is TRUNCATED, past the limit (30_encoding.md R113). -/
theorem State.takeField_eq_error {s : State} {limit w p : Nat} {e : ErrCode} :
    s.takeField limit w p = .error e ↔ limit < p + w ∧ e = .truncated := by
  unfold State.takeField
  by_cases h : limit < p + w
  · simp [h, eq_comm]
  · simp [h]

/-- A run of fields read: as many as asked, and the position after them. -/
theorem State.takeFields_ok {s : State} {limit w n p : Nat} {vs : List Nat} {p' : Nat}
    (h : s.takeFields limit w n p = .ok (vs, p')) :
    vs.length = n ∧ p' = p + w * n ∧ (n = 0 ∨ p' ≤ limit) ∧ ∀ i < n, vs.getD i 0 = s.readField (p + w * i) w := by
  induction n generalizing p vs with
  | zero =>
    obtain ⟨rfl, rfl⟩ : [] = vs ∧ p = p' := by simpa [State.takeFields] using h
    simp
  | succ n ih =>
    unfold State.takeFields at h
    split at h
    · cases h
    · rename_i v q hv
      obtain ⟨hle, heq⟩ := State.takeField_eq_ok.1 hv
      obtain ⟨rfl, rfl⟩ := Prod.mk.inj heq
      split at h
      · cases h
      · rename_i us q' hus
        obtain ⟨rfl, rfl⟩ : s.readField p w :: us = vs ∧ q' = p' := by simpa using h
        obtain ⟨h1, h2, h3, h4⟩ := ih hus
        refine ⟨by simp [h1], by rw [h2]; ring, .inr ?_, fun i hi => ?_⟩
        · rcases h3 with rfl | h3
          · subst h2; simpa using hle
          · exact h3
        · cases i with
          | zero => simp
          | succ i =>
            rw [List.getD_cons_succ, h4 i (by omega)]
            congr 1
            ring

/-! ### The decoder's runs -/

@[simp] theorem shifted_zero (bit : Nat → Bool) (rank pos : Nat) : shifted bit rank pos 0 = rank := rfl

@[simp] theorem shifted_succ (bit : Nat → Bool) (rank pos j : Nat) :
    shifted bit rank pos (j + 1) = 2 * shifted bit rank pos j + (bit (pos - 1 - j)).toNat := rfl

theorem shifted_mono (bit : Nat → Bool) (rank pos : Nat) {j k : Nat} (h : j ≤ k) :
    shifted bit rank pos j ≤ shifted bit rank pos k := by
  induction h with
  | refl => exact le_refl _
  | step _ ih => exact ih.trans (by rw [shifted_succ]; omega)

/-- Rounds from one state lead to at most one state and one output. -/
theorem decodeRun_unique {t : Tables} {bit : Nat → Bool} {l n x pos x₁ pos₁ x₂ pos₂ : Nat} {out₁ out₂ : List Nat}
    (h₁ : decodeRun t bit l n x pos x₁ pos₁ out₁) (h₂ : decodeRun t bit l n x pos x₂ pos₂ out₂) :
    x₁ = x₂ ∧ pos₁ = pos₂ ∧ out₁ = out₂ := by
  induction n generalizing x pos out₁ out₂ with
  | zero =>
    obtain ⟨rfl, rfl, rfl⟩ := h₁
    obtain ⟨rfl, rfl, rfl⟩ := h₂
    exact ⟨rfl, rfl, rfl⟩
  | succ n ih =>
    obtain ⟨s, rank, j, rest, he, _, hj, hk, hr, rfl⟩ := h₁
    obtain ⟨s', rank', j', rest', he', _, hj', hk', hr', rfl⟩ := h₂
    obtain ⟨rfl, rfl⟩ := Prod.mk.inj (Option.some.inj (he.symm.trans he'))
    have hjj : j = j' := by
      rcases Nat.lt_trichotomy j j' with h | h | h
      · exact absurd (hk' j h) (Nat.not_lt.2 hj)
      · exact h
      · exact absurd (hk j' h) (Nat.not_lt.2 hj')
    subst hjj
    obtain ⟨rfl, rfl, rfl⟩ := ih hr hr'
    exact ⟨rfl, rfl, rfl⟩

end Sys2Proof.Machine
end

