-- ==== Sys2Proof/Laws/PerInstr.lean ====
section
/-! SUPPORT. What holds of every command as syntax, one lemma a constructor: the fields of its encoding (30_encoding.md
R100 to R102). -/

namespace Sys2Proof.Laws

/-- The word of a well-formed command has its opcode in bits 7:0, its immediate in bits 15:8 and 0 above (R100), and the
opcode is one of R101's. -/
def EncodeFields.Statement (i : Instr) : Prop :=
  i.wf = true →
    opField (encode i) = i.opcode ∧ immField (encode i) = i.imm ∧ rsvField (encode i) = 0 ∧ i.opcode ≤ 0x0E

theorem EncodeFields.nop : EncodeFields.Statement .nop := fun _ => by decide
theorem EncodeFields.bwtFwd : EncodeFields.Statement .bwtFwd := fun _ => by decide
theorem EncodeFields.bwtInv : EncodeFields.Statement .bwtInv := fun _ => by decide
theorem EncodeFields.mtfEnc : EncodeFields.Statement .mtfEnc := fun _ => by decide
theorem EncodeFields.mtfDec : EncodeFields.Statement .mtfDec := fun _ => by decide
theorem EncodeFields.rleEnc : EncodeFields.Statement .rleEnc := fun _ => by decide
theorem EncodeFields.rleDec : EncodeFields.Statement .rleDec := fun _ => by decide
theorem EncodeFields.fseNorm (autoa : Bool) : EncodeFields.Statement (.fseNorm autoa) := fun _ => by
  cases autoa <;> decide
theorem EncodeFields.fseBuild : EncodeFields.Statement .fseBuild := fun _ => by decide
theorem EncodeFields.fseEnc (autoa : Bool) : EncodeFields.Statement (.fseEnc autoa) := fun _ => by
  cases autoa <;> decide
theorem EncodeFields.fseDec : EncodeFields.Statement .fseDec := fun _ => by decide

/-- A word of opcode `op` and an immediate of at most 32, by arithmetic. -/
theorem word_fields (op n : Nat) (hop : op < 256) (hn : n ≤ 32) :
    opField (Word.ofInt (op + 256 * n)) = op ∧ immField (Word.ofInt (op + 256 * n)) = n ∧
      rsvField (Word.ofInt (op + 256 * n)) = 0 := by
  simp only [opField, immField, rsvField, Word.ofInt, BitVec.toNat_ofNat]
  omega

theorem EncodeFields.bsPut (n : Nat) : EncodeFields.Statement (.bsPut n) := fun h => by
  have hn : 1 ≤ n ∧ n ≤ 32 := by simpa [Instr.wf, legalNbits] using h
  have := word_fields 0x0B n (by omega) hn.2
  exact ⟨this.1, this.2.1, this.2.2, by simp [Instr.opcode]⟩

theorem EncodeFields.bsGet (n : Nat) : EncodeFields.Statement (.bsGet n) := fun h => by
  have hn : 1 ≤ n ∧ n ≤ 32 := by simpa [Instr.wf, legalNbits] using h
  have := word_fields 0x0C n (by omega) hn.2
  exact ⟨this.1, this.2.1, this.2.2, by simp [Instr.opcode]⟩

theorem EncodeFields.frameEnc (last forceRaw : Bool) : EncodeFields.Statement (.frameEnc last forceRaw) := fun _ => by
  cases last <;> cases forceRaw <;> decide
theorem EncodeFields.frameDec : EncodeFields.Statement .frameDec := fun _ => by decide

end Sys2Proof.Laws
end

