-- ==== Sys2Proof/Tests/Slice0.lean ====
section
/-! SUPPORT. The model's own tests: the well-formedness smoke tests, one word per constructor, one or two steps per
command on the values of 95_test_vectors.md, and for every statement with hypotheses a witness that they can be met. -/

namespace Sys2Proof.Tests

open Sys2Proof.Machine

-- One thread for the kernel evaluations below: each waiting thread reserves a stack.
set_option Elab.async false

/-! ### Small states -/

/-- Bytes from numbers. -/
def bytes (l : List Nat) : List Byte := l.map (BitVec.ofNat 8)

/-- The state after reset with these bytes at 0 and these argument registers. -/
def loaded (mem : List Nat) (r : ArgRegs) : State := { State.reset.memWrite 0 (bytes mem) with regs := r }

/-- The registers of a byte command: the source at 0, the destination at 64. -/
def srcDst (slen dcap : Nat) : ArgRegs :=
  { ArgRegs.reset with slen := Word.ofInt slen, dst := 64, dcap := Word.ofInt dcap }

/-- The registers of the table commands: the table at 32, the destination at 64, an alphabet size. -/
def withTable (slen dcap alpha : Nat) : ArgRegs := { srcDst slen dcap with tbl := 32, alpha := Word.ofInt alpha }

/-- What holds of the state that an outcome gives; false of a fault or a refusal. -/
def holds (r : Result) (f : State → Bool) : Bool :=
  match r with
  | .next t => f t
  | .fault _ => false
  | .refused _ => false

/-- What holds of the state that one step leaves, after the acceptance of command word `w`. -/
def after (s : State) (w : Nat) (f : State → Bool) : Bool := holds (step (s.withFetchWord 32 w)) f

/-- The state in which command word `w` runs. -/
def started (s : State) (w : Nat) : State := s.accept (Word.ofInt w)

/-! ### Well-formedness: each check refuses an ill-formed term (30_encoding.md R102, R104) -/

theorem test_wf_refuses_bsPut_zero : (Instr.bsPut 0).wf = false := by decide
theorem test_wf_refuses_bsPut_33 : (Instr.bsPut 33).wf = false := by decide
theorem test_wf_refuses_bsGet_zero : (Instr.bsGet 0).wf = false := by decide
theorem test_wf_refuses_bsGet_33 : (Instr.bsGet 33).wf = false := by decide

/-! ### Decoding: words written out from R100 to R102 and the table T2 (OP in bits 7:0, IMM in bits 15:8) -/

theorem test_decode_nop : decodeTableWord 32 0b0000000000000000_00000000_00000000 = some .nop := by decide
theorem test_decode_bwtFwd : decodeTableWord 32 0b0000000000000000_00000000_00000001 = some .bwtFwd := by decide
theorem test_decode_bwtInv : decodeTableWord 32 0b0000000000000000_00000000_00000010 = some .bwtInv := by decide
theorem test_decode_mtfEnc : decodeTableWord 32 0b0000000000000000_00000000_00000011 = some .mtfEnc := by decide
theorem test_decode_mtfDec : decodeTableWord 32 0b0000000000000000_00000000_00000100 = some .mtfDec := by decide
theorem test_decode_rleEnc : decodeTableWord 32 0b0000000000000000_00000000_00000101 = some .rleEnc := by decide
theorem test_decode_rleDec : decodeTableWord 32 0b0000000000000000_00000000_00000110 = some .rleDec := by decide
theorem test_decode_fseNorm : decodeTableWord 32 0b0000000000000000_00000000_00000111 = some (.fseNorm false) := by decide
theorem test_decode_fseNorm_autoa :
    decodeTableWord 32 0b0000000000000000_00000001_00000111 = some (.fseNorm true) := by decide
theorem test_decode_fseBuild : decodeTableWord 32 0b0000000000000000_00000000_00001000 = some .fseBuild := by decide
theorem test_decode_fseEnc_autoa :
    decodeTableWord 32 0b0000000000000000_00000001_00001001 = some (.fseEnc true) := by decide
theorem test_decode_fseDec : decodeTableWord 32 0b0000000000000000_00000000_00001010 = some .fseDec := by decide
theorem test_decode_bsPut_32 : decodeTableWord 32 0b0000000000000000_00100000_00001011 = some (.bsPut 32) := by decide
theorem test_decode_bsGet_1 : decodeTableWord 32 0b0000000000000000_00000001_00001100 = some (.bsGet 1) := by decide
theorem test_decode_frameEnc_last :
    decodeTableWord 32 0b0000000000000000_00000001_00001101 = some (.frameEnc true false) := by decide
theorem test_decode_frameEnc_forceRaw :
    decodeTableWord 32 0b0000000000000000_00000010_00001101 = some (.frameEnc false true) := by decide
theorem test_decode_frameDec : decodeTableWord 32 0b0000000000000000_00000000_00001110 = some .frameDec := by decide

/-- The illegal words of T2 are turned away by name. -/
theorem test_decode_illegal :
    [0x0F, 0xFF, 0x10001, 0x101, 0x207, 0x40D, 0x0B, 0x210B, 0x0C].map (fun w => decodeWord (Word.ofInt w)) =
      [.error .reservedOp, .error .reservedOp, .error .reservedBits, .error .undefinedImm, .error .undefinedImm,
        .error .undefinedImm, .error .badNbits, .error .badNbits, .error .badNbits] := by decide

/-! ### One step each, with the values of 95_test_vectors.md -/

/-- T2: NOP leaves STATUS = 2. -/
theorem test_nop : after State.reset 0x00 (fun t => t.statusWord == 0x00000002) = true := by decide

/-- T2: an illegal word ends with ILLEGAL_CMD. -/
theorem test_illegal_word : after State.reset 0x210B (fun t => t.statusWord == 0x000B0106) = true := by decide

/-- T1, "banana": ROT = 3 and the sorted column. -/
theorem test_bwtFwd : after (loaded [0x62, 0x61, 0x6E, 0x61, 0x6E, 0x61] (srcDst 6 6)) 0x01
    (fun t => t.statusWord == 0x00010002 && t.regs.rot == 3 && t.res.rlen == 6 &&
      t.memRead 64 6 == bytes [0x62, 0x6E, 0x6E, 0x61, 0x61, 0x61]) = true := by decide +kernel

/-- T1, 01 01 01 00 (90_conflicts.md C4): the doubling goes on to distinct ranks. -/
theorem test_bwtFwd_conflict : suffixOrder (bytes [1, 1, 1, 0]) = [3, 2, 1, 0, 4] ∧
    doublingOrder (bytes [1, 1, 1, 0]) = [3, 2, 1, 0, 4] := by decide +kernel

/-- T1: the inverse of the "banana" pair. -/
theorem test_bwtInv : after (loaded [0x62, 0x6E, 0x6E, 0x61, 0x61, 0x61] { srcDst 6 6 with rot := 3 }) 0x02
    (fun t => t.statusWord == 0x00020002 && t.memRead 64 6 == bytes [0x62, 0x61, 0x6E, 0x61, 0x6E, 0x61]) = true := by
  decide +kernel

/-- T1: 61 62 with ROT 1 is no forward image. -/
theorem test_bwtInv_cycle : after (loaded [0x61, 0x62] { srcDst 2 2 with rot := 1 }) 0x02
    (fun t => t.statusWord == 0x00020706) = true := by decide +kernel

/-- T3. -/
theorem test_mtfEnc : after (loaded [0x62, 0x6E, 0x6E, 0x61, 0x61, 0x61] (srcDst 6 6)) 0x03
    (fun t => t.statusWord == 0x00030002 && t.memRead 64 6 == bytes [0x62, 0x6E, 0, 0x63, 0, 0]) = true := by
  decide +kernel

/-- T3: FF 00 FF decodes to FF FF FE. -/
theorem test_mtfDec : after (loaded [0xFF, 0, 0xFF] (srcDst 3 3)) 0x04
    (fun t => t.statusWord == 0x00040002 && t.memRead 64 3 == bytes [0xFF, 0xFF, 0xFE]) = true := by decide +kernel

/-- T4: the 9-byte row. -/
theorem test_rleEnc : after (loaded [0, 0, 0, 0, 1, 0, 0, 0, 0] (srcDst 9 11)) 0x05
    (fun t => t.statusWord == 0x00050002 && t.res.rlen == 11 &&
      t.memRead 64 11 == bytes [0, 0, 0, 0, 0, 1, 0, 0, 0, 0, 0]) = true := by decide +kernel

/-- T4: four zeros need five bytes. -/
theorem test_rleEnc_overflow : after (loaded [0, 0, 0, 0] (srcDst 4 4)) 0x05
    (fun t => t.statusWord == 0x00050506) = true := by decide +kernel

/-- T4: 07, six zeros from the run, one verbatim zero. -/
theorem test_rleDec : after (loaded [7, 0, 0, 0, 0, 2, 0] (srcDst 7 8)) 0x06
    (fun t => t.statusWord == 0x00060002 && t.res.rlen == 8 && t.memRead 64 8 == bytes [7, 0, 0, 0, 0, 0, 0, 0]) = true := by
  decide +kernel

/-- T4: with the length byte missing at the end. -/
theorem test_rleDec_end : after (loaded [0, 0, 0, 0] (srcDst 4 4)) 0x06
    (fun t => t.statusWord == 0x00060002 && t.memRead 64 4 == bytes [0, 0, 0, 0]) = true := by decide +kernel

/-- T5, S6 with AUTOA. -/
theorem test_fseNorm : after (loaded [0, 1, 2, 1, 1, 3, 2, 3, 3, 1] (withTable 10 0 0)) 0x107
    (fun t => t.statusWord == 0x00070002 && t.regs.alpha == 4 && t.res.prec == 7 && t.res.rlen == 8 &&
      t.memRead 32 8 == bytes [0x0C, 0, 0x35, 0, 0x19, 0, 0x26, 0]) = true := by decide +kernel

/-- T5: no data, AUTOA, the table beyond DMEM: FSE_EMPTY. -/
theorem test_fseNorm_empty : after (loaded [] { withTable 0 0 0 with tbl := 5000 }) 0x107
    (fun t => t.statusWord == 0x0007090A) = true := by decide +kernel

/-- The table of T5's `f = [48, 16]` at 32. -/
def tableTwo (dcap alpha : Nat) : State :=
  loaded (List.replicate 32 0 ++ [0x30, 0, 0x10, 0]) (withTable 0 dcap alpha)

/-- T5: the dump of [48, 16]: 512 bytes, the first six entries. -/
theorem test_fseBuild : (buildTables [48, 16] 2).map (fun t => ((dumpBytes t.owner).length, (dumpBytes t.owner).take 24)) =
    some (512, bytes [0xFF, 0xFF, 0, 0, 0xFF, 0xFF, 0, 0, 0, 0, 1, 0, 0, 0, 2, 0, 1, 0, 1, 0, 0, 0, 3, 0]) := by
  decide +kernel

/-- T5: with one symbol the build is full. -/
theorem test_fseBuild_full : after (loaded (List.replicate 32 0 ++ [32, 0]) (withTable 0 256 1)) 0x08
    (fun t => t.statusWord == 0x00080A06) = true := by decide +kernel

/-- T6: 00 00 00 01 with ALPHA = 2. -/
theorem test_compress_two : compress [0, 0, 0, 1] 2 =
    .ok { coded := [0x50], freq := [48, 16], toff := 4, final := 76 } := by decide +kernel

/-- T6: the same as a command. -/
theorem test_fseEnc : after (loaded [0, 0, 0, 1] (withTable 4 1 2)) 0x09
    (fun t => t.statusWord == 0x00090002 && t.res.rlen == 1 && t.regs.toff == 4 && t.regs.fstate == 76 &&
      t.memRead 64 1 == [0x50] && t.memRead 32 4 == bytes [0x30, 0, 0x10, 0]) = true := by decide +kernel

/-- T6: three zeros have one symbol: FAIL TABLE_FULL. -/
theorem test_fseEnc_one_symbol : after (loaded [0, 0, 0] (withTable 3 8 0)) 0x109
    (fun t => t.statusWord == 0x00090A0A) = true := by decide +kernel

/-- The coded block of T6's 00 00 00 01, to decode with a given FSTATE. -/
def codedTwo (fstate : Nat) : State :=
  loaded ([0x50] ++ List.replicate 31 0 ++ [0x30, 0, 0x10, 0])
    { withTable 1 8 2 with toff := 4, fstate := Word.ofInt fstate, olen := 4 }

/-- T6: it decodes to 00 00 00 01. -/
theorem test_fseDec : after (codedTwo 76) 0x0A
    (fun t => t.statusWord == 0x000A0002 && t.res.rlen == 4 && t.res.prec == 6 && t.memRead 64 4 == [0, 0, 0, 1])
      = true := by decide +kernel

/-- T6's rule for a state below `L`. -/
theorem test_fseDec_state_range : after (codedTwo 63) 0x0A (fun t => t.statusWord == 0x000A0D06) = true := by
  decide +kernel

/-- The bytes and cursor of T8's second row. -/
def bitStream (wptr wbit : Nat) (v : Word) : State :=
  loaded [0x05, 0, 0, 0, 0, 0, 0, 0]
    { ArgRegs.reset with wptr := Word.ofInt wptr, wbit := Word.ofInt wbit, wlim := 8, bsval := v }

/-- T8: BS_PUT 9 of 1FF at (0, 3). -/
theorem test_bsPut : after (bitStream 0 3 0x1FF) 0x090B
    (fun t => t.statusWord == 0x000B0002 && t.memRead 0 2 == [0xFD, 0x0F] && t.regs.wptr == 1 && t.regs.wbit == 4)
      = true := by decide +kernel

/-- T8: 24 bits from (5, 4) do not fit before WLIM = 8. -/
theorem test_bsPut_overflow : after (bitStream 5 4 0) 0x180B (fun t => t.statusWord == 0x000B0506) = true := by
  decide +kernel

/-- T8: BS_GET 16 at (0, 4) of 21 43 65. -/
theorem test_bsGet : after (loaded [0x21, 0x43, 0x65] { ArgRegs.reset with rbit := 4, rlim := 3 }) 0x100C
    (fun t => t.statusWord == 0x000C0002 && t.regs.bsval == 0x5432 && t.regs.rptr == 2 && t.regs.rbit == 4) = true := by
  decide +kernel

/-- A frame's registers: the block at 64, the frame from 0 on. -/
def frameRegs (slen : Nat) : ArgRegs := { ArgRegs.reset with src := 64, slen := Word.ofInt slen, wlim := 64, dst := 64, dcap := 32 }

/-- A block at 64 to frame, and zeros where the frame goes. -/
def blockAt64 (b : List Nat) : State := loaded (List.replicate 64 0 ++ b) (frameRegs b.length)

/-- T9: three zeros have one symbol, so the frame is raw (RAWWHY = 2). -/
theorem test_frameEnc_raw : after (blockAt64 [0, 0, 0]) 0x010D
    (fun t => t.statusWord == 0x020D0032 && t.res.rlen == 13 && t.res.nrec == 3 && t.regs.wptr == 13 &&
      t.memRead 0 13 == bytes [1, 1, 0, 0, 0, 0, 3, 0, 0, 0, 0, 0, 0]) = true := by decide +kernel

/-- The block B19 of T9. -/
def b19 : List Nat := [0, 1, 1, 1, 0, 0, 1, 0, 1, 0, 1, 1, 0, 0, 1, 0, 1, 1, 1]

/-- The frame of B19 (T9). -/
def f19 : List Nat :=
  [0, 0, 6, 0, 0, 0, 2, 0, 19, 0, 0, 0, 0x22, 0, 0x1E, 0, 5, 0x78, 0, 0, 0, 3, 0, 0, 0, 0x0B, 0x37, 0x60]

/-- T9: B19 as an entropy-coded frame. -/
theorem test_frameEnc_entropy : after (blockAt64 b19) 0x0D
    (fun t => t.statusWord == 0x000D0002 && t.res.rlen == 28 && t.res.clen == 3 && t.regs.rot == 6 &&
      t.memRead 0 28 == bytes f19) = true := by decide +kernel

/-- A frame at 0 to decode to 64. -/
def frameAt0 (f : List Nat) : State :=
  loaded f { ArgRegs.reset with rlim := Word.ofInt f.length, dst := 64, dcap := 32 }

/-- T9: the frame of B19 decodes to B19. -/
theorem test_frameDec : after (frameAt0 f19) 0x0E
    (fun t => t.statusWord == 0x000E0002 && t.res.rlen == 19 && t.res.nrec == 19 && t.memRead 64 19 == bytes b19)
      = true := by decide +kernel

/-- T9: a mode tag of 2. -/
theorem test_frameDec_mode_tag : after (frameAt0 [0, 2, 0, 0]) 0x0E (fun t => t.statusWord == 0x000E1106) = true := by
  decide +kernel

/-! ### Witnesses: for each statement with hypotheses, a state and operands that meet them, clause by clause -/

/-- An outcome is a next state with this property: the form of the witnesses for `exec i s = .next t ∧ ...`. -/
def GivesNext (r : Result) (f : State → Bool) : Prop := ∃ t, r = .next t ∧ f t = true

theorem next_of_holds {r : Result} {f : State → Bool} (h : holds r f = true) : GivesNext r f := by
  cases r with
  | next t => exact ⟨t, rfl, h⟩
  | fault e => exact absurd h (by simp [holds])
  | refused e => exact absurd h (by simp [holds])

/-- An idle state with a block of 6 bytes and room for 8. -/
def ready : State := loaded [0x62, 0x61, 0x6E, 0x61, 0x6E, 0x61] { srcDst 6 8 with rot := 6 }

/-- BS_PUT of 32 bits runs at cursor (0, 3). -/
def putting : State := started (bitStream 0 3 0x1FF) 0x200B

theorem started_inv (s : State) (w : Word) (hc : s.cfg.wf) (hm : s.memInv) : (s.accept w).Inv := by
  refine ⟨hc, hm, ⟨rfl, ?_, rfl, rfl, rfl, rfl⟩, by simp, by simp, by simp⟩
  show BitVec.ofNat 8 (w.toNat % 256) = BitVec.ofNat 8 w.toNat
  apply BitVec.eq_of_toNat_eq
  simp

theorem loaded_wf (mem : List Nat) (r : ArgRegs) : (loaded mem r).cfg.wf := by
  unfold loaded
  rw [State.memWrite_eq]
  exact (by decide : Config.default.wf)

/-! #### Encoding and steps -/

theorem witness_DecodeInvertsEncode : (Instr.bsPut 1).wf = true ∧ (Instr.bsPut 32).wf = true ∧ (Instr.bsGet 32).wf = true ∧
    (Instr.frameEnc true true).wf = true := by decide

theorem witness_DecodedWordIsItsEncoding : decodeWord 0x0000200B = .ok (.bsPut 32) ∧ decodeWord 0x00000109 = .ok (.fseEnc true) := by
  decide

theorem witness_IllegalWordFaultsAtOnce : State.reset.seq = .idle ∧
    (started State.reset 0x0F).seq = .run 0x0000000F ArgRegs.reset ∧ decodeWord 0x0000000F = .error .reservedOp ∧
    (started State.reset 0x0F).turns = [] := by decide

theorem witness_StepRunsTheLatchedCommand :
    ((started State.reset 0x01).seq = .run 0x00000001 ArgRegs.reset ∧ decodeWord 0x00000001 = .ok .bwtFwd ∧
      (started State.reset 0x01).turns = [] ∧ (State.reset.withFetchWord 32 0x01).turns = [.engine]) ∧
    ((State.reset.withFetchWord 32 0x0B).seq = .run 0x0000000B ArgRegs.reset ∧
      decodeWord 0x0000000B = .error .badNbits ∧ (State.reset.withFetchWord 32 0x0B).turns = [.engine]) ∧
    decodeTableWord 32 0x030D = some (.frameEnc true true) ∧ decodeTableWord 16 0x200C = some (.bsGet 32) := by decide

theorem witness_ResetSatisfiesInvariant : Config.default.wf := by decide

theorem witness_StepKeepsInvariant : putting.Inv ∧ GivesNext (step putting) (fun t => t.mem != putting.mem) :=
  ⟨started_inv _ _ (loaded_wf _ _) (by decide +kernel), next_of_holds (by decide +kernel)⟩

/-! #### Reset -/

theorem witness_ResetLeavesRegistersZero :
    GivesNext (takeTurn putting .hardReset) (fun t => t.seq == .idle) ∧
    GivesNext (takeTurn putting .powerOn) (fun t => t.seq == .idle) ∧ (2 : Word).getLsbD 1 = true ∧
    ready.seq = .idle ∧ putting.seq = .run 0x0000200B (bitStream 0 3 0x1FF).regs ∧
    decodeWord 0x0000200B = .ok (.bsPut 32) ∧ (started State.reset 0x0F).seq = .run 0x0000000F ArgRegs.reset ∧
    decodeWord 0x0000000F = .error .reservedOp ∧ (ready.regs.put 0 .bsval).isSome = true := by
  refine ⟨next_of_holds ?_, next_of_holds ?_, ?_⟩ <;> decide +kernel

/-- The first and the last bit that BS_PUT may write at cursor (0, 3) below WLIM = 8. -/
theorem witness_AbandonedCommandBitsAreDrawn :
    putting.seq = .run 0x0000200B (bitStream 0 3 0x1FF).regs ∧ decodeWord 0x0000200B = .ok (.bsPut 32) ∧
    ({ addr := 0, len := 8, keep := 3 } : Span) ∈ putting.writtenSpans (.bsPut 32) ∧
    (8 * 0 + 3 ≤ 3 ∧ 3 < 8 * (0 + 8)) ∧ (8 * 0 + 3 ≤ 63 ∧ 63 < 8 * (0 + 8)) ∧ 63 < 8 * putting.cfg.dmemSize := by
  decide +kernel

/-! #### The register window -/

theorem witness_CmdWriteIsAccepted : ready.seq = .idle := by decide

/-- A running command with OVERRUN set, and the moves that clear it. -/
def overrunning (t : Turn) : State := { (started State.reset 0x01).setOverrun with turns := [t] }

theorem witness_WritesWhileBusySetStickyOverrun :
    (started State.reset 0x01).busy = true ∧ (ArgRegs.reset.put 5 .src).isSome = true ∧
    (1 : Word).getLsbD 1 = false ∧ (2 : Word).getLsbD 1 = true ∧ 0x6C ≤ 0x6C ∧
    (overrunning .hardReset).status.overrun = true ∧
    GivesNext (step (overrunning .hardReset)) (fun t => !t.status.overrun) ∧
    GivesNext (step (overrunning .powerOn)) (fun t => !t.status.overrun) ∧
    GivesNext (step (overrunning (wr Config.default .status 0x40))) (fun t => !t.status.overrun) ∧
    GivesNext (step (overrunning (wr Config.default .ctrl 0x02))) (fun t => !t.status.overrun) := by
  refine ⟨?_, ?_, ?_, ?_, ?_, ?_, next_of_holds ?_, next_of_holds ?_, next_of_holds ?_, next_of_holds ?_⟩ <;> decide +kernel

theorem witness_ArgumentRegisterHoldsWhatIsWritten : ready.seq = .idle ∧
    (Reg.bsval, ({ ready.regs with bsval := 0xFFFFFFFF } : ArgRegs)) ∈
      [(Reg.src, { ready.regs with src := 0xFFFFFFFF }), (Reg.bsval, { ready.regs with bsval := 0xFFFFFFFF })] := by
  decide +kernel

theorem witness_InterruptIsEnabledDone :
    ({ State.reset with ie := true }).ie = true ∧
    GivesNext (exec .nop { State.reset with ie := true }) (fun t => t.irq) ∧
    GivesNext (engineMove { started State.reset 0x0F with ie := true }) (fun t => t.irq) ∧
    GivesNext (step (started State.reset 0x00)) (fun t => t.status.done) ∧
    GivesNext (step (State.reset.withFetchWord 32 0x0F)) (fun t => t.status.done) ∧
    (started State.reset 0x00).status.done = false ∧ (State.reset.withFetchWord 32 0x0F).status.done = false ∧
    (2 : Word).getLsbD 1 = true ∧ State.reset.seq = .idle ∧ (0 : Word).getLsbD 0 = false ∧ (1 : Word).getLsbD 1 = false := by
  refine ⟨?_, next_of_holds ?_, next_of_holds ?_, next_of_holds ?_, next_of_holds ?_, ?_⟩ <;> decide

/-- The last byte of the window, at every width but 4 and out of alignment; the first and last reserved offsets. -/
theorem witness_WindowTakesAlignedWordsOnly : 0x7F < 0x80 ∧ ¬(4 = 4 ∧ 0x7F % 4 = 0) ∧ ¬(2 = 4 ∧ 0x08 % 4 = 0) ∧
    ¬(([1, 2] : List Byte).length = 4 ∧ 0x04 % 4 = 0) ∧ (0x6C % 4 = 0 ∧ 0x6C ≤ 0x6C) ∧ (0x7C < 0x80 ∧ 0x7C % 4 = 0) ∧
    ([0, 0, 0, 0] : List Byte).length = 4 := by decide

/-- The first and the last register of the window. -/
theorem witness_RegisterMapOffsets : Reg.id.offset = 0x00 ∧ Reg.dmemsz.offset = 0x68 := by decide

theorem witness_HostKeepsOutOfRunningRanges :
    putting.cfg.wf ∧ ([1] : List Byte) ≠ [] ∧ 7 + ([1] : List Byte).length ≤ putting.cfg.dmemSize ∧
    (putting.seq = .run 0x0000200B (bitStream 0 3 0x1FF).regs ∧ decodeWord 0x0000200B = .ok (.bsPut 32) ∧
      ({ addr := 0, len := 8, keep := 3 } : Span) ∈ putting.readSpans (.bsPut 32) ++ putting.writtenSpans (.bsPut 32) ∧
      0 ≤ 7 ∧ 7 < 0 + 8) ∧
    (∀ sp ∈ putting.readSpans (.bsPut 32) ++ putting.writtenSpans (.bsPut 32),
      sp.len = 0 ∨ 8 + ([1] : List Byte).length ≤ sp.addr ∨ sp.addr + sp.len ≤ 8) ∧
    4095 + ([1] : List Byte).length ≤ putting.cfg.dmemSize := by decide +kernel

theorem witness_HostCannotDisturbRunningCommand :
    putting.Inv ∧ putting.seq = .run 0x0000200B (bitStream 0 3 0x1FF).regs ∧
    GivesNext (putting.hostMove (.write (0x100000000 + 0x10) [1, 0, 0, 0])) (fun t => t.status.overrun) ∧
    GivesNext (putting.hostMove (.write (0x100000000 + 0x0C) [2, 0, 0, 0])) (fun t => t.seq == .idle) :=
  ⟨started_inv _ _ (loaded_wf _ _) (by decide +kernel), by decide +kernel, next_of_holds (by decide +kernel),
    next_of_holds (by decide +kernel)⟩

/-! #### Every command -/

theorem witness_CommandsWriteOnlyTheirRanges : GivesNext (exec (.bsPut 32) putting) (fun t => t.mem != putting.mem) :=
  next_of_holds (by decide +kernel)

/-- One FAULT and one FAIL. -/
theorem witness_FailedCommandsChangeOnlyStatus : GivesNext (exec .frameDec State.reset) (fun t => t.status.fault) ∧
    GivesNext (exec (.fseNorm true) State.reset) (fun t => t.status.fail) :=
  ⟨next_of_holds (by decide +kernel), next_of_holds (by decide +kernel)⟩

/-- The codes of the clauses: 1 to 4, 5 of three of the commands named (FRAME_ENC as in T9), 6 and 0x10. -/
theorem witness_EarlyFaultsLeaveDmem :
    GivesNext (exec (.bsGet 33) ready) (fun t => t.status.errcode == 0x01) ∧
    GivesNext (exec .fseDec ready) (fun t => t.status.errcode == 0x02) ∧
    GivesNext (exec .mtfEnc { ready with regs := srcDst 6 4033 }) (fun t => t.status.errcode == 0x03) ∧
    GivesNext (exec .rleDec { ready with regs := { srcDst 6 1 with dst := 5 } }) (fun t => t.status.errcode == 0x04) ∧
    GivesNext (exec .bwtFwd { ready with regs := srcDst 6 5 }) (fun t => t.status.errcode == 0x05) ∧
    GivesNext (exec (.bsPut 1) State.reset) (fun t => t.status.errcode == 0x05) ∧
    GivesNext (exec (.frameEnc true true) { blockAt64 [0x61] with regs := { frameRegs 1 with wlim := 10 } })
      (fun t => t.status.errcode == 0x05 && t.memRead 0 11 == List.replicate 11 0) ∧
    GivesNext (exec .bwtInv { ready with regs := { srcDst 6 8 with rot := 7 } }) (fun t => t.status.errcode == 0x06) ∧
    GivesNext (exec .fseDec { tableTwo 8 2 with regs := { withTable 1 8 2 with toff := 8 } })
      (fun t => t.status.errcode == 0x10) := by
  refine ⟨?_, ?_, ?_, ?_, ?_, ?_, ?_, ?_, ?_⟩ <;> exact next_of_holds (by decide +kernel)

theorem witness_OnlyEntropyEncodersFail : GivesNext (exec (.fseNorm true) State.reset) (fun t => t.status.fail) ∧
    GivesNext (exec (.fseEnc true) (loaded [0, 0, 0] (withTable 3 8 0))) (fun t => t.status.fail) ∧
    compress (symbols (recodedBlock []).1) (denseAlphabet (recodedBlock []).1) = .error .fseEmpty ∧
    compress (symbols (recodedBlock [0]).1) (denseAlphabet (recodedBlock [0]).1) = .error .tableFull :=
  ⟨next_of_holds (by decide +kernel), next_of_holds (by decide +kernel), by decide +kernel, by decide +kernel⟩

/-- Every command but NOP, FSE_NORM, FSE_ENC can fault so from reset or with one register bad; those two with ALPHA = 0. -/
theorem witness_FaultCodesOnlyByListedCommands :
    (∀ i ∈ [Instr.bwtFwd, .bwtInv, .mtfEnc, .mtfDec, .rleEnc, .rleDec, .fseNorm true, .fseNorm false, .fseBuild,
        .fseEnc true, .fseEnc false, .fseDec],
      holds (exec i { State.reset with regs := withTable 1000000000 1 0 }) (fun t => t.status.fault) = true) ∧
    ∀ i ∈ [Instr.bsPut 1, .bsGet 1, .frameEnc true true, .frameDec],
      holds (exec i State.reset) (fun t => t.status.fault) = true := by decide +kernel

/-! #### The commands one by one -/

theorem witness_NopOnlyCompletes : (0x00000100 : Word).toNat % 256 = 0 ∧ (0x00000100 : Word) ≠ 0 := by decide

theorem witness_BwtFwdWritesForwardTransform : ready.byteReady ready.cfg.maxBlock ∧
    ready.args.slen.toNat ≤ ready.args.dcap.toNat := by decide +kernel

/-- ROT one above SLEN; then a block with its own ROT, and one no block produces. -/
theorem witness_BwtInvWritesInverse :
    (let s := { ready with regs := { ready.regs with rot := 7 } };
      s.args.slen.toNat ≤ s.cfg.maxBlock ∧ s.args.slen.toNat < s.args.rot.toNat) ∧
    (ready.args.slen.toNat ≤ ready.cfg.maxBlock ∧ ready.args.rot.toNat ≤ ready.args.slen.toNat ∧
      ready.byteReady ready.cfg.maxBlock ∧ ready.args.slen.toNat ≤ ready.args.dcap.toNat ∧
      inverse ready.block ready.args.rot.toNat = none) ∧
    inverse (bytes [0x62, 0x6E, 0x6E, 0x61, 0x61, 0x61]) 3 ≠ none := by decide +kernel

theorem witness_MtfCommandsWriteRecodedBlock : (0 : Byte) ∉ [(1 : Byte)] ∧ ready.byteReady ready.cfg.maxBlock ∧
    ready.args.slen.toNat ≤ ready.args.dcap.toNat := by decide +kernel

/-- Four zeros, which need five bytes, with 5 and with 4 bytes of room. -/
theorem witness_RleCommandsWriteRecodedBlock :
    (let s := loaded [0, 0, 0, 0] (srcDst 4 5);
      s.byteReady s.cfg.maxBlock ∧ s.byteReady (s.cfg.maxBlock + s.cfg.maxBlock / 4) ∧
        (rleEncode s.block).length ≤ s.args.dcap.toNat) ∧
    (let s := loaded [0, 0, 0, 0] (srcDst 4 4);
      s.byteReady s.cfg.maxBlock ∧ s.args.dcap.toNat < (rleEncode s.block).length) ∧
    let s := loaded [0, 0, 0, 0, 1] (srcDst 5 4)
    s.byteReady (s.cfg.maxBlock + s.cfg.maxBlock / 4) ∧ s.args.dcap.toNat < (rleDecode s.block).length := by
  decide +kernel

/-- The limits and one above; a destination past DMEM by one byte; an overlap of one byte; one byte too little; ROT = SLEN,
the largest that BWT_INV takes. -/
theorem witness_ByteCommandsCheckInOrder :
    (900000 < (srcDst 900001 0).slen.toNat ∧ 1125000 < (srcDst 1125001 0).slen.toNat) ∧
    (let s := loaded [] { srcDst 6 4033 with rot := 6 };
      s.args.slen.toNat ≤ s.cfg.maxBlock ∧ s.args.rot.toNat ≤ s.args.slen.toNat ∧
        s.inDmem s.args.src.toNat s.args.slen.toNat ∧ ¬s.inDmem s.args.dst.toNat s.args.dcap.toNat) ∧
    (let s := loaded [] { srcDst 6 1 with dst := 5, rot := 6 };
      s.args.slen.toNat ≤ s.cfg.maxBlock ∧ s.inDmem s.args.src.toNat s.args.slen.toNat ∧
        s.inDmem s.args.dst.toNat s.args.dcap.toNat ∧
        ¬apart s.args.src.toNat s.args.slen.toNat s.args.dst.toNat s.args.dcap.toNat) ∧
    let s := loaded [] { srcDst 6 5 with rot := 6 }
    s.byteReady s.cfg.maxBlock ∧ s.args.dcap.toNat < s.args.slen.toNat := by decide +kernel

/-- One byte over the limit; ALPHA 0 and 257; the table one byte past DMEM; an overlap of one byte; a symbol equal to A; S6
with AUTOA, and 00 00 00 01 with ALPHA = 2. -/
theorem witness_FseNormWritesTable :
    (1125000 < (withTable 1125001 0 4).slen.toNat ∧ (withTable 4 0 0).alpha.toNat = 0 ∧
      256 < (withTable 4 0 257).alpha.toNat) ∧
    (let s := loaded [0, 0, 0, 1] { withTable 4 1 2 with src := 4093 };
      ¬s.inDmem s.args.src.toNat s.args.slen.toNat) ∧
    (let s := loaded [0, 0, 0, 1] { withTable 4 1 2 with tbl := 4093 };
      s.inDmem s.args.src.toNat s.args.slen.toNat ∧ 2 = s.args.alpha.toNat ∧ ¬s.inDmem s.args.tbl.toNat (2 * 2)) ∧
    (let s := loaded [0, 0, 0, 1] { withTable 4 1 2 with tbl := 3 };
      s.inDmem s.args.tbl.toNat (2 * 2) ∧ ¬apart s.args.tbl.toNat (2 * 2) s.args.src.toNat s.args.slen.toNat) ∧
    (let s := loaded [0, 0, 2, 1] (withTable 4 1 2);
      s.inDmem s.args.tbl.toNat (2 * 2) ∧ apart s.args.tbl.toNat (2 * 2) s.args.src.toNat s.args.slen.toNat ∧
        ∃ v ∈ s.block, 2 ≤ v.toNat) ∧
    (let s := loaded [0, 1, 2, 1, 1, 3, 2, 3, 3, 1] (withTable 10 0 0);
      4 = (s.block.map BitVec.toNat).foldl max 0 + 1 ∧ s.args.slen.toNat ≤ s.cfg.maxBlock + s.cfg.maxBlock / 4 ∧
        s.args.slen.toNat ≠ 0 ∧ s.inDmem s.args.src.toNat s.args.slen.toNat ∧ s.inDmem s.args.tbl.toNat (2 * 4) ∧
        apart s.args.tbl.toNat (2 * 4) s.args.src.toNat s.args.slen.toNat ∧ ∀ v ∈ s.block, v.toNat < 4) ∧
    let s := loaded [0, 0, 0, 1] (withTable 4 1 2)
    2 = s.args.alpha.toNat ∧ s.args.slen.toNat ≠ 0 ∧ s.inDmem s.args.tbl.toNat (2 * 2) ∧
      apart s.args.tbl.toNat (2 * 2) s.args.src.toNat s.args.slen.toNat ∧ ∀ v ∈ s.block, v.toNat < 2 := by decide +kernel

/-- No data, the table one byte past the end of DMEM, on the first byte of the destination, and at the end of DMEM, apart
from the destination. -/
theorem witness_EmptyDataFails :
    (let s := loaded [] { withTable 0 8 1 with tbl := 4095 };
      s.args.slen.toNat = 0 ∧ s.inDmem s.args.dst.toNat s.args.dcap.toNat ∧ 1 ≤ s.args.alpha.toNat ∧
        s.args.alpha.toNat ≤ 256 ∧ ¬s.inDmem s.args.tbl.toNat (2 * s.args.alpha.toNat)) ∧
    (let s := loaded [] { withTable 0 8 1 with tbl := 63 };
      s.args.slen.toNat = 0 ∧ 1 ≤ s.args.alpha.toNat ∧ s.args.alpha.toNat ≤ 256 ∧
        s.inDmem s.args.tbl.toNat (2 * s.args.alpha.toNat) ∧ s.inDmem s.args.dst.toNat s.args.dcap.toNat ∧
        ¬apart s.args.tbl.toNat (2 * s.args.alpha.toNat) s.args.dst.toNat s.args.dcap.toNat) ∧
    let s := loaded [] { withTable 0 8 256 with tbl := 3584 }
    s.args.slen.toNat = 0 ∧ s.args.alpha.toNat ≤ 256 ∧ s.inDmem s.args.tbl.toNat (2 * s.args.alpha.toNat) ∧
      s.inDmem s.args.dst.toNat s.args.dcap.toNat ∧
      apart s.args.tbl.toNat (2 * s.args.alpha.toNat) s.args.dst.toNat s.args.dcap.toNat := by
  decide +kernel

/-- ALPHA 0 and 257; the table past DMEM by one byte; an overlap of one byte; one byte too little; then exactly room for the
dump, with a table that builds, an invalid one, and the table of one symbol, which is full. -/
theorem witness_FseBuildDumpsDecodingTable :
    ((tableTwo 512 0).args.alpha.toNat = 0 ∧ 256 < (tableTwo 512 257).args.alpha.toNat) ∧
    (let s := { tableTwo 512 2 with regs := { withTable 0 512 2 with tbl := 4093 } };
      ¬s.inDmem s.args.tbl.toNat (2 * 2)) ∧
    (let s := { tableTwo 512 2 with regs := { withTable 0 512 2 with tbl := 61 } };
      s.inDmem s.args.tbl.toNat (2 * 2) ∧ s.inDmem s.args.dst.toNat s.args.dcap.toNat ∧
        ¬apart s.args.tbl.toNat (2 * 2) s.args.dst.toNat s.args.dcap.toNat) ∧
    (let s := tableTwo 511 2;
      apart s.args.tbl.toNat (2 * 2) s.args.dst.toNat s.args.dcap.toNat ∧
        s.args.dcap.toNat < 4 * 2 ^ (bitLength 2 + 5)) ∧
    (let s := tableTwo 512 2;
      2 = s.args.alpha.toNat ∧ s.inDmem s.args.tbl.toNat (2 * 2) ∧ s.inDmem s.args.dst.toNat s.args.dcap.toNat ∧
        apart s.args.tbl.toNat (2 * 2) s.args.dst.toNat s.args.dcap.toNat ∧
        4 * 2 ^ (bitLength 2 + 5) ≤ s.args.dcap.toNat ∧
        [48, 16] = (List.range 2).map (fun q => s.memRead16 (s.args.tbl.toNat + 2 * q)) ∧
        validTable [48, 16] 2 = true ∧ (buildTables [48, 16] 2).isSome = true) ∧
    (let s := tableTwo 512 1;
      1 = s.args.alpha.toNat ∧ 4 * 2 ^ (bitLength 1 + 5) ≤ s.args.dcap.toNat ∧ s.inDmem s.args.tbl.toNat (2 * 1) ∧
        [48] = (List.range 1).map (fun q => s.memRead16 (s.args.tbl.toNat + 2 * q)) ∧ validTable [48] 1 = false) ∧
    let s := loaded (List.replicate 32 0 ++ [32, 0]) (withTable 0 256 1)
    1 = s.args.alpha.toNat ∧ s.inDmem s.args.tbl.toNat (2 * 1) ∧ s.inDmem s.args.dst.toNat s.args.dcap.toNat ∧
      apart s.args.tbl.toNat (2 * 1) s.args.dst.toNat s.args.dcap.toNat ∧
      4 * 2 ^ (bitLength 1 + 5) ≤ s.args.dcap.toNat ∧
      [32] = (List.range 1).map (fun q => s.memRead16 (s.args.tbl.toNat + 2 * q)) ∧
      validTable [32] 1 = true ∧ buildTables [32] 1 = none := by decide +kernel

/-- A length over the limit; a destination past DMEM; DST on SRC with the table past DMEM, RANGE without AUTOA and OVERLAP with
it; DST on SRC with a good table; the table past DMEM; the table on the destination; a symbol equal to A; 00 00 00 01 with exactly one byte of room for its coded
byte, and with none; three zeros, which fail. -/
theorem witness_FseEncWritesCompressedBlock_checks :
    1125000 < (withTable 1125001 0 4).slen.toNat ∧
    (let s := loaded [0, 0, 0, 1] { withTable 4 1 2 with dst := 4096 };
      s.inDmem s.args.src.toNat s.args.slen.toNat ∧ ¬s.inDmem s.args.dst.toNat s.args.dcap.toNat) ∧
    (let s := loaded [0, 0, 0, 1] { withTable 4 1 2 with dst := 3, tbl := 5000 };
      s.inDmem s.args.src.toNat s.args.slen.toNat ∧ s.inDmem s.args.dst.toNat s.args.dcap.toNat ∧
        ¬apart s.args.src.toNat s.args.slen.toNat s.args.dst.toNat s.args.dcap.toNat ∧
        ¬s.inDmem s.args.tbl.toNat (2 * s.args.alpha.toNat)) ∧
    (let s := loaded [0, 0, 0, 1] { withTable 4 1 2 with dst := 3 };
      s.inDmem s.args.src.toNat s.args.slen.toNat ∧ s.inDmem s.args.dst.toNat s.args.dcap.toNat ∧
        ¬apart s.args.src.toNat s.args.slen.toNat s.args.dst.toNat s.args.dcap.toNat ∧
        s.inDmem s.args.tbl.toNat (2 * s.args.alpha.toNat)) ∧
    (let s := loaded [0, 0, 0, 1] { withTable 4 1 2 with tbl := 4093 };
      s.byteReady (s.cfg.maxBlock + s.cfg.maxBlock / 4) ∧ ¬s.inDmem s.args.tbl.toNat (2 * 2)) ∧
    (let s := loaded [0, 0, 0, 1] { withTable 4 1 2 with tbl := 61 };
      s.inDmem s.args.tbl.toNat (2 * 2) ∧ apart s.args.tbl.toNat (2 * 2) s.args.src.toNat s.args.slen.toNat ∧
        ¬apart s.args.tbl.toNat (2 * 2) s.args.dst.toNat s.args.dcap.toNat) ∧
    (∃ v ∈ (loaded [0, 0, 2, 1] (withTable 4 1 2)).block, 2 ≤ v.toNat) := by decide +kernel

/-- The remaining clauses of the same statement: two symbols coded, a coded stream too long, one symbol. -/
theorem witness_FseEncWritesCompressedBlock :
    (let s := loaded [0, 0, 0, 1] (withTable 4 1 2);
      2 = s.args.alpha.toNat ∧ 2 = (s.block.map BitVec.toNat).foldl max 0 + 1 ∧
        s.byteReady (s.cfg.maxBlock + s.cfg.maxBlock / 4) ∧ s.args.slen.toNat ≠ 0 ∧
        s.inDmem s.args.tbl.toNat (2 * 2) ∧ apart s.args.tbl.toNat (2 * 2) s.args.src.toNat s.args.slen.toNat ∧
        apart s.args.tbl.toNat (2 * 2) s.args.dst.toNat s.args.dcap.toNat ∧ (∀ v ∈ s.block, v.toNat < 2) ∧
        s.block.map BitVec.toNat = [0, 0, 0, 1] ∧ [0x50].length ≤ s.args.dcap.toNat) ∧
    (withTable 4 0 2).dcap.toNat < [0x50].length ∧
    let s := loaded [0, 0, 0] (withTable 3 8 0)
    1 = (s.block.map BitVec.toNat).foldl max 0 + 1 ∧ s.byteReady (s.cfg.maxBlock + s.cfg.maxBlock / 4) ∧
      s.args.slen.toNat ≠ 0 ∧ s.inDmem s.args.tbl.toNat (2 * 1) ∧
      apart s.args.tbl.toNat (2 * 1) s.args.src.toNat s.args.slen.toNat ∧
      apart s.args.tbl.toNat (2 * 1) s.args.dst.toNat s.args.dcap.toNat ∧ (∀ v ∈ s.block, v.toNat < 1) ∧
      compress (s.block.map BitVec.toNat) 1 = .error .tableFull := by decide +kernel

/-- OLEN over its limit; TOFF 8, and 1 with no coded byte; the table past DMEM; a destination of one byte on the table; one
byte too little; then the coded block of T6, with its final state and with one below `L`. -/
theorem witness_FseDecWritesDecodedBlock :
    1125000 < (1125001 : Word).toNat ∧ 7 < (8 : Word).toNat ∧ (0 < (1 : Word).toNat ∧ (withTable 0 8 2).slen.toNat = 0) ∧
    (let s := { codedTwo 76 with regs := { withTable 1 8 2 with tbl := 4093 } };
      ¬s.inDmem s.args.tbl.toNat (2 * 2)) ∧
    (let s := { codedTwo 76 with regs := { withTable 1 1 2 with dst := 35 } };
      s.inDmem s.args.dst.toNat s.args.dcap.toNat ∧
        ¬apart s.args.dst.toNat s.args.dcap.toNat s.args.tbl.toNat (2 * 2)) ∧
    (let s := { codedTwo 76 with regs := { withTable 1 3 2 with olen := 4 } };
      apart s.args.dst.toNat s.args.dcap.toNat s.args.tbl.toNat (2 * 2) ∧ s.args.dcap.toNat < s.args.olen.toNat) ∧
    let s := codedTwo 76
    2 = s.args.alpha.toNat ∧ s.args.olen.toNat ≤ s.cfg.maxBlock + s.cfg.maxBlock / 4 ∧
      ¬(7 < s.args.toff.toNat ∨ (0 < s.args.toff.toNat ∧ s.args.slen.toNat = 0)) ∧
      s.inDmem s.args.src.toNat s.args.slen.toNat ∧ s.inDmem s.args.tbl.toNat (2 * 2) ∧
      s.inDmem s.args.dst.toNat s.args.dcap.toNat ∧
      apart s.args.dst.toNat s.args.dcap.toNat s.args.src.toNat s.args.slen.toNat ∧
      apart s.args.dst.toNat s.args.dcap.toNat s.args.tbl.toNat (2 * 2) ∧ s.args.olen.toNat ≤ s.args.dcap.toNat ∧
      [48, 16] = (List.range 2).map (fun q => s.memRead16 (s.args.tbl.toNat + 2 * q)) ∧
      decompress s.block [48, 16] s.args.toff.toNat s.args.fstate.toNat 2 s.args.olen.toNat = .ok [0, 0, 0, 1] ∧
      decompress s.block [48, 16] s.args.toff.toNat 63 2 s.args.olen.toNat = .error .stateRange := by decide +kernel

/-- 32 bits that end exactly at WLIM. -/
theorem witness_BsPutWritesField : let s := bitStream 4 0 0xDEADBEEF
    1 ≤ 32 ∧ s.args.wbit.toNat ≤ 7 ∧ s.args.wptr.toNat ≤ s.args.wlim.toNat ∧
      s.inDmem s.args.wptr.toNat (s.args.wlim.toNat - s.args.wptr.toNat) ∧
      8 * s.args.wptr.toNat + s.args.wbit.toNat + 32 ≤ 8 * s.args.wlim.toNat := by decide +kernel

/-- Three bytes at 0 to read from (0, 4): 20 bits up to RLIM. -/
def reading (rptr rbit rlim : Nat) : State :=
  loaded [0x21, 0x43, 0x65]
    { ArgRegs.reset with rptr := Word.ofInt rptr, rbit := Word.ofInt rbit, rlim := Word.ofInt rlim }

theorem witness_BsGetReadsField : let s := reading 0 4 3
    s.args.rbit.toNat ≤ 7 ∧ s.args.rptr.toNat ≤ s.args.rlim.toNat ∧
      s.inDmem s.args.rptr.toNat (s.args.rlim.toNat - s.args.rptr.toNat) ∧
      8 * s.args.rptr.toNat + s.args.rbit.toNat + 20 ≤ 8 * s.args.rlim.toNat := by decide +kernel

/-- NBITS 0 and 33; WBIT and RBIT 8; a limit below the pointer; a range one byte past DMEM; one bit too many. -/
theorem witness_BitCommandsCheckInOrder :
    ¬(1 ≤ 0 ∧ 0 ≤ 32) ∧ ¬(1 ≤ 33 ∧ 33 ≤ 32) ∧ 7 < (bitStream 0 8 0).args.wbit.toNat ∧
    (bitStream 9 0 0).args.wlim.toNat < (bitStream 9 0 0).args.wptr.toNat ∧ 7 < (reading 0 8 3).args.rbit.toNat ∧
    (reading 4 0 3).args.rlim.toNat < (reading 4 0 3).args.rptr.toNat ∧
    (let s := reading 4095 7 4097;
      s.args.rbit.toNat ≤ 7 ∧ s.args.rptr.toNat ≤ s.args.rlim.toNat ∧
        ¬s.inDmem s.args.rptr.toNat (s.args.rlim.toNat - s.args.rptr.toNat)) ∧
    (let s := { State.reset with regs := { ArgRegs.reset with wptr := 4095, wlim := 4097 } };
      ¬s.inDmem s.args.wptr.toNat (s.args.wlim.toNat - s.args.wptr.toNat)) ∧
    (let s := bitStream 4 1 0;
      s.inDmem s.args.wptr.toNat (s.args.wlim.toNat - s.args.wptr.toNat) ∧
        8 * s.args.wlim.toNat < 8 * s.args.wptr.toNat + s.args.wbit.toNat + 32) ∧
    let s := reading 0 4 3
    s.inDmem s.args.rptr.toNat (s.args.rlim.toNat - s.args.rptr.toNat) ∧
      8 * s.args.rlim.toNat < 8 * s.args.rptr.toNat + s.args.rbit.toNat + 21 := by decide +kernel

theorem witness_BitCursorsNeverWrap : GivesNext (exec (.bsPut 32) (bitStream 4 0 0)) (fun t => !t.status.fault) ∧
    GivesNext (exec (.bsGet 20) (reading 0 4 3)) (fun t => !t.status.fault) :=
  ⟨next_of_holds (by decide +kernel), next_of_holds (by decide +kernel)⟩

/-- WBIT 8; WLIM past DMEM by one byte; the block on the last byte of `W_span`; then the raw frame of one byte, 88 bits, with
room for exactly 11 bytes and with room for 10. -/
theorem witness_FrameEncWritesFrame :
    900000 < (frameRegs 900001).slen.toNat ∧ 7 < (8 : Word).toNat ∧
    (let s := { blockAt64 [0x61] with regs := { frameRegs 1 with wptr := 4096, wlim := 4097 } };
      ¬s.inDmem s.args.wptr.toNat (s.args.wlim.toNat - s.args.wptr.toNat)) ∧
    (let s := { blockAt64 [0x61] with regs := { frameRegs 1 with wlim := 65 } };
      s.inDmem s.args.wptr.toNat (s.args.wlim.toNat - s.args.wptr.toNat) ∧
        ¬apart s.args.src.toNat s.args.slen.toNat s.args.wptr.toNat (s.args.wlim.toNat - s.args.wptr.toNat)) ∧
    (let s := { blockAt64 [0x61] with regs := { frameRegs 1 with wlim := 11 } };
      s.args.slen.toNat ≤ s.cfg.maxBlock ∧ s.args.wbit.toNat ≤ 7 ∧ s.args.wptr.toNat ≤ s.args.wlim.toNat ∧
        s.inDmem s.args.src.toNat s.args.slen.toNat ∧
        s.inDmem s.args.wptr.toNat (s.args.wlim.toNat - s.args.wptr.toNat) ∧
        apart s.args.src.toNat s.args.slen.toNat s.args.wptr.toNat (s.args.wlim.toNat - s.args.wptr.toNat) ∧
        8 * s.args.wptr.toNat + s.args.wbit.toNat + (fieldBits (frameBuild s.block true true).fields).length
          ≤ 8 * s.args.wlim.toNat) ∧
    let s := { blockAt64 [0x61] with regs := { frameRegs 1 with wlim := 10 } }
    apart s.args.src.toNat s.args.slen.toNat s.args.wptr.toNat (s.args.wlim.toNat - s.args.wptr.toNat) ∧
      8 * s.args.wlim.toNat
        < 8 * s.args.wptr.toNat + s.args.wbit.toNat + (fieldBits (frameBuild s.block true true).fields).length := by
  decide +kernel

/-- RLIM below RPTR; RLIM past DMEM; the destination on the last byte of `R_span`; a raw frame that decodes, and one cut
short. -/
theorem witness_FrameDecWritesBlock :
    (reading 4 0 3).args.rlim.toNat < (reading 4 0 3).args.rptr.toNat ∧
    (let s := reading 0 0 4097;
      ¬s.inDmem s.args.rptr.toNat (s.args.rlim.toNat - s.args.rptr.toNat)) ∧
    (let s := { frameAt0 [1, 1, 0, 0] with regs := { (frameAt0 [1, 1, 0, 0]).regs with dst := 3, dcap := 1 } };
      s.inDmem s.args.rptr.toNat (s.args.rlim.toNat - s.args.rptr.toNat) ∧
        s.inDmem s.args.dst.toNat s.args.dcap.toNat ∧
        ¬apart s.args.rptr.toNat (s.args.rlim.toNat - s.args.rptr.toNat) s.args.dst.toNat s.args.dcap.toNat) ∧
    (let s := frameAt0 [1, 1, 0, 0, 0, 0, 1, 0, 0, 0, 0x61];
      s.args.rbit.toNat ≤ 7 ∧ s.args.rptr.toNat ≤ s.args.rlim.toNat ∧
        s.inDmem s.args.rptr.toNat (s.args.rlim.toNat - s.args.rptr.toNat) ∧
        s.inDmem s.args.dst.toNat s.args.dcap.toNat ∧
        apart s.args.rptr.toNat (s.args.rlim.toNat - s.args.rptr.toNat) s.args.dst.toNat s.args.dcap.toNat ∧
        s.frameDecode (8 * s.args.rlim.toNat) (8 * s.args.rptr.toNat + s.args.rbit.toNat) s.args.dcap.toNat =
          .ok ({ last := 1, rot := 0, body := .raw [0x61], pos := 88 }, [0x61])) ∧
    let s := frameAt0 [1, 1, 0, 0, 0, 0, 1, 0, 0, 0]
    s.frameDecode (8 * s.args.rlim.toNat) (8 * s.args.rptr.toNat + s.args.rbit.toNat) s.args.dcap.toNat =
      .error .truncated := by decide +kernel

/-- A flag of 2; a mode of 2; alphabet sizes 0 and 257; recoded lengths 0 and 1125001 in an entropy-coded frame, 1125001
in a raw one; limits one bit short of each field. -/
theorem witness_FrameFieldsAreCheckedInOrder :
    (7 < 0 + 8) ∧ 1 < (frameAt0 [2]).readField 0 8 ∧
    ((frameAt0 [0]).readField 0 8 ≤ 1 ∧ 15 < 0 + 16) ∧ 1 < (frameAt0 [0, 2]).readField (0 + 8) 8 ∧
    ((frameAt0 [0, 1]).readField (0 + 8) 8 = 1 ∧ 47 < 0 + 48) ∧
    ((frameAt0 [0, 0, 0, 0, 0, 0, 0, 0]).readField 8 8 = 0 ∧ (frameAt0 [0, 0, 0, 0, 0, 0, 0, 0]).readField 48 16 = 0 ∧
      63 < 0 + 64) ∧
    256 < (frameAt0 [0, 0, 0, 0, 0, 0, 1, 1]).readField 48 16 ∧
    (let s := frameAt0 [0, 0, 0, 0, 0, 0, 0, 1, 0, 0, 0, 0];
      s.readField 48 16 = 256 ∧ s.readField 64 32 = 0) ∧
    (let s := frameAt0 [0, 0, 0, 0, 0, 0, 1, 0, 0x89, 0x2A, 0x11, 0];
      s.readField 48 16 = 1 ∧ s.cfg.maxBlock + s.cfg.maxBlock / 4 < s.readField 64 32 ∧ 95 < 0 + 96) ∧
    (let s := frameAt0 f19;
      s.readField 8 8 = 0 ∧ s.readField 48 16 = 2 ∧ s.readField 64 32 = 19 ∧ s.readField (0 + 136 + 16 * 2) 32 = 3 ∧
        199 < 0 + 168 + 16 * 2 ∧ 0 + 168 + 16 * 2 ≤ 223 ∧ 223 < 0 + 168 + 16 * 2 + 8 * 3 ∧
        0 + 168 + 16 * 2 + 8 * 3 ≤ 224) ∧
    (let s := frameAt0 [0, 1, 0, 0, 0, 0, 0x89, 0x2A, 0x11, 0];
      s.readField 8 8 = 1 ∧ s.cfg.maxBlock + s.cfg.maxBlock / 4 < s.readField 48 32 ∧ 79 < 0 + 80) ∧
    let s := frameAt0 [0, 1, 0, 0, 0, 0, 1, 0, 0, 0]
    s.readField 48 32 ≤ s.cfg.maxBlock + s.cfg.maxBlock / 4 ∧ 87 < 0 + 80 + 8 * s.readField 48 32 := by decide +kernel

/-- The second part: the frames of T9 with a bad flag, with a bad final state, with ROT above the block's length, with a
capacity one too small, with a pair that no block produces, and one that decodes; a block longer than MAX_BLOCK. -/
theorem witness_FrameFieldsAreCheckedInOrder_block :
    (frameAt0 [2]).parseFrame 8 0 = .error .lastFlag ∧
    decompress [0x0B, 0x37, 0x60] [34, 30] 5 63 2 19 = .error .stateRange ∧
    (let r := bytes [0x62, 0x6E, 0, 0x63, 0, 0];
      (rleDecode r).length < 7 ∧ 5 < (rleDecode r).length ∧ inverse (mtfDecode (rleDecode r)) 3 ≠ none) ∧
    inverse (mtfDecode (rleDecode [0x61])) 1 = none ∧ 8 < (rleDecode [0, 0, 0, 0, 5]).length := by decide +kernel

/-! #### The algorithms -/

theorem witness_SuffixOrderSortsSuffixesAndRotations :
    let a := (bytes [1, 1]).map BitVec.toNat ++ [256]
    [0, 1, 2].Perm (List.range 3) ∧ [0, 1, 2].Pairwise (fun i j => a.drop i < a.drop j) := by decide +kernel

theorem witness_MtfDecodeUndoesEncode : (moveToFront recencyInit 255 255).Perm recencyInit := by decide +kernel

/-- A run of 259 + 4 zeros between non-zero bytes, and one at both ends of the block. -/
theorem witness_RunLengthProperties :
    (∃ u v, ([7] : List Byte) = u ++ [v] ∧ v ≠ 0) ∧ (∃ v w, ([9] : List Byte) = v :: w ∧ v ≠ 0) :=
  ⟨⟨[], 7, by decide, by decide⟩, ⟨9, [], by decide, by decide⟩⟩

theorem witness_NormalizedTableIsValid : [0] ≠ [] ∧ (∀ v ∈ [0], v < 1) ∧ [255] ≠ [] ∧ ∀ v ∈ [255], v < 256 := by decide

theorem witness_BuildGivesEachSymbolItsStates : validTable [48, 16] 2 = true ∧ (buildTables [48, 16] 2).isSome = true := by
  decide +kernel

theorem witness_EncodingAndDecodingTablesAgree : (buildTables [48, 16] 2).isSome = true := by decide +kernel

theorem witness_EncoderNeverUnderflows : ∀ v ∈ [0, 0, 0, 1], v < 2 := by decide

/-- The block of T6, and the first step of its encoder trace: state 127, symbol 0, one bit emitted, state 85. -/
theorem witness_DecompressUndoesCompress : (∀ v ∈ [0, 0, 0, 1], v < 2) ∧
    compress [0, 0, 0, 1] 2 = .ok { coded := [0x50], freq := [48, 16], toff := 4, final := 76 } ∧
    validTable [48, 16] 2 = true ∧ 2 ^ (bitLength 2 + 4) ≤ 127 ∧ 127 < 2 ^ (bitLength 2 + 5) ∧
    (buildTables [48, 16] 2).map (fun t => encodeSymbol [48, 16] 2 t 127 0) = some (.ok ([true], 85)) :=
  ⟨by decide, test_compress_two, by decide +kernel, by decide +kernel, by decide +kernel, by decide +kernel⟩

theorem witness_PackedBitsAreWhereTheyBelong : 8 < (List.replicate 9 true).length ∧ 6 < (pack (List.replicate 9 true)).2 := by
  decide +kernel

/-- A bad offset, a bad table and the table of one symbol; states on both sides of the range; and for the block of T6 each
end of the loop: decoded, one symbol too few, one too many, and from a state from which the bits do not last. -/
theorem witness_DecompressChecksInOrder :
    (7 < 8 ∨ (0 < 8 ∧ ([0x50] : List Byte).length = 0)) ∧ (0 < 1 ∧ ([] : List Byte).length = 0) ∧
    [48, 15].sum ≠ 2 ^ (bitLength 2 + 4) ∧ [32].sum = 2 ^ (bitLength 1 + 4) ∧ buildTables [32] 1 = none ∧
    ([48, 16].sum = 2 ^ (bitLength 2 + 4) ∧ (∀ x ∈ [48, 16], 1 ≤ x) ∧ (buildTables [48, 16] 2).isSome = true) ∧
    decompress [0x50] [48, 16] 4 63 2 4 = .error .stateRange ∧ decompress [0x50] [48, 16] 4 128 2 4 = .error .stateRange ∧
    decompress [0x50] [48, 16] 4 76 2 4 = .ok [0, 0, 0, 1] ∧ decompress [0x50] [48, 16] 4 76 2 3 = .error .trailing ∧
    decompress [0x50] [48, 16] 4 127 2 0 = .error .trailing ∧
    decompress [0x50] [48, 16] 4 64 2 4 = .error .bitsExhausted := by decide +kernel

/-- B19 is framed by the entropy coder; three zeros fail to code; the raw frame of two bytes is the shorter. -/
theorem witness_FrameModeIsTheShorter :
    (frameBuild (bytes b19) false false).why = 0 ∧ (bytes b19).length ≤ 2 ^ 31 ∧
    compress (symbols (recodedBlock (bytes b19)).1) (denseAlphabet (recodedBlock (bytes b19)).1) =
      .ok { coded := [0x0B, 0x37, 0x60], freq := [34, 30], toff := 5, final := 120 } ∧
    compress (symbols (recodedBlock [0, 0, 0]).1) (denseAlphabet (recodedBlock [0, 0, 0]).1) = .error .tableFull ∧
    (frameBuild [1, 0] false false).why = 3 := by decide +kernel

theorem witness_FrameRoundTrip : State.reset.cfg.wf ∧ (bytes b19).length ≤ State.reset.cfg.maxBlock ∧
    (bytes b19).length ≤ 19 ∧ 3 + (fieldBits (frameBuild (bytes b19) true false).fields).length ≤ 3 + 8 * 28 := by
  decide +kernel

end Sys2Proof.Tests
end

section
/-! PROOFS. The state of the engine (10_state.md): reset and what it leaves of DMEM (R44, R400 to R402), the argument
registers (R32), STATUS (R33), and the register window (R31, R86, R87). -/

namespace Sys2Proof.Machine

/-! ### Bits of a DMEM byte left unspecified -/

/-- The `keep` low bits of a mixed byte are the old ones, the others the new ones (40_command_lifecycle.md R136). -/
theorem getLsbD_mixByte (keep : Nat) (old new : Byte) {j : Nat} (hj : j < 8) :
    (mixByte keep old new).getLsbD j = if j < keep then old.getLsbD j else new.getLsbD j := by
  have hmask : (BitVec.ofNat 8 (2 ^ keep - 1)).getLsbD j = decide (j < keep) := by
    rw [BitVec.getLsbD_ofNat, Nat.testBit_two_pow_sub_one, decide_eq_true hj, Bool.true_and]
  unfold mixByte
  by_cases h0 : keep = 0
  · simp [h0]
  · rw [if_neg h0]
    simp only [BitVec.getLsbD_or, BitVec.getLsbD_and, BitVec.getLsbD_not, hmask, hj]
    by_cases hk : j < keep <;> simp [hk]

theorem State.getBit_setByte (s : State) (a : Nat) (v : Byte) (p : Nat) :
    (s.setByte a v).getBit p = if p / 8 = a then v.getLsbD (p % 8) else s.getBit p := by
  unfold State.getBit
  rw [State.byteAt_setByte]
  split <;> rfl

/-- A draw changes no bit before the `keep` low bits of its first byte end, and none past its last byte. -/
theorem State.getBit_drawBytes_outside (s : State) (k : Nat) {keep a n p : Nat} (hk : keep ≤ 8)
    (hp : ¬(8 * a + keep ≤ p ∧ p < 8 * (a + n))) : (s.drawBytes k keep a n).getBit p = s.getBit p := by
  induction n generalizing s keep a with
  | zero => rfl
  | succ n ih =>
    rw [State.drawBytes, ih _ (Nat.zero_le 8) (by omega), State.getBit_setByte]
    split
    · rename_i ha
      have hlow : p % 8 < keep := by omega
      rw [getLsbD_mixByte keep _ _ (Nat.mod_lt p (by omega)), if_pos hlow, ← ha]
      rfl
    · rfl

theorem State.getBit_drawSpan_outside (s : State) (k : Nat) {sp : Span} {p : Nat} (hk : sp.keep ≤ 8)
    (hp : ¬(8 * sp.addr + sp.keep ≤ p ∧ p < 8 * (sp.addr + sp.len))) : (s.drawSpan k sp).getBit p = s.getBit p :=
  State.getBit_drawBytes_outside s k hk (by omega)

/-- Leaving ranges unspecified changes no bit outside them; the kept low bits of a range are outside it (R133, R136). -/
theorem State.getBit_unspecified_outside (s : State) {spans : List Span} {p : Nat} (hk : ∀ sp ∈ spans, sp.keep ≤ 8)
    (hp : ∀ sp ∈ spans, ¬(8 * sp.addr + sp.keep ≤ p ∧ p < 8 * (sp.addr + sp.len))) :
    (s.unspecified spans).getBit p = s.getBit p := by
  have fold : ∀ (k : Nat) (t : State), (spans.foldl (fun t sp => t.drawSpan k sp) t).getBit p = t.getBit p := by
    intro k
    induction spans with
    | nil => intro t; rfl
    | cons sp spans ih =>
      intro t
      obtain ⟨hk₀, hk⟩ := List.forall_mem_cons.1 hk
      obtain ⟨hp₀, hp⟩ := List.forall_mem_cons.1 hp
      rw [List.foldl_cons, ih hk hp, State.getBit_drawSpan_outside t k hk₀ hp₀]
  exact fold _ _

/-- A command keeps at most the low bits of one byte of a range it may write (R136). -/
theorem State.keep_le_of_mem_writtenSpans {s : State} {i : Instr} {sp : Span} (h : sp ∈ s.writtenSpans i) :
    sp.keep ≤ 8 := by
  have htbl : ∀ autoa, sp ∈ s.tblSpans autoa → sp.keep = 0 := by
    intro autoa hsp
    unfold State.tblSpans at hsp
    split at hsp
    · cases hsp
    · rw [List.mem_singleton.1 hsp]; rfl
  have hdst : sp ∈ [s.dstSpan] → sp.keep = 0 := fun hsp => by rw [List.mem_singleton.1 hsp]; rfl
  have hw : sp ∈ [s.wSpan] → sp.keep ≤ 8 := fun hsp => by rw [List.mem_singleton.1 hsp]; exact Nat.min_le_right ..
  cases i with
  | nop | bsGet => cases h
  | fseNorm autoa => exact (htbl autoa h).trans_le (Nat.zero_le 8)
  | fseEnc autoa => exact ((List.mem_append.1 h).elim (htbl autoa) hdst).trans_le (Nat.zero_le 8)
  | bsPut | frameEnc => exact hw h
  | bwtFwd | bwtInv | mtfEnc | mtfDec | rleEnc | rleDec | fseBuild | fseDec | frameDec =>
    exact (hdst h).trans_le (Nat.zero_le 8)

/-! ### The reset operations (70_reset_and_hazards.md R400 to R402) -/

theorem State.abandon_idle {s : State} (h : s.seq = .idle) : s.abandon = s := by simp [State.abandon, h]

theorem State.abandon_run {s : State} {w : Word} {a : ArgRegs} (h : s.seq = .run w a) :
    s.abandon = s.unspecified s.runningWritten := by simp [State.abandon, h]

theorem State.runningWritten_run {s : State} {w : Word} {a : ArgRegs} {i : Instr} (h : s.seq = .run w a)
    (hd : decodeWord w = .ok i) : s.runningWritten = s.writtenSpans i := by
  simp [State.runningWritten, State.running_run h hd]

theorem State.runningWritten_illegal {s : State} {w : Word} {a : ArgRegs} {e : Reject} (h : s.seq = .run w a)
    (hd : decodeWord w = .error e) : s.runningWritten = [] := by
  simp [State.runningWritten, State.running_illegal h hd]

/-- Abandoning a command changes `mem` and counts the event; nothing else. -/
theorem State.abandon_eq (s : State) : s.abandon = { s with mem := s.abandon.mem, draws := s.abandon.draws } := by
  cases hb : s.busy with
  | false => rw [State.abandon_idle (s.busy_eq_false.1 hb)]
  | true =>
    obtain ⟨w, a, hs⟩ := s.busy_iff.1 hb
    rw [State.abandon_run hs]
    exact State.unspecified_eq s s.runningWritten

@[simp] theorem State.abandon_cfg (s : State) : s.abandon.cfg = s.cfg := by rw [State.abandon_eq]

@[simp] theorem State.abandon_epoch (s : State) : s.abandon.epoch = s.epoch := by rw [State.abandon_eq]

@[simp] theorem State.resetEngine_byteAt (s : State) (a : Nat) : s.resetEngine.byteAt a = s.abandon.byteAt a := rfl

@[simp] theorem State.resetEngine_getBit (s : State) (p : Nat) : s.resetEngine.getBit p = s.abandon.getBit p := rfl

/-- A power-on resets the registers too; it differs from a reset in DMEM alone (R400). -/
theorem State.powerCycle_eq (s : State) :
    s.powerCycle = { s.abandon with mem := [], epoch := s.epoch + 1 }.resetRegisters := rfl

/-- A CTRL write with SRST set is a soft reset (10_state.md R34, R401). -/
theorem State.writeReg_ctrl_srst (s : State) {v : Word} (hv : v.getLsbD 1 = true) :
    s.writeReg .ctrl v = s.resetEngine := if_pos hv

/-- A hard reset that is no power-on and a soft reset have the same effect (R400, R401). -/
theorem eq_resetEngine_of_reset {s t : State}
    (h : takeTurn s .hardReset = .next t ∨ ∃ v : Word, v.getLsbD 1 = true ∧ t = s.writeReg .ctrl v) :
    t = s.resetEngine := by
  rcases h with h | ⟨v, hv, rfl⟩
  · exact (Host.Outcome.next.inj h).symm
  · exact s.writeReg_ctrl_srst hv

theorem eq_powerCycle_of_powerOn {s t : State} (h : takeTurn s .powerOn = .next t) : t = s.powerCycle :=
  (Host.Outcome.next.inj h).symm

/-! ### What the host reads after a reset (10_state.md R44) -/

/-- Every field of STATUS, BUSY included, is 0. -/
@[simp] theorem State.resetRegisters_statusWord (s : State) : s.resetRegisters.statusWord = 0 := rfl

@[simp] theorem State.resetRegisters_ctrlWord (s : State) : s.resetRegisters.ctrlWord = 0 := rfl

@[simp] theorem State.resetRegisters_irq (s : State) : s.resetRegisters.irq = false := rfl

/-- Every argument register, the ones a write can store in, and every result register reads 0. -/
theorem State.resetRegisters_readReg (s : State) {a : ArgRegs} {r : Reg}
    (hr : (a.put 0 r).isSome = true ∨ r ∈ [Reg.rlen, .prec, .nrec, .clen]) : s.resetRegisters.readReg r = 0 := by
  cases r with
  | id | cmd | status | ctrl | maxblk | dmemsz => simp [ArgRegs.put] at hr
  | src | slen | dst | dcap | tbl | alpha | rot | toff | fstate | olen | wptr | wbit | wlim | rptr | rbit | rlim
  | bsval => rfl
  | rlen | prec | nrec | clen => rfl

/-! ### What a reset leaves of DMEM (R400 to R402) -/

theorem State.sameBytes_resetEngine_idle {s : State} (h : s.seq = .idle) : s.sameBytes s.resetEngine := fun a => by
  rw [State.resetEngine_byteAt, State.abandon_idle h]

theorem State.sameBytes_resetEngine_illegal {s : State} {w : Word} {a : ArgRegs} {e : Reject} (h : s.seq = .run w a)
    (hd : decodeWord w = .error e) : s.sameBytes s.resetEngine := fun x => by
  rw [State.resetEngine_byteAt, State.abandon_run h, State.runningWritten_illegal h hd]
  exact State.byteAt_unspecified_outside s [] x (by simp)

theorem State.writesOnly_resetEngine {s : State} {w : Word} {a : ArgRegs} {i : Instr} (h : s.seq = .run w a)
    (hd : decodeWord w = .ok i) : s.writesOnly s.resetEngine i := fun p hp => by
  rw [State.resetEngine_getBit, State.abandon_run h, State.runningWritten_run h hd]
  exact State.getBit_unspecified_outside s (fun _ => State.keep_le_of_mem_writtenSpans) hp

theorem State.powerCycle_byteAt (s : State) (a : Nat) :
    s.powerCycle.byteAt a = Config.powerOnByte (s.epoch + 1) a := by
  simp [State.byteAt, Memory.get?]

/-- Settles O8. A hard and a soft reset are both `resetEngine`, and each of the three resets is `resetRegisters` of a state
with the same parameters; DMEM follows from the ranges that an abandoned command may write. -/
theorem resetLeavesRegistersZero : Obligations.ResetLeavesRegistersZero := by
  refine ⟨fun s t h => ?_, fun s t h => ?_, fun s t h a => ?_⟩
  · obtain ⟨x, rfl, hx⟩ : ∃ x : State, t = x.resetRegisters ∧ x.cfg = s.cfg := by
      rcases h with h | h | h
      · exact ⟨s.abandon, eq_resetEngine_of_reset (.inl h), s.abandon_cfg⟩
      · exact ⟨s.abandon, eq_resetEngine_of_reset (.inr h), s.abandon_cfg⟩
      · exact ⟨_, (eq_powerCycle_of_powerOn h).trans s.powerCycle_eq, s.abandon_cfg⟩
    exact ⟨rfl, x.resetRegisters_statusWord, x.resetRegisters_ctrlWord, x.resetRegisters_irq,
      fun r hr => x.resetRegisters_readReg hr, rfl, congrArg (fun c : Config => Word.ofInt c.maxBlock) hx,
      congrArg (fun c : Config => Word.ofInt c.dmemSize) hx⟩
  · obtain rfl := eq_resetEngine_of_reset h
    exact ⟨State.sameBytes_resetEngine_idle, fun w a e => State.sameBytes_resetEngine_illegal,
      fun w a i => State.writesOnly_resetEngine⟩
  · rw [eq_powerCycle_of_powerOn h, State.powerCycle_byteAt]

/-! ### The invariant after reset -/

theorem State.resetWith_inv {c : Config} (hc : c.wf) : (State.resetWith c).Inv := by
  have hmem : (State.resetWith c).memInv := ⟨List.Pairwise.nil, fun _ h => absurd h List.not_mem_nil⟩
  have hcode : (State.resetWith c).codeInv := by simp [State.codeInv, State.resetWith, Status.reset]
  exact ⟨hc, hmem, trivial, hcode⟩

/-- Settles O7. -/
theorem resetSatisfiesInvariant : Obligations.ResetSatisfiesInvariant := by
  have hdefault : Config.default.wf := by decide
  exact ⟨fun _ => State.resetWith_inv, hdefault, State.resetWith_inv hdefault⟩

/-! ### The argument registers (R32, R410) -/

/-- While no command runs, a write to an argument register stores the value as `ArgRegs.put` says, and does nothing else. -/
theorem State.writeReg_of_put {s : State} {r : Reg} {v : Word} {a : ArgRegs} (hs : s.seq = .idle)
    (ha : s.regs.put v r = some a) : s.writeReg r v = s.setRegs a := by
  have hb : s.busy = false := s.busy_eq_false.2 hs
  cases r with
  | id | cmd | status | ctrl | rlen | prec | nrec | clen | maxblk | dmemsz => cases ha
  | src | slen | dst | dcap | tbl | alpha | rot | toff | fstate | olen | wptr | wbit | wlim | rptr | rbit | rlim
  | bsval => simp [State.writeReg, hb, ha]

/-- Settles O12: the rows of the statement are the cases of `ArgRegs.put`. -/
theorem argumentRegisterHoldsWhatIsWritten : Obligations.ArgumentRegisterHoldsWhatIsWritten := by
  intro s r v a hs hra
  have hput : s.regs.put v r = some a :=
    List.forall_iff_forall_mem (p := fun x : Reg × ArgRegs => s.regs.put v x.1 = some x.2) |>.1
      (by simp [ArgRegs.put]) (r, a) hra
  have hw : s.writeReg r v = s.setRegs a := State.writeReg_of_put hs hput
  exact ⟨hw, by rw [hw, State.args_idle (s.setRegs_seq a ▸ hs), State.setRegs_regs]⟩

/-! ### STATUS (R33) -/

/-- Bit `i` of a register that holds the integer `n`. -/
theorem Word.getLsbD_ofInt_eq {n i : Nat} {b : Bool} (hi : i < 32) (h : n / 2 ^ i % 2 = b.toNat) :
    (Word.ofInt n).getLsbD i = b := by
  rw [BitVec.getLsbD_ofNat, decide_eq_true hi, Bool.true_and, Nat.testBit_eq_decide_div_mod_eq, h]
  cases b <;> rfl

/-- The `w` bits from bit `i` on of a register that holds the integer `n`. -/
theorem Word.extractLsb'_ofInt_eq {n i w : Nat} {b : BitVec w} (hi : i + w ≤ 32) (h : n / 2 ^ i % 2 ^ w = b.toNat) :
    (Word.ofInt n).extractLsb' i w = b := by
  have hsplit : 2 ^ 32 = 2 ^ i * 2 ^ (32 - i) := by rw [← Nat.pow_add, Nat.add_sub_cancel' (by omega)]
  apply BitVec.eq_of_toNat_eq
  rw [BitVec.extractLsb'_toNat, BitVec.toNat_ofNat, Nat.shiftRight_eq_div_pow, hsplit, Nat.mod_mul_right_div_self,
    Nat.mod_mod_of_dvd _ (Nat.pow_dvd_pow 2 (by omega)), h]

/-- Settles O13. Each field of the word is a digit of a sum in mixed radix: a quotient by the weight of the field, taken
modulo its range. -/
theorem statusReadShowsItsFields : Obligations.StatusReadShowsItsFields := by
  intro s
  have h₀ := s.busy.toNat_lt
  have h₁ := s.status.done.toNat_lt
  have h₂ := s.status.fault.toNat_lt
  have h₃ := s.status.fail.toNat_lt
  have h₄ := s.status.last.toNat_lt
  have h₅ := s.status.mode.toNat_lt
  have h₆ := s.status.overrun.toNat_lt
  have hc := s.status.errcode.isLt
  have ho := s.status.lastop.isLt
  have hy := s.status.rawwhy.isLt
  refine ⟨?_, ?_, ?_, ?_, ?_, ?_, ?_, ?_, ?_, ?_, ?_, ?_⟩
  iterate 7 exact Word.getLsbD_ofInt_eq (by decide) (by omega)
  · exact Word.getLsbD_ofInt_eq (by decide) (show _ = 0 by omega)
  iterate 3 exact Word.extractLsb'_ofInt_eq (by decide) (by omega)
  · exact Word.extractLsb'_ofInt_eq (by decide) (show _ = 0 by omega)

theorem State.writeReg_status (s : State) (v : Word) : s.writeReg .status v = s.ackStatus v := rfl

/-- Settles O14: a STATUS write is `ackStatus`, which keeps all but the two flags. -/
theorem statusWriteClearsOnlyItsBits : Obligations.StatusWriteClearsOnlyItsBits := by
  intro s v
  have hflag : ∀ old clear : Bool, (old && !clear) = if clear then false else old := by decide
  rw [State.writeReg_status]
  exact ⟨hflag s.status.done (v.getLsbD 1), hflag s.status.overrun (v.getLsbD 6), rfl⟩

/-! ### The register window (R31, 20_memory.md R86, R87) -/

theorem Reg.offset_lt (r : Reg) : r.offset < 0x80 := by cases r <;> decide

theorem Reg.alignedWord_offset (r : Reg) : alignedWord r.offset 4 = true := by cases r <;> rfl

/-- No two registers share an offset (R31). -/
theorem Reg.atOffset_offset (r : Reg) : Reg.atOffset r.offset = some r := by cases r <;> rfl

theorem State.readWindow_offset (s : State) (r : Reg) : s.readWindow r.offset = s.readReg r := by
  rw [State.readWindow, Reg.atOffset_offset]

theorem State.writeWindow_offset (s : State) (r : Reg) (v : Word) : s.writeWindow r.offset v = s.writeReg r v := by
  rw [State.writeWindow, Reg.atOffset_offset]

theorem bytesOfWord_length (w : Word) : (bytesOfWord w).length = 4 := rfl

/-- The bytes of a word, the lowest first, make it up again (R72, R87). -/
theorem wordOfData_bytesOfWord (w : Word) : wordOfData (bytesOfWord w) = w := by
  apply BitVec.eq_of_toNat_eq
  have hw := w.isLt
  simp only [bytesOfWord, wordOfData, wordOfBytes, Word.ofInt, BitVec.toNat_ofNat]
  omega

theorem State.hostMove_read_offset (s : State) (r : Reg) :
    s.hostMove (.read (s.cfg.regBase + r.offset) 4) = .next { s with readData := bytesOfWord (s.readReg r) } := by
  simp only [State.hostMove, State.target_window s r.offset_lt, Reg.alignedWord_offset, State.readWindow_offset, if_true]

theorem State.hostMove_write_offset (s : State) (r : Reg) (v : Word) :
    s.hostMove (.write (s.cfg.regBase + r.offset) (bytesOfWord v)) = .next (s.writeReg r v) := by
  simp only [State.hostMove, State.target_window s r.offset_lt, bytesOfWord_length, Reg.alignedWord_offset,
    State.writeWindow_offset, wordOfData_bytesOfWord, if_true]

/-- CTRL reads IE in bit 0 and 0 elsewhere (R34). -/
theorem State.ctrlWord_eq (s : State) : s.ctrlWord = if s.ie then 1 else 0 := by
  unfold State.ctrlWord
  cases s.ie <;> rfl

/-- Settles O17: each row of the statement is a register's offset and the value it reads as; the accesses follow from those
two, for every register. -/
theorem registerMapOffsets : Obligations.RegisterMapOffsets := by
  intro s r off value hrow
  rw [← s.ctrlWord_eq] at hrow
  obtain ⟨rfl, rfl⟩ : r.offset = off ∧ s.readReg r = value :=
    List.forall_iff_forall_mem (p := fun x : Nat × Reg × Word => x.2.1.offset = x.1 ∧ s.readReg x.2.1 = x.2.2) |>.1
      (by simp [Reg.offset, State.readReg]) (off, r, value) hrow
  exact ⟨rfl, ⟨_, s.hostMove_read_offset r, rfl, bytesOfWord_length _, wordOfData_bytesOfWord _⟩, s.hostMove_write_offset r⟩

end Sys2Proof.Machine
end

section
/-! PROOFS. The host's accesses: the register window (20_memory.md R86) and DMEM, with the bytes a running command keeps
the host away from (R81, R87, 70_reset_and_hazards.md R412). -/

namespace Sys2Proof.Machine

/-! ### Accesses to the window (20_memory.md R86) -/

theorem alignedWord_iff (off width : Nat) : alignedWord off width = true ↔ width = 4 ∧ off % 4 = 0 := by
  simp [alignedWord]

theorem State.hostMove_read_window (s : State) {off : Nat} (h : off < 0x80) (width : Nat) :
    s.hostMove (.read (s.cfg.regBase + off) width) =
      if width = 4 ∧ off % 4 = 0 then .next { s with readData := bytesOfWord (s.readWindow off) }
      else .refused .registerAccess := by
  simp only [State.hostMove, s.target_window h, alignedWord_iff]

theorem State.hostMove_write_window (s : State) {off : Nat} (h : off < 0x80) (data : List Byte) :
    s.hostMove (.write (s.cfg.regBase + off) data) =
      if data.length = 4 ∧ off % 4 = 0 then .next (s.writeWindow off (wordOfData data))
      else .refused .registerAccess := by
  simp only [State.hostMove, s.target_window h, alignedWord_iff]

/-- The last register of the window is at 0x68 (R31). -/
theorem Reg.offset_le (r : Reg) : r.offset ≤ 0x68 := by cases r <;> decide

theorem Reg.atOffset_reserved {off : Nat} (h : 0x6C ≤ off) : Reg.atOffset off = none := by
  refine List.find?_eq_none.2 fun r _ => ?_
  have := r.offset_le
  simp only [beq_iff_eq]
  omega

theorem Reg.offset_of_atOffset {off : Nat} {r : Reg} (h : Reg.atOffset off = some r) : r.offset = off :=
  beq_iff_eq.1 (List.find?_some (p := fun r : Reg => r.offset == off) h)

theorem State.readWindow_reserved (s : State) {off : Nat} (h : 0x6C ≤ off) : s.readWindow off = 0 := by
  rw [State.readWindow, Reg.atOffset_reserved h]

theorem State.writeWindow_reserved (s : State) {off : Nat} (h : 0x6C ≤ off) (v : Word) : s.writeWindow off v = s := by
  rw [State.writeWindow, Reg.atOffset_reserved h]

/-- The constants and the result registers ignore writes (10_state.md R31, R32). -/
theorem State.writeWindow_readOnly (s : State) {off : Nat} (h : off ∈ [0x00, 0x38, 0x3C, 0x5C, 0x60, 0x64, 0x68])
    (v : Word) : s.writeWindow off v = s := by
  obtain ⟨r, hr, rfl⟩ : ∃ r ∈ [Reg.id, .rlen, .prec, .nrec, .clen, .maxblk, .dmemsz], r.offset = off :=
    List.mem_map.1 h
  rw [State.writeWindow_offset]
  fin_cases hr <;> rfl

/-- Settles O16. Inside the window an access is refused exactly where it is not an aligned word; which register answers
follows from its offset. -/
theorem windowTakesAlignedWordsOnly : Obligations.WindowTakesAlignedWordsOnly := by
  intro s off hoff
  refine ⟨fun width hw => ?_, fun data hd => ?_, fun ha hzero => ?_, fun data hlen ha hign => ?_⟩
  · rw [s.hostMove_read_window hoff, if_neg hw]
  · rw [s.hostMove_write_window hoff, if_neg hd]
  · have hread : s.readWindow off = 0 := by
      rcases hzero with h | rfl
      · exact s.readWindow_reserved h
      · exact s.readWindow_offset .cmd
    rw [s.hostMove_read_window hoff, if_pos ⟨rfl, ha⟩, hread]
    rfl
  · have hwrite : s.writeWindow off (wordOfData data) = s :=
      hign.elim (s.writeWindow_reserved · _) (s.writeWindow_readOnly · _)
    rw [s.hostMove_write_window hoff, if_pos ⟨hlen, ha⟩, hwrite]

/-! ### Accesses to DMEM (R81, R87, 70_reset_and_hazards.md R412) -/

theorem State.running_eq_some {s : State} {i : Instr} :
    s.running = some i ↔ ∃ w a, s.seq = .run w a ∧ decodeWord w = .ok i := by
  constructor
  · intro h
    unfold State.running at h
    split at h
    · cases h
    · split at h
      · obtain rfl := Option.some.inj h
        exact ⟨_, _, ‹_›, ‹_›⟩
      · cases h
  · rintro ⟨w, a, hs, hd⟩
    exact State.running_run hs hd

/-- An access races exactly where a range of the running command shares a byte with it. -/
theorem State.races_iff (s : State) (off width : Nat) :
    s.races off width = true ↔ ∃ i sp, s.running = some i ∧ sp ∈ s.readSpans i ++ s.writtenSpans i ∧
      sp.overlaps { addr := off, len := width } = true := by
  cases h : s.running with
  | none => simp [State.races, h]
  | some i => simp only [State.races, h, List.any_eq_true, Option.some.injEq, exists_and_left, exists_eq_left']

theorem State.races_eq_false {s : State} {off width : Nat}
    (h : ∀ i, s.running = some i → ∀ sp ∈ s.readSpans i ++ s.writtenSpans i, apart sp.addr sp.len off width) :
    s.races off width = false := by
  refine Bool.eq_false_iff.2 fun hr => ?_
  obtain ⟨i, sp, hi, hsp, ho⟩ := (s.races_iff off width).1 hr
  exact Bool.eq_false_iff.1 ((Span.overlaps_eq_false _ _).2 (h i hi sp hsp)) ho

theorem State.dmemAccess_refused {s : State} {off width : Nat} (hw : off + width ≤ s.cfg.dmemSize)
    (hr : s.races off width = true) (ok : State) : s.dmemAccess off width ok = .refused .hostRace := by
  rw [State.dmemAccess, if_neg (Nat.not_lt.2 hw), if_pos hr]

theorem State.dmemAccess_next {s : State} {off width : Nat} (hw : off + width ≤ s.cfg.dmemSize)
    (hr : s.races off width = false) (ok : State) : s.dmemAccess off width ok = .next ok := by
  rw [State.dmemAccess, if_neg (Nat.not_lt.2 hw), hr, if_neg Bool.false_ne_true]

theorem State.hostMove_read_dmem {s : State} (hc : s.cfg.wf) {off : Nat} (h : off < s.cfg.dmemSize) (width : Nat) :
    s.hostMove (.read (s.cfg.dmemBase + off) width) =
      s.dmemAccess off width { s with readData := s.memRead off width } := by
  simp only [State.hostMove, State.target_dmem hc h]

theorem State.hostMove_write_dmem {s : State} (hc : s.cfg.wf) {off : Nat} (h : off < s.cfg.dmemSize)
    (data : List Byte) :
    s.hostMove (.write (s.cfg.dmemBase + off) data) = s.dmemAccess off data.length (s.memWrite off data) := by
  simp only [State.hostMove, State.target_dmem hc h]

/-- Settles O18. Inside DMEM an access is refused exactly where it races; the ordinary accesses follow the laws of memory. -/
theorem hostKeepsOutOfRunningRanges : Obligations.HostKeepsOutOfRunningRanges := by
  intro s off data hc hne hlen
  have hoff : off < s.cfg.dmemSize := by have := List.length_pos_iff.2 hne; omega
  rw [State.hostMove_read_dmem hc hoff, State.hostMove_write_dmem hc hoff]
  constructor
  · rintro ⟨w, a, i, sp, b, hs, hd, hsp, hb⟩
    have hrace : s.races off data.length = true :=
      (s.races_iff off data.length).2
        ⟨i, sp, State.running_run hs hd, hsp, (Span.overlaps_iff _ _).2 ⟨b, ⟨hb.1, hb.2.1⟩, hb.2.2⟩⟩
    exact ⟨State.dmemAccess_refused hlen hrace _, State.dmemAccess_refused hlen hrace _⟩
  · intro hfree
    have hrace : s.races off data.length = false := by
      refine State.races_eq_false fun i hi sp hsp => ?_
      obtain ⟨w, a, hs, hd⟩ := State.running_eq_some.1 hi
      exact (hfree w a i hs hd sp hsp).imp id fun h => .inr h.symm
    refine ⟨State.dmemAccess_next hlen hrace _, _, State.dmemAccess_next hlen hrace _, s.memRead_memWrite off data,
      s.sameOutside_memWrite off data, ?_⟩
    rw [State.memWrite_eq]

end Sys2Proof.Machine
end

section
/-! PROOFS. How every command ends (40_command_lifecycle.md R133), said once for all of them: with a FAULT, with a FAIL, or
with success after changes that stay inside DMEM (20_memory.md R70). -/

namespace Sys2Proof.Machine

/-! ### The lengths of the results -/

theorem suffixOrder_perm (b : List Byte) : (suffixOrder b).Perm (List.range (b.length + 1)) := List.perm_insertionSort _ _

/-- The sort keeps the length of the block: every row but that of position 0 gives a byte (41_blocksort.md R156). -/
theorem forward_length (b : List Byte) : (forward b).1.length = b.length := by
  have h : ((suffixOrder b).filter (· ≠ 0)).length = b.length := by
    rw [((suffixOrder_perm b).filter _).length_eq, List.range_succ_eq_map]
    simp [List.filter_map, Function.comp_def]
  exact (List.length_map _).trans h

theorem walkRows_length {lc t : List Nat} {n j : Nat} {x : List Byte} (h : walkRows lc t n j = some x) :
    x.length = n := by
  induction n generalizing j x with
  | zero =>
    obtain rfl := Option.some.inj h
    rfl
  | succ n ih =>
    simp only [walkRows] at h
    split at h
    · cases h
    · obtain ⟨y, hy, rfl⟩ := Option.map_eq_some_iff.1 h
      rw [List.length_cons, ih hy]

theorem inverse_length {y x : List Byte} {rot : Nat} (h : inverse y rot = some x) : x.length = y.length :=
  walkRows_length h

theorem mtfEncode_length (x : List Byte) : (mtfEncode x).length = x.length := by
  have from_length : ∀ lst, (mtfEncodeFrom lst x).length = x.length := by
    induction x with
    | nil => exact fun _ => rfl
    | cons b bs ih => exact fun lst => congrArg (· + 1) (ih _)
  exact from_length _

theorem mtfDecode_length (z : List Byte) : (mtfDecode z).length = z.length := by
  have from_length : ∀ lst, (mtfDecodeFrom lst z).length = z.length := by
    induction z with
    | nil => exact fun _ => rfl
    | cons r rs ih => exact fun lst => congrArg (· + 1) (ih _)
  exact from_length _

theorem bytes16s_length (vs : List Nat) : (bytes16s vs).length = 2 * vs.length := by
  induction vs with
  | nil => rfl
  | cons v vs ih => simp [bytes16s, bytes16] at ih ⊢; omega

theorem raiseZero_length (f : List Nat) (s : Nat) : (raiseZero f s).length = f.length := by
  simp only [raiseZero]
  split <;> simp

/-- A table has one count a symbol (44_fse_tables.md R224). -/
theorem normalize_length (d : List Nat) (A : Nat) : (normalize d A).length = A := by
  have fold : ∀ (l f : List Nat), (l.foldl raiseZero f).length = f.length := by
    intro l
    induction l with
    | nil => exact fun _ => rfl
    | cons s l ih => exact fun f => (ih _).trans (raiseZero_length f s)
  simp [normalize, fold, addResidual, scaleCounts, rawCounts]

theorem compress_freq_length {d : List Nat} {A : Nat} {c : Coded} (h : compress d A = .ok c) : c.freq.length = A := by
  simp only [compress] at h
  split at h
  · cases h
  · split at h
    · cases h
    · split at h
      · cases h
      · obtain rfl := Except.ok.inj h
        exact normalize_length d A

/-- What every round of a loop that may stop keeps, the loop keeps. -/
theorem foldlM_some_keeps {α β : Type} {P : β → Prop} {f : β → α → Option β}
    (hf : ∀ t a t', f t a = some t' → P t → P t') {l : List α} {t t' : β} (h : l.foldlM f t = some t') (ht : P t) :
    P t' := by
  induction l generalizing t with
  | nil => exact Option.some.inj h ▸ ht
  | cons a l ih =>
    rw [List.foldlM_cons] at h
    obtain ⟨u, hu, hl⟩ := Option.bind_eq_some_iff.1 h
    exact ih hl (hf t a u hu ht)

theorem assignSlot_owner_length {f : List Nat} {A x s : Nat} {t t' : Tables} (h : assignSlot f A x t s = some t') :
    t'.owner.length = t.owner.length := by
  simp only [assignSlot] at h
  split at h
  · rw [Option.some.inj h]
  · split at h
    · cases h
    · obtain rfl := Option.some.inj h
      exact List.length_set

/-- A decoding table has one entry for each state from 0 to MaxState (R233). -/
theorem buildTables_owner_length {f : List Nat} {A : Nat} {t : Tables} (h : buildTables f A = some t) :
    t.owner.length = maxState A + 1 :=
  foldlM_some_keeps (P := fun t => t.owner.length = maxState A + 1)
    (fun _ _ _ hx ht => foldlM_some_keeps (fun _ _ _ hs => (assignSlot_owner_length hs).trans) hx ht) h
    List.length_replicate

theorem dumpBytes_length (owner : Owners) : (dumpBytes owner).length = 4 * owner.length := by
  induction owner with
  | nil => rfl
  | cons o owner ih =>
    simp only [dumpBytes, List.flatMap_cons, List.length_append, List.length_cons] at ih ⊢
    rw [ih]
    cases o <;> simp [bytes16] <;> omega

theorem decodeSymbols_length {t : Tables} {bit : Nat → Bool} {A n x pos : Nat} {out r : List Nat}
    (h : decodeSymbols t bit A n x pos out = .ok r) : r.length = n + out.length := by
  induction n generalizing x pos out with
  | zero =>
    simp only [decodeSymbols] at h
    split at h
    · obtain rfl := Except.ok.inj h
      exact (Nat.zero_add _).symm
    · cases h
  | succ n ih =>
    simp only [decodeSymbols] at h
    split at h
    · cases h
    · split at h
      · cases h
      · rw [ih h, List.length_cons]
        omega

/-- The decoder gives as many bytes as it is asked for (45_fse_codec.md R274). -/
theorem decompress_length {coded : List Byte} {f : List Nat} {toff x0 A olen : Nat} {out : List Byte}
    (h : decompress coded f toff x0 A olen = .ok out) : out.length = olen := by
  simp only [decompress] at h
  split at h
  · cases h
  · split at h
    · cases h
    · split at h
      · cases h
      · split at h
        · cases h
        · split at h
          · cases h
          · rename_i hd
            obtain rfl := Except.ok.inj h
            rw [List.length_map, decodeSymbols_length hd]
            rfl

theorem restoreBlock_length {maxBlock dcap rot : Nat} {r x : List Byte} (h : restoreBlock maxBlock dcap rot r = .ok x) :
    x.length ≤ dcap := by
  simp only [restoreBlock] at h
  split at h
  · cases h
  · split at h
    · cases h
    · split at h
      · cases h
      · rename_i hcap
        split at h
        · cases h
        · rename_i hx
          obtain rfl := Except.ok.inj h
          rw [inverse_length hx, mtfDecode_length]
          exact Nat.not_lt.1 hcap

/-- A decoded frame fits the destination (47_frame.md R342). -/
theorem State.frameDecode_length {s : State} {limit p dcap : Nat} {frame : FrameRead} {x : List Byte}
    (h : s.frameDecode limit p dcap = .ok (frame, x)) : x.length ≤ dcap := by
  simp only [State.frameDecode, bind, Except.bind] at h
  split at h
  · cases h
  · split at h
    · cases h
    · split at h
      · cases h
      · rename_i hx
        obtain ⟨-, rfl⟩ := Prod.mk.inj (Except.ok.inj h)
        exact restoreBlock_length hx

/-- No frame is empty: its first field is the flag byte (30_encoding.md R110). -/
theorem frameBuild_widthSum_pos (b : List Byte) (last forceRaw : Bool) :
    0 < widthSum (frameBuild b last forceRaw).fields := by
  have hraw : ∀ last rot r why, 0 < widthSum (rawImage last rot r why).fields := by
    intros; simp [rawImage, rawFields, widthSum]
  have hentropy : ∀ last rot A nrec c, 0 < widthSum (entropyFields last rot A nrec c) := by
    intros; simp [entropyFields, widthSum]
  simp only [frameBuild]
  split
  · exact hraw ..
  · split
    · exact hraw ..
    · split
      · exact hentropy ..
      · exact hraw ..

/-! ### What a command may do before it succeeds -/

/-- From `s` a command has come to `u`, still to complete: what no command changes is kept, and no byte is written past
the end of DMEM. -/
def State.Worked (s u : State) : Prop := s.keepsRest u ∧ (s.memInv → u.memInv)

theorem State.keepsRest.cfg_eq {s t : State} (h : s.keepsRest t) : t.cfg = s.cfg := by
  obtain ⟨-, -, -, hcfg, -⟩ := h
  exact hcfg

theorem State.Worked.refl (s : State) : s.Worked s := ⟨⟨rfl, rfl, rfl, rfl, rfl, rfl, rfl⟩, id⟩

@[simp] theorem State.worked_setRegs (s u : State) (r : ArgRegs) : s.Worked (u.setRegs r) ↔ s.Worked u := Iff.rfl

@[simp] theorem State.worked_setRes (s u : State) (r : ResRegs) : s.Worked (u.setRes r) ↔ s.Worked u := Iff.rfl

@[simp] theorem State.worked_setFrame (s u : State) (last mode : Bool) : s.Worked (u.setFrame last mode) ↔ s.Worked u :=
  Iff.rfl

@[simp] theorem State.worked_setRawwhy (s u : State) (why : Nat) : s.Worked (u.setRawwhy why) ↔ s.Worked u := Iff.rfl

theorem State.Worked.memWrite {s u : State} (h : s.Worked u) {sp : Span} (hv : s.valid sp = true) {bs : List Byte}
    (hl : bs.length ≤ sp.len) : s.Worked (u.memWrite sp.addr bs) := by
  obtain ⟨hrest, hmem⟩ := h
  refine ⟨by rw [State.memWrite_eq]; exact hrest, fun hs => State.memInv_memWrite (hmem hs) ?_⟩
  rw [hrest.cfg_eq]
  rcases (s.valid_iff sp).1 hv with h0 | hle
  · exact .inl (List.eq_nil_of_length_eq_zero (by omega))
  · exact .inr (by omega)

theorem State.worked_writeField (s : State) {p v w : Nat} (h : p + w ≤ 8 * s.cfg.dmemSize) :
    s.Worked (s.writeField p v w) :=
  ⟨by rw [State.writeField_eq]; exact (State.Worked.refl s).1, fun hs => State.memInv_writeField hs h⟩

theorem State.worked_writeFields (s : State) {p : Nat} {fs : List (Nat × Nat)}
    (h : p + widthSum fs ≤ 8 * s.cfg.dmemSize) : s.Worked (s.writeFields p fs) :=
  ⟨by rw [State.writeFields_eq]; exact (State.Worked.refl s).1, fun hs => State.memInv_writeFields hs h⟩

/-- A result that fits the destination, written there. -/
theorem State.worked_writeResult {s : State} (hv : s.valid s.dstSpan = true) {out : List Byte}
    (hl : out.length ≤ s.dstSpan.len) : s.Worked (s.writeResult out) :=
  (State.worked_setRes ..).2 ((State.Worked.refl s).memWrite hv hl)

/-! ### The ends of a command -/

/-- The ways a command that runs in `s` can end (40_command_lifecycle.md R133). -/
inductive State.Ends (s : State) : Result → Prop
  | fault (e : ErrCode) : s.Ends (s.raiseFault e)
  | lateFault (e : ErrCode) (written : List Span) : s.Ends (s.raiseLateFault e written)
  | fail (e : ErrCode) (written : List Span) : s.Ends (s.raiseFail e written)
  | success {u : State} (h : s.Worked u) : s.Ends (.next u.complete)

theorem State.codeInv_of_success {t : State} (h : t.endedAs false false 0) : t.codeInv := by
  obtain ⟨-, -, hfault, hfail, hcode⟩ := h
  simp [State.codeInv, hfault, hfail, hcode]

/-- A FAULT or FAIL has a code of the table (60_exceptions.md R360) and excludes the other (R371). -/
theorem State.codeInv_of_error {t : State} {fault fail : Bool} {e : ErrCode} (h : t.endedAs fault fail e.code)
    (hx : fault = !fail) : t.codeInv := by
  obtain ⟨-, -, rfl, rfl, hcode⟩ := h
  refine ⟨by simp [hx], ?_, hcode ▸ e.code_le⟩
  rw [hcode]
  exact iff_of_false e.code_ne_zero (by simp [hx])

theorem State.ended_of_stoppedAs {s t : State} {fault fail : Bool} {e : ErrCode} (h : s.stoppedAs t fault fail e.code)
    (hx : fault = !fail) : t.seq = .idle ∧ t.status.done = true ∧ t.codeInv ∧ s.keepsRest t := by
  obtain ⟨hend, hrest, -⟩ := h
  have hcode := State.codeInv_of_error hend hx
  obtain ⟨hidle, hdone, -⟩ := hend
  exact ⟨hidle, hdone, hcode, hrest⟩

/-- What every end of a command leaves. -/
theorem State.Ends.spec {s : State} {r : Result} (h : s.Ends r) :
    ∃ t, r = .next t ∧ (t.seq = .idle ∧ t.status.done = true ∧ t.codeInv ∧ s.keepsRest t) ∧ (s.memInv → t.memInv) := by
  cases h with
  | fault e =>
    obtain ⟨t, ht, hstop, hmem⟩ := s.raiseFault_spec e
    have hended := State.ended_of_stoppedAs hstop rfl
    refine ⟨t, ht, hended, fun hs => ?_⟩
    obtain ⟨-, -, -, hrest⟩ := hended
    simpa only [State.memInv, hmem, hrest.cfg_eq] using hs
  | lateFault e written =>
    obtain ⟨t, ht, hstop, -, hmem⟩ := s.raiseLateFault_spec e written
    exact ⟨t, ht, State.ended_of_stoppedAs hstop rfl, hmem⟩
  | fail e written =>
    obtain ⟨t, ht, hstop, -, hmem⟩ := s.raiseFail_spec e written
    exact ⟨t, ht, State.ended_of_stoppedAs hstop rfl, hmem⟩
  | @success u hu =>
    obtain ⟨hend, -, -⟩ := u.succeeded_complete
    obtain ⟨hrest, hmem⟩ := hu
    exact ⟨u.complete, rfl, ⟨rfl, rfl, State.codeInv_of_success hend, hrest⟩, hmem⟩

/-! ### The commands one by one -/

/-- A byte command whose checks pass has a valid destination with room for its output. -/
theorem State.valid_dstSpan_of_checks {s : State} {limit n : Nat} {own : List (Bool × ErrCode)}
    (h : firstFailing (s.byteChecks limit own ++ [s.capacityCheck n]) = none) :
    s.valid s.dstSpan = true ∧ n ≤ s.dstSpan.len := by
  rw [firstFailing_append, Option.or_eq_none_iff, State.byteChecks_eq_none] at h
  obtain ⟨⟨⟨-, -, hdst, -⟩, -⟩, hcap⟩ := h
  exact ⟨(s.valid_iff _).2 hdst,
    (s.capacityCheck_eq_false n).1 (firstFailing_eq_none.1 hcap _ List.mem_cons_self)⟩

theorem State.ends_execBwtFwd (s : State) : s.Ends (execBwtFwd s) := by
  unfold execBwtFwd
  split
  · exact .fault _
  · rename_i hchecks
    obtain ⟨hv, hcap⟩ := State.valid_dstSpan_of_checks hchecks
    refine .success ((State.worked_setRegs ..).2 (State.worked_writeResult hv ?_))
    rw [forward_length, State.srcBytes, State.memRead_length]
    exact hcap

theorem State.ends_execBwtInv (s : State) : s.Ends (execBwtInv s) := by
  unfold execBwtInv
  split
  · exact .fault _
  · rename_i hchecks
    obtain ⟨hv, hcap⟩ := State.valid_dstSpan_of_checks hchecks
    split
    · exact .lateFault ..
    · rename_i x hx
      refine .success (State.worked_writeResult hv ?_)
      rw [inverse_length hx, State.srcBytes, State.memRead_length]
      exact hcap

theorem State.ends_recodeBlock (s : State) {f : List Byte → List Byte} (hf : ∀ x, (f x).length = x.length) :
    s.Ends (s.recodeBlock f) := by
  unfold State.recodeBlock
  split
  · exact .fault _
  · rename_i hchecks
    obtain ⟨hv, hcap⟩ := State.valid_dstSpan_of_checks hchecks
    refine .success (State.worked_writeResult hv ?_)
    rw [hf, State.srcBytes, State.memRead_length]
    exact hcap

theorem State.ends_recodeRuns (s : State) (limit : Nat) (f : List Byte → List Byte) :
    s.Ends (s.recodeRuns limit f) := by
  unfold State.recodeRuns
  split
  · exact .fault _
  · rename_i hchecks
    obtain ⟨⟨-, -, hdst, -⟩, -⟩ := (s.byteChecks_eq_none limit []).1 hchecks
    dsimp only
    split
    · exact .lateFault ..
    · rename_i hfits
      exact .success (State.worked_writeResult ((s.valid_iff _).2 hdst) (Nat.not_lt.1 hfits))

theorem State.ends_execFseNorm (s : State) (autoa : Bool) : s.Ends (execFseNorm autoa s) := by
  unfold execFseNorm
  split
  · exact .fault _
  · split
    · exact .fail ..
    · dsimp only
      split
      · exact .fault _
      · rename_i hchecks
        have hv : s.valid (s.tblSpan (s.alphabet autoa)) = true := by
          simpa using firstFailing_eq_none.1 hchecks _ List.mem_cons_self
        split
        · exact .fail ..
        · split
          · exact .lateFault ..
          · refine .success ((State.worked_setRes ..).2 ((State.worked_setRegs ..).2 ?_))
            refine (State.Worked.refl s).memWrite hv ?_
            rw [bytes16s_length, normalize_length]
            rfl

theorem State.ends_execFseBuild (s : State) : s.Ends (execFseBuild s) := by
  unfold execFseBuild
  dsimp only
  split
  · exact .fault _
  · rename_i hchecks
    simp only [firstFailing_eq_none, List.forall_mem_cons, State.capacityCheck_eq_false, Bool.or_eq_false_iff,
      Bool.not_eq_false'] at hchecks
    obtain ⟨-, ⟨-, hv⟩, -, hcap, -⟩ := hchecks
    split
    · exact .lateFault ..
    · split
      · exact .lateFault ..
      · rename_i t ht
        refine .success ((State.worked_setRes ..).2 ((State.Worked.refl s).memWrite hv ?_))
        rw [dumpBytes_length, buildTables_owner_length ht]
        exact hcap

theorem State.ends_execFseEnc (s : State) (autoa : Bool) : s.Ends (execFseEnc autoa s) := by
  unfold execFseEnc
  split
  · exact .fault _
  · rename_i hearly
    simp only [firstFailing_eq_none, List.forall_mem_cons, Bool.or_eq_false_iff, Bool.not_eq_false'] at hearly
    obtain ⟨-, ⟨⟨-, hdst⟩, -⟩, -⟩ := hearly
    split
    · exact .fail ..
    · dsimp only
      split
      · exact .fault _
      · rename_i hchecks
        have htbl : s.valid (s.tblSpan (s.alphabet autoa)) = true := by
          simpa using firstFailing_eq_none.1 hchecks _ List.mem_cons_self
        split
        · exact .fail ..
        · split
          · exact .lateFault ..
          · split
            · exact .fail ..
            · rename_i c hc
              split
              · exact .lateFault ..
              · rename_i hfits
                have hcoded := (State.Worked.refl s).memWrite hdst (Nat.not_lt.1 hfits)
                refine .success ((State.worked_setRes ..).2 ((State.worked_setRegs ..).2 (hcoded.memWrite htbl ?_)))
                rw [bytes16s_length, compress_freq_length hc]
                rfl

theorem State.ends_execFseDec (s : State) : s.Ends (execFseDec s) := by
  unfold execFseDec
  dsimp only
  split
  · exact .fault _
  · rename_i hchecks
    simp only [firstFailing_eq_none, List.forall_mem_cons, State.capacityCheck_eq_false, Bool.or_eq_false_iff,
      Bool.not_eq_false'] at hchecks
    obtain ⟨-, -, ⟨-, hv⟩, -, hcap, -⟩ := hchecks
    split
    · exact .lateFault ..
    · rename_i out hout
      refine .success ((State.worked_setRes ..).2 ((State.Worked.refl s).memWrite hv ?_))
      rw [decompress_length hout]
      exact hcap

theorem State.ends_execBsPut (s : State) (nbits : Nat) : s.Ends (execBsPut nbits s) := by
  unfold execBsPut
  split
  · exact .fault _
  · rename_i hchecks
    simp only [firstFailing_eq_none, List.forall_mem_cons, Bool.not_eq_false', decide_eq_true_eq,
      decide_eq_false_iff_not, State.valid_iff] at hchecks
    obtain ⟨hlegal, -, hv, hroom, -⟩ := hchecks
    refine .success ((State.worked_setRegs ..).2 (State.worked_writeField s ?_))
    simp only [State.wSpan, State.inDmem, fieldBytes, State.wCursor] at hv hroom ⊢
    omega

theorem State.ends_execBsGet (s : State) (nbits : Nat) : s.Ends (execBsGet nbits s) := by
  unfold execBsGet
  split
  · exact .fault _
  · exact .success ((State.worked_setRegs ..).2 (.refl s))

theorem State.ends_execFrameEnc (s : State) (last forceRaw : Bool) : s.Ends (execFrameEnc last forceRaw s) := by
  unfold execFrameEnc
  split
  · exact .fault _
  · rename_i hchecks
    simp only [firstFailing_eq_none, List.forall_mem_cons, Bool.or_eq_false_iff, Bool.not_eq_false',
      State.valid_iff] at hchecks
    obtain ⟨-, ⟨-, hv⟩, -⟩ := hchecks
    dsimp only
    split
    · exact .fault _
    · rename_i hfits
      refine .success ?_
      simp only [State.worked_setRawwhy, State.worked_setFrame, State.worked_setRes, State.worked_setRegs]
      have hpos := frameBuild_widthSum_pos s.srcBytes last forceRaw
      refine State.worked_writeFields s ?_
      simp only [State.wSpan, State.inDmem, State.wCursor] at hv hfits ⊢
      omega

theorem State.ends_execFrameDec (s : State) : s.Ends (execFrameDec s) := by
  unfold execFrameDec
  split
  · exact .fault _
  · rename_i hchecks
    simp only [firstFailing_eq_none, List.forall_mem_cons, Bool.or_eq_false_iff, Bool.not_eq_false'] at hchecks
    obtain ⟨-, ⟨-, hv⟩, -⟩ := hchecks
    split
    · exact .lateFault ..
    · rename_i frame x hx
      refine .success ?_
      simp only [State.worked_setFrame, State.worked_setRes, State.worked_setRegs]
      exact (State.Worked.refl s).memWrite hv (State.frameDecode_length hx)

/-- Every command ends in one of the ways of R133. -/
theorem State.ends_exec (s : State) (i : Instr) : s.Ends (exec i s) := by
  cases i with
  | nop => exact .success (.refl s)
  | bwtFwd => exact s.ends_execBwtFwd
  | bwtInv => exact s.ends_execBwtInv
  | mtfEnc => exact s.ends_recodeBlock mtfEncode_length
  | mtfDec => exact s.ends_recodeBlock mtfDecode_length
  | rleEnc => exact s.ends_recodeRuns _ rleEncode
  | rleDec => exact s.ends_recodeRuns _ rleDecode
  | fseNorm autoa => exact s.ends_execFseNorm autoa
  | fseBuild => exact s.ends_execFseBuild
  | fseEnc autoa => exact s.ends_execFseEnc autoa
  | fseDec => exact s.ends_execFseDec
  | bsPut nbits => exact s.ends_execBsPut nbits
  | bsGet nbits => exact s.ends_execBsGet nbits
  | frameEnc last forceRaw => exact s.ends_execFrameEnc last forceRaw
  | frameDec => exact s.ends_execFrameDec

end Sys2Proof.Machine
end

section
/-! PROOFS. The invariant: every move of the engine, of the host and of the platform keeps it (10_state.md R30 to R37). -/

namespace Sys2Proof.Machine

/-! ### What a write of a register can do (10_state.md R32 to R34, 70_reset_and_hazards.md R410) -/

/-- The states that a write of `v` to a register can lead to. -/
inductive State.RegEffect (s : State) (v : Word) : Reg → State → Prop
  | ignored (r : Reg) : s.RegEffect v r s
  | overrun (r : Reg) (hbusy : s.busy = true) : s.RegEffect v r s.setOverrun
  | accepted (hidle : s.seq = .idle) : s.RegEffect v .cmd (s.accept v)
  | acknowledged : s.RegEffect v .status (s.ackStatus v)
  | softReset (hsrst : v.getLsbD 1 = true) : s.RegEffect v .ctrl s.resetEngine
  | enabled (hsrst : v.getLsbD 1 = false) : s.RegEffect v .ctrl { s with ie := v.getLsbD 0 }
  | stored (r : Reg) (a : ArgRegs) (hidle : s.seq = .idle) (ha : s.regs.put v r = some a) : s.RegEffect v r (s.setRegs a)

/-- While a command runs, a write to an argument register only sets OVERRUN (R410). -/
theorem State.writeReg_busy_of_put {s : State} {r : Reg} {v : Word} {a : ArgRegs} (hb : s.busy = true)
    (ha : s.regs.put v r = some a) : s.writeReg r v = s.setOverrun := by
  cases r with
  | id | cmd | status | ctrl | rlen | prec | nrec | clen | maxblk | dmemsz => cases ha
  | src | slen | dst | dcap | tbl | alpha | rot | toff | fstate | olen | wptr | wbit | wlim | rptr | rbit | rlim
  | bsval => exact if_pos hb

theorem State.regEffect_of_put {s : State} {r : Reg} {v : Word} {a : ArgRegs} (ha : s.regs.put v r = some a) :
    s.RegEffect v r (s.writeReg r v) := by
  cases hb : s.busy with
  | true => exact State.writeReg_busy_of_put hb ha ▸ .overrun r hb
  | false =>
    have hs := s.busy_eq_false.1 hb
    exact State.writeReg_of_put hs ha ▸ .stored r a hs ha

theorem State.regEffect_writeReg (s : State) (r : Reg) (v : Word) : s.RegEffect v r (s.writeReg r v) := by
  cases r with
  | id | rlen | prec | nrec | clen | maxblk | dmemsz => exact .ignored _
  | cmd =>
    unfold State.writeReg
    dsimp only
    split
    · exact .overrun .cmd ‹_›
    · rename_i hb
      exact .accepted (s.busy_eq_false.1 (Bool.eq_false_iff.2 hb))
  | status => exact .acknowledged
  | ctrl =>
    unfold State.writeReg State.writeCtrl
    dsimp only
    split
    · exact .softReset ‹_›
    · exact .enabled (Bool.eq_false_iff.2 ‹_›)
  | src | slen | dst | dcap | tbl | alpha | rot | toff | fstate | olen | wptr | wbit | wlim | rptr | rbit | rlim
  | bsval => exact State.regEffect_of_put rfl

/-! ### What a move of the host can do (60_exceptions.md R389) -/

/-- The states that a move of the host can lead to. -/
inductive State.HostEffect (s : State) : HostAccess → State → Prop
  | read (addr width : Nat) (bs : List Byte) : s.HostEffect (.read addr width) { s with readData := bs }
  | reserved (addr : Nat) (data : List Byte) : s.HostEffect (.write addr data) s
  | register (r : Reg) (data : List Byte) :
      s.HostEffect (.write (s.cfg.regBase + r.offset) data) (s.writeReg r (wordOfData data))
  | dmem (addr off : Nat) (data : List Byte) (hfits : off + data.length ≤ s.cfg.dmemSize)
      (hfree : s.races off data.length = false) : s.HostEffect (.write addr data) (s.memWrite off data)

theorem State.eq_of_target_window {s : State} {addr off : Nat} (h : s.target addr = .window off) :
    addr = s.cfg.regBase + off := by
  unfold State.target at h
  split at h
  · have := Target.window.inj h
    omega
  · split at h <;> cases h

theorem State.dmemAccess_eq_next {s ok t : State} {off width : Nat} (h : s.dmemAccess off width ok = .next t) :
    off + width ≤ s.cfg.dmemSize ∧ s.races off width = false ∧ t = ok := by
  rcases s.dmemAccess_cases off width ok with ⟨-, hd⟩ | ⟨-, -, hd⟩ | ⟨hfits, hfree, hd⟩
  · cases hd.symm.trans h
  · cases hd.symm.trans h
  · exact ⟨hfits, hfree, Host.Outcome.next.inj (h.symm.trans hd)⟩

theorem State.hostEffect_writeWindow (s : State) (off : Nat) (data : List Byte) :
    s.HostEffect (.write (s.cfg.regBase + off) data) (s.writeWindow off (wordOfData data)) := by
  unfold State.writeWindow
  split
  · rename_i r hr
    rw [← Reg.offset_of_atOffset hr]
    exact .register r data
  · exact .reserved _ data

theorem State.hostEffect_of_hostMove {s t : State} {m : HostAccess} (h : s.hostMove m = .next t) :
    s.HostEffect m t := by
  cases m with
  | read addr width =>
    simp only [State.hostMove] at h
    split at h
    · split at h
      · exact Host.Outcome.next.inj h ▸ .read addr width _
      · cases h
    · obtain ⟨-, -, rfl⟩ := State.dmemAccess_eq_next h
      exact .read addr width _
    · cases h
  | write addr data =>
    simp only [State.hostMove] at h
    split at h
    · rename_i off htarget
      split at h
      · rw [State.eq_of_target_window htarget, ← Host.Outcome.next.inj h]
        exact s.hostEffect_writeWindow off data
      · cases h
    · obtain ⟨hfits, hfree, rfl⟩ := State.dmemAccess_eq_next h
      exact .dmem addr _ data hfits hfree
    · cases h

/-! ### What the engine's move can do -/

/-- The move of a running engine ends the command, also where its word is illegal (40_command_lifecycle.md R132). -/
theorem State.ends_engineMove {s : State} (hb : s.busy = true) : s.Ends (engineMove s) := by
  rcases engineMove_cases (s := s) rfl with ⟨hidle, -⟩ | ⟨w, a, i, -, -, hexec⟩ | ⟨w, a, e, -, -, hfault⟩
  · rw [s.busy_eq_false.2 hidle] at hb
    cases hb
  · exact hexec ▸ s.ends_exec i
  · exact hfault ▸ .fault .illegalCmd

theorem State.engineMove_idle {s : State} (h : s.seq = .idle) : engineMove s = .next s := by
  rw [engineMove, h]

/-! ### The parts of the invariant -/

theorem State.memInv_nil {s : State} (h : s.mem = []) : s.memInv := by
  rw [State.memInv, h]
  exact ⟨List.Pairwise.nil, fun _ hc => absurd hc List.not_mem_nil⟩

theorem State.memInv_abandon {s : State} (h : s.memInv) : s.abandon.memInv := by
  cases hb : s.busy with
  | false => rwa [State.abandon_idle (s.busy_eq_false.1 hb)]
  | true =>
    obtain ⟨w, a, hs⟩ := s.busy_iff.1 hb
    rw [State.abandon_run hs]
    exact State.memInv_unspecified h _

theorem State.runInv_idle {s : State} (h : s.seq = .idle) : s.runInv := by
  rw [State.runInv, h]
  trivial

/-- LASTOP of an accepted word is the opcode of the word that runs (40_command_lifecycle.md R131). -/
theorem State.runInv_accept (s : State) (w : Word) : (s.accept w).runInv := by
  refine ⟨rfl, BitVec.eq_of_toNat_eq ?_, rfl, rfl, rfl, rfl⟩
  simp [opField]

/-- An acknowledge clears DONE, which is clear while a command runs. -/
theorem State.runInv_ackStatus {s : State} (h : s.runInv) (v : Word) : (s.ackStatus v).runInv := by
  cases hb : s.busy with
  | false => exact State.runInv_idle (s.busy_eq_false.1 hb)
  | true =>
    obtain ⟨w, a, hs⟩ := s.busy_iff.1 hb
    simp only [State.runInv, State.ackStatus_seq, hs] at h ⊢
    obtain ⟨hregs, hlastop, hdone, hrest⟩ := h
    exact ⟨hregs, hlastop, by simp [hdone], hrest⟩

theorem State.codeInv_of_reset {s : State} (h : s.status = Status.reset) : s.codeInv := by
  simp [State.codeInv, h, Status.reset]

/-! ### Every move keeps the invariant and the parameters -/

/-- From `s` to `t` the parameters stay (00_scope.md R8, R10), and with them the invariant. -/
def State.KeepsInv (s t : State) : Prop := t.cfg = s.cfg ∧ (s.Inv → t.Inv)

theorem State.keepsInv_of_parts {s t : State} (hcfg : t.cfg = s.cfg) (hmem : s.memInv → t.memInv)
    (hrun : s.runInv → t.runInv) (hcode : s.codeInv → t.codeInv) : s.KeepsInv t := by
  refine ⟨hcfg, fun ⟨hc, hm, hr, he⟩ => ⟨?_, hmem hm, hrun hr, hcode he⟩⟩
  rwa [hcfg]

theorem State.keepsInv_resetEngine (s : State) : s.KeepsInv s.resetEngine :=
  State.keepsInv_of_parts s.abandon_cfg State.memInv_abandon (fun _ => State.runInv_idle rfl)
    fun _ => State.codeInv_of_reset rfl

theorem State.keepsInv_powerCycle (s : State) : s.KeepsInv s.powerCycle :=
  State.keepsInv_of_parts s.abandon_cfg (fun _ => State.memInv_nil rfl) (fun _ => State.runInv_idle rfl)
    fun _ => State.codeInv_of_reset rfl

theorem State.RegEffect.keepsInv {s t : State} {v : Word} {r : Reg} (h : s.RegEffect v r t) : s.KeepsInv t := by
  cases h with
  | ignored | overrun | enabled => exact ⟨rfl, id⟩
  | accepted => exact State.keepsInv_of_parts rfl id (fun _ => s.runInv_accept v) fun _ => by simp [State.codeInv]
  | acknowledged => exact State.keepsInv_of_parts rfl id (State.runInv_ackStatus · v) id
  | softReset => exact s.keepsInv_resetEngine
  | stored r a hidle => exact State.keepsInv_of_parts rfl id (fun _ => State.runInv_idle hidle) id

theorem State.keepsInv_memWrite {s : State} {off : Nat} {data : List Byte} (h : off + data.length ≤ s.cfg.dmemSize) :
    s.KeepsInv (s.memWrite off data) := by
  have hmem := fun hs : s.memInv => State.memInv_memWrite hs (.inr h)
  rw [State.memWrite_eq] at hmem ⊢
  exact State.keepsInv_of_parts rfl hmem id id

theorem State.HostEffect.keepsInv {s t : State} {m : HostAccess} (h : s.HostEffect m t) : s.KeepsInv t := by
  cases h with
  | read | reserved => exact ⟨rfl, id⟩
  | register r data => exact (s.regEffect_writeReg r _).keepsInv
  | dmem addr off data hfits => exact State.keepsInv_memWrite hfits

theorem State.Ends.keepsInv {s t : State} (h : s.Ends (.next t)) : s.KeepsInv t := by
  obtain ⟨u, hu, ⟨hidle, -, hcode, hrest⟩, hmem⟩ := h.spec
  obtain rfl := Host.Outcome.next.inj hu
  exact State.keepsInv_of_parts hrest.cfg_eq hmem (fun _ => State.runInv_idle hidle) fun _ => hcode

theorem engineMove_keepsInv {s t : State} (h : engineMove s = .next t) : s.KeepsInv t := by
  cases hb : s.busy with
  | false =>
    rw [State.engineMove_idle (s.busy_eq_false.1 hb)] at h
    obtain rfl := Host.Outcome.next.inj h
    exact ⟨rfl, id⟩
  | true => exact (h ▸ State.ends_engineMove hb).keepsInv

theorem takeTurn_keepsInv {s t : State} {turn : Turn} (h : takeTurn s turn = .next t) : s.KeepsInv t := by
  cases turn with
  | engine => exact engineMove_keepsInv h
  | host a => exact (State.hostEffect_of_hostMove h).keepsInv
  | hardReset => exact Host.Outcome.next.inj h ▸ s.keepsInv_resetEngine
  | powerOn => exact Host.Outcome.next.inj h ▸ s.keepsInv_powerCycle

/-- The turns still to come are no part of the invariant, so a step keeps what its move keeps. -/
theorem step_keepsInv {s t : State} (h : step s = .next t) : s.KeepsInv t := by
  rcases step_cases h with ⟨-, hmove⟩ | ⟨turn, rest, -, hmove⟩
  · exact engineMove_keepsInv hmove.symm
  · exact takeTurn_keepsInv (s := { s with turns := rest }) hmove.symm

/-- Settles O6: the invariant and the parameters are kept by the move a step makes, whoever makes it. -/
theorem stepKeepsInvariant : Obligations.StepKeepsInvariant :=
  ⟨fun _ _ hs h => (step_keepsInv h).2 hs, fun _ _ h => (step_keepsInv h).1⟩

end Sys2Proof.Machine
end

section
/-! PROOFS. The command word (30_encoding.md): the decoder and the encoder are inverse to each other (R100 to R102), which
words are illegal (R104), and what a running illegal word does. -/

namespace Sys2Proof

/-! ### The opcode map (R101, R102) -/

/-- `i` is the well-formed command with this OP and this IMM. -/
def Instr.HasFields (i : Instr) (op imm : Nat) : Prop := i.wf = true ∧ i.opcode = op ∧ i.imm = imm

theorem Instr.opcode_le (i : Instr) : i.opcode ≤ 0x0E := by cases i <;> simp [Instr.opcode]

theorem hasFields_of_decodePlain {i j : Instr} {op imm : Nat} (hi : i.HasFields op 0)
    (h : decodePlain i imm = .ok j) : j.HasFields op imm := by
  unfold decodePlain at h
  split at h
  next h0 =>
    obtain rfl := Except.ok.inj h
    exact h0 ▸ hi
  · cases h

theorem hasFields_of_decodeAutoa {i : Bool → Instr} {j : Instr} {op imm : Nat} (hi : ∀ b, (i b).HasFields op b.toNat)
    (h : decodeAutoa i imm = .ok j) : j.HasFields op imm := by
  unfold decodeAutoa at h
  split at h
  next hlt =>
    obtain rfl := Except.ok.inj h
    have himm : (imm == 1).toNat = imm := by interval_cases imm <;> rfl
    simpa only [himm] using hi (imm == 1)
  · cases h

theorem hasFields_of_decodeNbits {i : Nat → Instr} {j : Instr} {op imm : Nat}
    (hi : ∀ n, legalNbits n → (i n).HasFields op n) (h : decodeNbits i imm = .ok j) : j.HasFields op imm := by
  unfold decodeNbits at h
  split at h
  next hn => exact Except.ok.inj h ▸ hi imm hn
  · cases h

theorem hasFields_of_decodeFrameEnc {j : Instr} {imm : Nat} (h : decodeFrameEnc imm = .ok j) :
    j.HasFields 0x0D imm := by
  unfold decodeFrameEnc at h
  split at h
  next hlt =>
    obtain rfl := Except.ok.inj h
    have himm : (imm % 2 == 1).toNat + 2 * (imm / 2 == 1).toNat = imm := by interval_cases imm <;> rfl
    exact ⟨rfl, rfl, himm⟩
  · cases h

theorem hasFields_of_decodeOp {op imm : Nat} {i : Instr} (h : decodeOp op imm = .ok i) : i.HasFields op imm := by
  unfold decodeOp at h
  split at h
  case h_8 | h_10 => exact hasFields_of_decodeAutoa (fun _ => ⟨rfl, rfl, rfl⟩) h
  case h_12 | h_13 => exact hasFields_of_decodeNbits (fun _ hn => ⟨by simp [Instr.wf, hn], rfl, rfl⟩) h
  case h_14 => exact hasFields_of_decodeFrameEnc h
  case h_16 => cases h
  all_goals exact hasFields_of_decodePlain ⟨rfl, rfl, rfl⟩ h

theorem decodeOp_opcode_imm {i : Instr} (h : i.wf = true) : decodeOp i.opcode i.imm = .ok i := by
  cases i with
  | fseNorm autoa | fseEnc autoa => cases autoa <;> rfl
  | bsPut n | bsGet n => exact if_pos (of_decide_eq_true h)
  | frameEnc last forceRaw => cases last <;> cases forceRaw <;> rfl
  | _ => rfl

/-- The opcode map gives each OP and IMM the one well-formed command that has them. -/
theorem decodeOp_eq_ok_iff {op imm : Nat} {i : Instr} : decodeOp op imm = .ok i ↔ i.HasFields op imm :=
  ⟨hasFields_of_decodeOp, fun ⟨hwf, hop, himm⟩ => hop ▸ himm ▸ decodeOp_opcode_imm hwf⟩

/-! ### The two directions of the command word (R100) -/

theorem decodeWord_eq_ok_iff {w : Word} {i : Instr} :
    decodeWord w = .ok i ↔ rsvField w = 0 ∧ i.HasFields (opField w) (immField w) := by
  unfold decodeWord
  split
  next hop =>
    refine iff_of_false nofun fun ⟨_, _, hi, _⟩ => ?_
    have := i.opcode_le
    omega
  · split
    next hrsv => exact iff_of_false nofun fun h => hrsv h.1
    next hrsv => simp [decodeOp_eq_ok_iff, not_not.1 hrsv]

open Laws in
theorem encodeFields (i : Instr) : EncodeFields.Statement i := by
  cases i with
  | nop => exact EncodeFields.nop
  | bwtFwd => exact EncodeFields.bwtFwd
  | bwtInv => exact EncodeFields.bwtInv
  | mtfEnc => exact EncodeFields.mtfEnc
  | mtfDec => exact EncodeFields.mtfDec
  | rleEnc => exact EncodeFields.rleEnc
  | rleDec => exact EncodeFields.rleDec
  | fseNorm autoa => exact EncodeFields.fseNorm autoa
  | fseBuild => exact EncodeFields.fseBuild
  | fseEnc autoa => exact EncodeFields.fseEnc autoa
  | fseDec => exact EncodeFields.fseDec
  | bsPut n => exact EncodeFields.bsPut n
  | bsGet n => exact EncodeFields.bsGet n
  | frameEnc last forceRaw => exact EncodeFields.frameEnc last forceRaw
  | frameDec => exact EncodeFields.frameDec

/-- Settles O2: the fields of the encoding are the command's own, and the decoder finds the command by them. -/
theorem decodeInvertsEncode : Obligations.DecodeInvertsEncode := fun i hwf => by
  obtain ⟨hop, himm, hrsv, -⟩ := encodeFields i hwf
  exact decodeWord_eq_ok_iff.2 ⟨hrsv, hwf, hop.symm, himm.symm⟩

/-- The three fields are the whole word (R100). -/
theorem ofInt_fields {w : Word} (hrsv : rsvField w = 0) : Word.ofInt (opField w + 256 * immField w) = w := by
  have hw : opField w + 256 * immField w = w.toNat := by
    unfold opField immField
    unfold rsvField at hrsv
    omega
  rw [hw, Word.ofInt, BitVec.ofNat_toNat, BitVec.setWidth_eq]

/-- Settles O3: a word is its three fields, and RSV of a legal word is 0. -/
theorem decodedWordIsItsEncoding : Obligations.DecodedWordIsItsEncoding := fun w i h => by
  obtain ⟨hrsv, hwf, hop, himm⟩ := decodeWord_eq_ok_iff.1 h
  exact ⟨hwf, by rw [encode, hop, himm, ofInt_fields hrsv]⟩

/-! ### Illegal words (R104) -/

/-- The pairs of OP and IMM that R104 lists as illegal. -/
abbrev IllegalOp (op imm : Nat) : Prop :=
  0x0F ≤ op ∨ (op ∈ [0x00, 0x01, 0x02, 0x03, 0x04, 0x05, 0x06, 0x08, 0x0A, 0x0E] ∧ imm ≠ 0) ∨
    (op ∈ [0x07, 0x09] ∧ imm / 2 ≠ 0) ∨ (op = 0x0D ∧ imm / 4 ≠ 0) ∨ (op ∈ [0x0B, 0x0C] ∧ (imm = 0 ∨ 32 < imm))

/-- The words R104 lists as illegal. -/
abbrev IllegalWord (w : Word) : Prop := rsvField w ≠ 0 ∨ IllegalOp (opField w) (immField w)

theorem exists_error_ite {c : Prop} [Decidable c] {i : Instr} {r : Reject} :
    (∃ e, (if c then Except.ok i else .error r) = .error e) ↔ ¬c := by
  split <;> simp [*]

theorem decodePlain_error_iff {i : Instr} {imm : Nat} : (∃ e, decodePlain i imm = .error e) ↔ imm ≠ 0 :=
  exists_error_ite

theorem decodeAutoa_error_iff {i : Bool → Instr} {imm : Nat} : (∃ e, decodeAutoa i imm = .error e) ↔ imm / 2 ≠ 0 :=
  exists_error_ite.trans (by omega)

theorem decodeNbits_error_iff {i : Nat → Instr} {imm : Nat} :
    (∃ e, decodeNbits i imm = .error e) ↔ imm = 0 ∨ 32 < imm :=
  exists_error_ite.trans (by unfold legalNbits; omega)

theorem decodeFrameEnc_error_iff {imm : Nat} : (∃ e, decodeFrameEnc imm = .error e) ↔ imm / 4 ≠ 0 :=
  exists_error_ite.trans (by omega)

theorem decodeOp_reserved {op : Nat} (h : 0x0F ≤ op) (imm : Nat) : decodeOp op imm = .error .reservedOp := by
  unfold decodeOp
  split
  case h_16 => rfl
  all_goals omega

theorem decodeOp_error_iff {op imm : Nat} : (∃ e, decodeOp op imm = .error e) ↔ IllegalOp op imm := by
  by_cases hop : 0x0F ≤ op
  · exact iff_of_true ⟨_, decodeOp_reserved hop imm⟩ (.inl hop)
  · interval_cases op <;>
      simp [IllegalOp, decodeOp, decodePlain_error_iff, decodeAutoa_error_iff, decodeNbits_error_iff,
        decodeFrameEnc_error_iff]

theorem decodeWord_error_iff {w : Word} : (∃ e, decodeWord w = .error e) ↔ IllegalWord w := by
  unfold decodeWord
  split
  next hop => exact iff_of_true ⟨_, rfl⟩ (.inr (.inl hop))
  · split
    next hrsv => exact iff_of_true ⟨_, rfl⟩ (.inl hrsv)
    next hrsv => simp only [decodeOp_error_iff, IllegalWord, hrsv, false_or]

/-- Settles O1: the legal words by what the encoder gives for their commands, the four others as illegal words. -/
theorem workedCommandWords : Obligations.WorkedCommandWords := by
  refine ⟨fun p hp => ?_, fun w hw i hi => ?_⟩
  · have hencode : p.2.wf = true ∧ encode p.2 = p.1 := by revert p; decide
    obtain ⟨hwf, hword⟩ := hencode
    exact ⟨hword ▸ decodeInvertsEncode p.2 hwf, hword⟩
  · have hillegal : IllegalWord w := by
      simp only [List.mem_cons, List.not_mem_nil, or_false] at hw
      obtain rfl | rfl | rfl | rfl := hw <;> decide
    obtain ⟨e, he⟩ := decodeWord_error_iff.2 hillegal
    cases hi.symm.trans he

end Sys2Proof

namespace Sys2Proof.Machine

/-! ### A running illegal word (40_command_lifecycle.md R131, R132) -/

theorem State.writeReg_cmd_idle {s : State} (h : s.seq = .idle) (w : Word) : s.writeReg .cmd w = s.accept w :=
  if_neg (by simp [s.busy_eq_false.2 h])

theorem step_of_turns_nil {s : State} (h : s.turns = []) : step s = engineMove s := by rw [step, h]

theorem State.engineMove_illegal {s : State} {w : Word} {a : ArgRegs} {e : Reject} (hs : s.seq = .run w a)
    (he : decodeWord w = .error e) : engineMove s = s.raiseFault .illegalCmd := by
  simp only [engineMove, hs, he]

/-- Settles O4: the words by their fields, and the engine's move raises the FAULT without running any command. -/
theorem illegalWordFaultsAtOnce : Obligations.IllegalWordFaultsAtOnce := by
  refine ⟨fun w => decodeWord_error_iff.trans or_left_comm, fun s w hidle => ?_, fun s w a e hs he hturns => ?_⟩
  · rw [State.writeReg_cmd_idle hidle, State.accept_seq]
  · rw [step_of_turns_nil hturns, State.engineMove_illegal hs he]
    exact s.raiseFault_spec .illegalCmd

end Sys2Proof.Machine
end

section
/-! PROOFS. The life of a command (40_command_lifecycle.md): acceptance (R131), the engine's move (R132), NOP (R140), and
what every command leaves at its end (R133). -/

namespace Sys2Proof.Machine

/-! ### Acceptance (R131) -/

/-- Settles O10: a CMD write in an idle state is `accept`, and the latched values are the registers. -/
theorem cmdWriteIsAccepted : Obligations.CmdWriteIsAccepted := by
  intro s w hidle
  have haccept := State.writeReg_cmd_idle hidle w
  dsimp only
  rw [haccept]
  exact ⟨rfl, rfl, fun t' ht' => State.args_run ht'⟩

/-! ### The engine's move (R132) -/

theorem State.engineMove_legal {s : State} {w : Word} {a : ArgRegs} {i : Instr} (hs : s.seq = .run w a)
    (hd : decodeWord w = .ok i) : engineMove s = exec i s := by
  simp only [engineMove, hs, hd]

theorem step_of_turns_engine {s : State} {rest : List Turn} (h : s.turns = .engine :: rest) :
    step s = engineMove { s with turns := rest } := by
  rw [step, h]
  rfl

/-- A step of `withFetchWord` is the engine's move of the state that acceptance leaves. -/
theorem step_withFetchWord (s : State) (nbits w : Nat) :
    step (s.withFetchWord nbits w) = engineMove (s.accept (Word.ofInt (w % 2 ^ nbits))) := rfl

/-- A table word decodes as the word it is: its bytes make it up again (20_memory.md R72). -/
theorem decodeWord_of_decodeTableWord {nbits w : Nat} {i : Instr} (h : decodeTableWord nbits w = some i) :
    decodeWord (Word.ofInt (w % 2 ^ nbits)) = .ok i := by
  have hbytes : decodeBytes (bytesOfWord (Word.ofInt (w % 2 ^ nbits))) = .ok (i, []) := by
    unfold decodeTableWord at h
    split at h
    next hj =>
      split at h
      · rw [hj, Option.some.inj h]
      · cases h
    · cases h
  rw [← wordOfData_bytesOfWord (Word.ofInt (w % 2 ^ nbits))]
  simp only [decodeBytes, bytesOfWord] at hbytes
  split at hbytes
  next hi =>
    obtain ⟨rfl, -⟩ := Prod.mk.inj (Except.ok.inj hbytes)
    exact hi
  · cases hbytes

/-- Settles O5: a step is the engine's move, and the engine's move is what the latched word decodes to. -/
theorem stepRunsTheLatchedCommand : Obligations.StepRunsTheLatchedCommand := by
  refine ⟨fun s w a i hs hd => ⟨fun hturns => ?_, fun rest hturns => ?_⟩, fun s w a e hs he rest hturns => ?_,
    fun s nbits w i hd => ?_⟩
  · rw [step_of_turns_nil hturns, State.engineMove_legal hs hd]
  · rw [step_of_turns_engine hturns]
    exact State.engineMove_legal hs hd
  · rw [step_of_turns_engine hturns, State.engineMove_illegal (s := { s with turns := rest }) hs he]
    exact State.raiseFault_spec _ .illegalCmd
  · rw [step_withFetchWord]
    exact State.engineMove_legal rfl (decodeWord_of_decodeTableWord hd)

/-! ### NOP (R140) -/

theorem exec_nop (s : State) : exec .nop s = .next s.complete := rfl

/-- Where OP is 0, only the word 0 is legal: IMM and RSV are the rest of a word (R104). -/
theorem illegalWord_of_opField_zero {w : Word} (hop : opField w = 0) (hw : w ≠ 0) : IllegalWord w := by
  by_cases hrsv : rsvField w = 0
  · refine .inr (.inr (.inl ⟨by simp [hop], fun himm => hw ?_⟩))
    rw [← ofInt_fields hrsv, hop, himm]
    rfl
  · exact .inl hrsv

/-- Settles O26. -/
theorem nopOnlyCompletes : Obligations.NopOnlyCompletes := by
  refine ⟨fun s => ⟨s.complete, exec_nop s, s.succeeded_complete, rfl, rfl, rfl⟩,
    fun w hop hw => decodeWord_error_iff.2 (illegalWord_of_opField_zero hop hw),
    (State.reset.accept 0).complete, ?_, by decide⟩
  exact (step_withFetchWord ..).trans (State.engineMove_legal (i := .nop) rfl rfl)

/-! ### The three outcomes (R133) -/

/-- STATUS of an ended command has one of the three forms of R133. -/
theorem State.outcome_of_codeInv {t : State} (h : t.codeInv) :
    (t.status.fault = false ∧ t.status.fail = false ∧ t.status.errcode = 0) ∨
      (t.status.fault = true ∧ t.status.fail = false ∧ t.status.errcode ≠ 0) ∨
      (t.status.fault = false ∧ t.status.fail = true ∧ t.status.errcode ≠ 0) := by
  obtain ⟨hboth, hzero, -⟩ := h
  have hcode : t.status.fault = true ∨ t.status.fail = true → t.status.errcode ≠ 0 := fun hbad h0 => by
    obtain ⟨hfault, hfail⟩ := hzero.1 h0
    simp [hfault, hfail] at hbad
  cases hfault : t.status.fault with
  | true => exact .inr (.inl ⟨rfl, Bool.eq_false_iff.2 fun hfail => hboth ⟨hfault, hfail⟩, hcode (.inl hfault)⟩)
  | false =>
    cases hfail : t.status.fail with
    | true => exact .inr (.inr ⟨rfl, rfl, hcode (.inr hfail)⟩)
    | false => exact .inl ⟨rfl, rfl, hzero.2 ⟨hfault, hfail⟩⟩

/-- Settles O20: what every end of a command leaves, and that no command has another end. -/
theorem everyCommandEnds : Obligations.EveryCommandEnds := by
  intro i s
  obtain ⟨t, ht, ⟨hidle, hdone, hcode, -⟩, -⟩ := (s.ends_exec i).spec
  exact ⟨t, ht, hidle, t.busy_eq_false.2 hidle, hdone, State.outcome_of_codeInv hcode⟩

/-- A command that ends with FAULT or FAIL was stopped: only success clears both. -/
theorem State.Ends.stoppedAs {s t : State} (h : s.Ends (.next t)) (hbad : t.status.fault = true ∨ t.status.fail = true) :
    ∃ fault fail code, s.stoppedAs t fault fail code := by
  generalize hr : Host.Outcome.next t = r at h
  cases h with
  | fault e =>
    obtain ⟨u, hu, hstop, -⟩ := s.raiseFault_spec e
    exact ⟨_, _, _, Host.Outcome.next.inj (hr.trans hu) ▸ hstop⟩
  | lateFault e written =>
    obtain ⟨u, hu, hstop, -⟩ := s.raiseLateFault_spec e written
    exact ⟨_, _, _, Host.Outcome.next.inj (hr.trans hu) ▸ hstop⟩
  | fail e written =>
    obtain ⟨u, hu, hstop, -⟩ := s.raiseFail_spec e written
    exact ⟨_, _, _, Host.Outcome.next.inj (hr.trans hu) ▸ hstop⟩
  | success =>
    obtain rfl := Host.Outcome.next.inj hr
    simp at hbad

/-- Settles O22. -/
theorem failedCommandsChangeOnlyStatus : Obligations.FailedCommandsChangeOnlyStatus := by
  intro i s t h hbad
  obtain ⟨fault, fail, code, -, ⟨hie, hoverrun, -⟩, hflags, hregs, hres⟩ := (h ▸ s.ends_exec i).stoppedAs hbad
  exact ⟨hregs, hres, hflags, hoverrun, hie⟩

end Sys2Proof.Machine
end

section
/-! PROOFS. Where a command may write, and which of its FAULTs are late (40_command_lifecycle.md R133 to R136): the bits a
command changes lie in its written ranges, and a late FAULT has a code that no early check of its command has. -/

namespace Sys2Proof.Machine

/-! ### Bits outside a write -/

theorem State.getBit_memWrite_outside (s : State) {a p : Nat} {bs : List Byte}
    (hp : ¬(8 * a ≤ p ∧ p < 8 * (a + bs.length))) : (s.memWrite a bs).getBit p = s.getBit p := by
  rw [State.getBit, State.byteAt_memWrite, if_neg (by omega)]
  rfl

theorem State.getBit_writeField_outside (s : State) {p v w q : Nat} (hq : ¬(p ≤ q ∧ q < p + w)) :
    (s.writeField p v w).getBit q = s.getBit q := by
  induction w generalizing s p v with
  | zero => rfl
  | succ w ih => rw [State.writeField, ih _ (by omega), State.getBit_putBit, if_neg (by omega)]

theorem State.getBit_writeFields_outside (s : State) {p q : Nat} {fs : List (Nat × Nat)}
    (hq : ¬(p ≤ q ∧ q < p + widthSum fs)) : (s.writeFields p fs).getBit q = s.getBit q := by
  induction fs generalizing s p with
  | nil => rfl
  | cons f fs ih =>
    have hsum : widthSum (f :: fs) = f.2 + widthSum fs := by simp [widthSum]
    rw [State.writeFields, ih _ (by omega), State.getBit_writeField_outside s (by omega)]

/-! ### Writes inside the written ranges (R136) -/

theorem State.writesOnly.refl (s : State) (i : Instr) : s.writesOnly s i := fun _ _ => rfl

@[simp] theorem State.writesOnly_setRegs (s u : State) (i : Instr) (r : ArgRegs) :
    s.writesOnly (u.setRegs r) i ↔ s.writesOnly u i := Iff.rfl

@[simp] theorem State.writesOnly_setRes (s u : State) (i : Instr) (r : ResRegs) :
    s.writesOnly (u.setRes r) i ↔ s.writesOnly u i := Iff.rfl

@[simp] theorem State.writesOnly_setFrame (s u : State) (i : Instr) (last mode : Bool) :
    s.writesOnly (u.setFrame last mode) i ↔ s.writesOnly u i := Iff.rfl

@[simp] theorem State.writesOnly_setRawwhy (s u : State) (i : Instr) (why : Nat) :
    s.writesOnly (u.setRawwhy why) i ↔ s.writesOnly u i := Iff.rfl

theorem State.writesOnly.memWrite {s u : State} {i : Instr} (h : s.writesOnly u i) {sp : Span}
    (hsp : sp ∈ s.writtenSpans i) (hkeep : sp.keep = 0) {bs : List Byte} (hl : bs.length ≤ sp.len) :
    s.writesOnly (u.memWrite sp.addr bs) i := fun p hp => by
  have hout := hp sp hsp
  rw [State.getBit_memWrite_outside u (by omega), h p hp]

theorem State.writesOnly_writeResult {s : State} {i : Instr} (hd : s.dstSpan ∈ s.writtenSpans i) {out : List Byte}
    (hl : out.length ≤ s.dstSpan.len) : s.writesOnly (s.writeResult out) i :=
  (State.writesOnly_setRes ..).2 ((State.writesOnly.refl s i).memWrite hd rfl hl)

/-- Bits from the write cursor on, none at `8 * WLIM` or above, are in `W_span` less the low WBIT bits of its first byte. -/
theorem State.mem_wSpan_of_cursor {s : State} {p n : Nat} (hcur : s.badWCursor = false)
    (hn : s.wCursor + n ≤ 8 * s.args.wlim.toNat) (hp : s.wCursor ≤ p ∧ p < s.wCursor + n) :
    8 * s.wSpan.addr + s.wSpan.keep ≤ p ∧ p < 8 * (s.wSpan.addr + s.wSpan.len) := by
  simp only [State.badWCursor, Bool.or_eq_false_iff, decide_eq_false_iff_not] at hcur
  simp only [State.wCursor, State.wSpan] at hn hp ⊢
  omega

/-- Once its source can be read, the table range of FSE_NORM and FSE_ENC is named (log entries 11, 15). -/
theorem State.tblSpans_eq {s : State} {autoa : Bool} (hdata : (autoa && s.srcSpan.len == 0) = false)
    (hlen : s.srcSpan.len ≤ s.maxRecoded) (hv : s.valid s.srcSpan = true) :
    s.tblSpans autoa = [s.tblSpan (s.alphabet autoa)] := by
  refine if_neg ?_
  cases autoa with
  | false => simp
  | true => simp_all

/-! ### The errors of the decoder and of the frame parser (45_fse_codec.md R272 to R276, 47_frame.md R342) -/

/-- A computation that stops only with one of these codes. -/
def ErrorsIn {α : Type} (l : List ErrCode) (x : Except ErrCode α) : Prop := ∀ e, x = .error e → e ∈ l

namespace ErrorsIn

variable {α β : Type} {l m : List ErrCode}

theorem ok (a : α) : ErrorsIn l (.ok a) := nofun

theorem error {e : ErrCode} (h : e ∈ l) : ErrorsIn (α := α) l (.error e) := fun _ he => Except.error.inj he ▸ h

theorem ite {c : Prop} [Decidable c] {x y : Except ErrCode α} (hx : ErrorsIn l x) (hy : ErrorsIn l y) :
    ErrorsIn l (if c then x else y) := by
  split
  · exact hx
  · exact hy

theorem bind {x : Except ErrCode α} {f : α → Except ErrCode β} (hx : ErrorsIn l x) (hf : ∀ a, ErrorsIn l (f a)) :
    ErrorsIn l (x >>= f) := by
  cases x with
  | error e => exact error (hx e rfl)
  | ok a => exact hf a

theorem mono {x : Except ErrCode α} (h : ErrorsIn l x) (hlm : l ⊆ m) : ErrorsIn m x := fun e he => hlm (h e he)

end ErrorsIn

/-- What the decoder raises on coded bytes with a legal trailing bit offset (R272 to R276). -/
def decodingErrors : List ErrCode := [.freqInvalid, .tableFull, .stateRange, .bitsExhausted, .trailing]

theorem errorsIn_shiftIn (bit : Nat → Bool) (l pos x : Nat) : ErrorsIn [.bitsExhausted] (shiftIn bit l pos x) := by
  induction pos generalizing x with
  | zero => exact .ite (.error (by simp)) (.ok _)
  | succ pos ih => exact .ite (ih _) (.ok _)

theorem errorsIn_decodeSymbols (t : Tables) (bit : Nat → Bool) (A n x pos : Nat) (out : List Nat) :
    ErrorsIn decodingErrors (decodeSymbols t bit A n x pos out) := by
  induction n generalizing x pos out with
  | zero => exact .ite (.ok _) (.error (by simp [decodingErrors]))
  | succ n ih =>
    unfold decodeSymbols
    split
    · exact .error (by simp [decodingErrors])
    · split
      next hshift => exact .error ((errorsIn_shiftIn _ _ _ _).mono (by simp [decodingErrors]) _ hshift)
      · exact ih _ _ _

/-- TOFF_INVALID is the first check of the decoder; every other error is one of the decoding errors. -/
theorem decompress_error {coded : List Byte} {f : List Nat} {toff x0 A olen : Nat} {e : ErrCode}
    (h : decompress coded f toff x0 A olen = .error e) :
    badToff toff coded.length = true ∧ e = .toffInvalid ∨ e ∈ decodingErrors := by
  unfold decompress at h
  split at h
  next hbad => exact .inl ⟨hbad, (Except.error.inj h).symm⟩
  · refine .inr ?_
    split at h
    · exact ErrorsIn.error (α := List Byte) (by simp [decodingErrors]) e h
    · split at h
      · exact ErrorsIn.error (α := List Byte) (by simp [decodingErrors]) e h
      · split at h
        · exact ErrorsIn.error (α := List Byte) (by simp [decodingErrors]) e h
        · split at h
          next hdec => exact Except.error.inj h ▸ errorsIn_decodeSymbols _ _ _ _ _ _ _ _ hdec
          · cases h

theorem State.errorsIn_takeField (s : State) (limit w p : Nat) : ErrorsIn [.truncated] (s.takeField limit w p) :=
  .ite (.error (by simp)) (.ok _)

theorem State.errorsIn_takeFields (s : State) (limit w n p : Nat) :
    ErrorsIn [.truncated] (s.takeFields limit w n p) := by
  induction n generalizing p with
  | zero => exact .ok _
  | succ n ih =>
    unfold State.takeFields
    split
    next hv => exact .error (s.errorsIn_takeField _ _ _ _ hv)
    · split
      next hvs => exact .error (ih _ _ hvs)
      · exact .ok _

/-- What reading the fields of a frame raises (47_frame.md R325). -/
def parsingErrors : List ErrCode := [.truncated, .frameField, .lastFlag, .modeTag]

theorem State.errorsIn_takeField_parsing (s : State) (limit w p : Nat) : ErrorsIn parsingErrors (s.takeField limit w p) :=
  (s.errorsIn_takeField limit w p).mono (by simp [parsingErrors])

theorem State.errorsIn_takeFields_parsing (s : State) (limit w n p : Nat) :
    ErrorsIn parsingErrors (s.takeFields limit w n p) :=
  (s.errorsIn_takeFields limit w n p).mono (by simp [parsingErrors])

theorem State.errorsIn_parseEntropy (s : State) (limit p : Nat) : ErrorsIn parsingErrors (s.parseEntropy limit p) := by
  have field := s.errorsIn_takeField_parsing limit
  have fields := s.errorsIn_takeFields_parsing limit
  have badField : ErrorsIn (α := FrameBody × Nat) parsingErrors (.error .frameField) := .error (by simp [parsingErrors])
  exact .bind (field _ _) fun _ => .ite badField <| .bind (field _ _) fun _ => .ite badField <|
    .bind (fields _ _ _) fun _ => .bind (field _ _) fun _ => .bind (field _ _) fun _ => .bind (field _ _) fun _ =>
    .bind (fields _ _ _) fun _ => .ok _

theorem State.errorsIn_parseRaw (s : State) (limit p : Nat) : ErrorsIn parsingErrors (s.parseRaw limit p) :=
  .bind (s.errorsIn_takeField_parsing _ _ _) fun _ => .ite (.error (by simp [parsingErrors])) <|
    .bind (s.errorsIn_takeFields_parsing _ _ _ _) fun _ => .ok _

theorem State.errorsIn_parseFrame (s : State) (limit p : Nat) : ErrorsIn parsingErrors (s.parseFrame limit p) := by
  have field := s.errorsIn_takeField_parsing limit
  exact .bind (field _ _) fun _ => .ite (.error (by simp [parsingErrors])) <|
    .bind (field _ _) fun _ => .ite (.error (by simp [parsingErrors])) <|
    .bind (field _ _) fun _ =>
    .ite (.bind (s.errorsIn_parseEntropy limit _) fun _ => .ok _) (.bind (s.errorsIn_parseRaw limit _) fun _ => .ok _)

theorem FrameBody.errorsIn_recoded (b : FrameBody) : ErrorsIn (.toffInvalid :: decodingErrors) b.recoded := by
  intro e he
  cases b with
  | entropy => exact (decompress_error he).elim (fun h => by simp [h.2]) (List.mem_cons_of_mem _)
  | raw => cases he

/-- What is raised after the recoded block is there (R342). -/
def restoringErrors : List ErrCode := [.blockLen, .bwtRot, .dstOverflow, .bwtCycle]

theorem errorsIn_restoreBlock (maxBlock dcap rot : Nat) (r : List Byte) :
    ErrorsIn restoringErrors (restoreBlock maxBlock dcap rot r) := by
  have herr : ∀ e ∈ restoringErrors, ErrorsIn (α := List Byte) restoringErrors (.error e) := fun _ => .error
  refine .ite (herr _ (by decide)) <| .ite (herr _ (by decide)) <| .ite (herr _ (by decide)) ?_
  split
  · exact herr _ (by decide)
  · exact .ok _

/-- All that FRAME_DEC raises once its ranges are checked (R342). -/
def frameErrors : List ErrCode := parsingErrors ++ .toffInvalid :: decodingErrors ++ restoringErrors

theorem State.errorsIn_frameDecode (s : State) (limit p dcap : Nat) :
    ErrorsIn frameErrors (s.frameDecode limit p dcap) :=
  .bind ((s.errorsIn_parseFrame limit p).mono (by decide)) fun frame =>
    .bind (frame.body.errorsIn_recoded.mono (by decide)) fun _ =>
    .bind ((errorsIn_restoreBlock _ _ _ _).mono (by decide)) fun _ => .ok _


/-! ### The ends of a command, with its ranges and its late codes -/

/-- The codes of the FAULTs that a command raises once it has passed its early checks (R135). -/
def lateCodes : Instr → List ErrCode
  | .nop | .bwtFwd | .mtfEnc | .mtfDec | .bsPut _ | .bsGet _ | .frameEnc _ _ => []
  | .bwtInv => [.bwtCycle]
  | .rleEnc | .rleDec => [.dstOverflow]
  | .fseNorm _ => [.symbol]
  | .fseBuild => [.freqInvalid, .tableFull]
  | .fseEnc _ => [.symbol, .dstOverflow]
  | .fseDec => decodingErrors
  | .frameDec => frameErrors

/-- The ways command `i` can end in `s`: what it writes, or leaves unspecified, is in its written ranges (R136), and a FAULT
that leaves bits unspecified has a late code. -/
inductive State.EndsWithin (s : State) (i : Instr) : Result → Prop
  | fault (e : ErrCode) : s.EndsWithin i (s.raiseFault e)
  | lateFault {e : ErrCode} {written : List Span} (he : e ∈ lateCodes i) (hw : written ⊆ s.writtenSpans i) :
      s.EndsWithin i (s.raiseLateFault e written)
  | fail (e : ErrCode) {written : List Span} (hw : written ⊆ s.writtenSpans i) : s.EndsWithin i (s.raiseFail e written)
  | success {u : State} (h : s.writesOnly u i) : s.EndsWithin i (.next u.complete)

theorem State.endsWithin_execBwtFwd (s : State) : s.EndsWithin .bwtFwd (execBwtFwd s) := by
  unfold execBwtFwd
  split
  · exact .fault _
  next hchecks =>
    obtain ⟨-, hcap⟩ := State.valid_dstSpan_of_checks hchecks
    refine .success ((State.writesOnly_setRegs ..).2 (State.writesOnly_writeResult List.mem_cons_self ?_))
    rwa [forward_length, State.srcBytes, State.memRead_length]

theorem State.endsWithin_execBwtInv (s : State) : s.EndsWithin .bwtInv (execBwtInv s) := by
  unfold execBwtInv
  split
  · exact .fault _
  next hchecks =>
    obtain ⟨-, hcap⟩ := State.valid_dstSpan_of_checks hchecks
    split
    · exact .lateFault List.mem_cons_self (List.Subset.refl _)
    next x hx =>
      refine .success (State.writesOnly_writeResult List.mem_cons_self ?_)
      rwa [inverse_length hx, State.srcBytes, State.memRead_length]

theorem State.endsWithin_recodeBlock (s : State) {i : Instr} (hi : s.writtenSpans i = [s.dstSpan])
    {f : List Byte → List Byte} (hf : ∀ x, (f x).length = x.length) : s.EndsWithin i (s.recodeBlock f) := by
  unfold State.recodeBlock
  split
  · exact .fault _
  next hchecks =>
    obtain ⟨-, hcap⟩ := State.valid_dstSpan_of_checks hchecks
    refine .success (State.writesOnly_writeResult (hi ▸ List.mem_cons_self) ?_)
    rwa [hf, State.srcBytes, State.memRead_length]

theorem State.endsWithin_recodeRuns (s : State) {i : Instr} (hi : s.writtenSpans i = [s.dstSpan])
    (hlate : .dstOverflow ∈ lateCodes i) (limit : Nat) (f : List Byte → List Byte) :
    s.EndsWithin i (s.recodeRuns limit f) := by
  unfold State.recodeRuns
  split
  · exact .fault _
  · dsimp only
    split
    · exact .lateFault hlate (hi ▸ List.Subset.refl _)
    next hfits => exact .success (State.writesOnly_writeResult (hi ▸ List.mem_cons_self) (Nat.not_lt.1 hfits))

theorem State.endsWithin_execFseNorm (s : State) (autoa : Bool) :
    s.EndsWithin (.fseNorm autoa) (execFseNorm autoa s) := by
  unfold execFseNorm
  split
  · exact .fault _
  next hearly =>
    simp only [firstFailing_eq_none, List.forall_mem_cons, Bool.or_eq_false_iff, Bool.not_eq_false',
      decide_eq_false_iff_not, Nat.not_lt] at hearly
    obtain ⟨⟨hlen, -⟩, hsrc, -⟩ := hearly
    split
    · exact .fail _ (List.nil_subset _)
    next hdata =>
      have htbl : s.writtenSpans (.fseNorm autoa) = [s.tblSpan (s.alphabet autoa)] :=
        State.tblSpans_eq (Bool.eq_false_iff.2 hdata) hlen hsrc
      have hsub : [s.tblSpan (s.alphabet autoa)] ⊆ s.writtenSpans (.fseNorm autoa) := htbl ▸ List.Subset.refl _
      dsimp only
      split
      · exact .fault _
      · split
        · exact .fail _ hsub
        · split
          · exact .lateFault List.mem_cons_self hsub
          · refine .success ((State.writesOnly_setRes ..).2 ((State.writesOnly_setRegs ..).2 ?_))
            refine (State.writesOnly.refl s _).memWrite (htbl ▸ List.mem_cons_self) rfl ?_
            rw [bytes16s_length, normalize_length]
            rfl

theorem State.endsWithin_execFseBuild (s : State) : s.EndsWithin .fseBuild (execFseBuild s) := by
  unfold execFseBuild
  dsimp only
  split
  · exact .fault _
  next hchecks =>
    simp only [firstFailing_eq_none, List.forall_mem_cons, State.capacityCheck_eq_false] at hchecks
    obtain ⟨-, -, -, hcap, -⟩ := hchecks
    split
    · exact .lateFault (by decide) (List.Subset.refl _)
    · split
      · exact .lateFault (by decide) (List.Subset.refl _)
      next t ht =>
        refine .success ((State.writesOnly_setRes ..).2 ?_)
        refine (State.writesOnly.refl s _).memWrite List.mem_cons_self rfl ?_
        rw [dumpBytes_length, buildTables_owner_length ht]
        exact hcap

theorem State.endsWithin_execFseEnc (s : State) (autoa : Bool) : s.EndsWithin (.fseEnc autoa) (execFseEnc autoa s) := by
  have hdst : s.dstSpan ∈ s.writtenSpans (.fseEnc autoa) := List.mem_append_right _ List.mem_cons_self
  unfold execFseEnc
  split
  · exact .fault _
  next hearly =>
    simp only [firstFailing_eq_none, List.forall_mem_cons, Bool.or_eq_false_iff, Bool.not_eq_false',
      decide_eq_false_iff_not, Nat.not_lt] at hearly
    obtain ⟨⟨hlen, -⟩, ⟨⟨hsrc, -⟩, -⟩, -⟩ := hearly
    split
    · exact .fail _ (List.cons_subset.2 ⟨hdst, List.nil_subset _⟩)
    next hdata =>
      have hall : s.writtenSpans (.fseEnc autoa) = [s.tblSpan (s.alphabet autoa), s.dstSpan] :=
        congrArg (· ++ [s.dstSpan]) (State.tblSpans_eq (Bool.eq_false_iff.2 hdata) hlen hsrc)
      have hsub : [s.tblSpan (s.alphabet autoa), s.dstSpan] ⊆ s.writtenSpans (.fseEnc autoa) := hall ▸ List.Subset.refl _
      dsimp only
      split
      · exact .fault _
      · split
        · exact .fail _ hsub
        · split
          · exact .lateFault (by simp [lateCodes]) hsub
          · split
            · exact .fail _ hsub
            next c hc =>
              split
              · exact .lateFault (by simp [lateCodes]) hsub
              next hfits =>
                have hcoded := (State.writesOnly.refl s _).memWrite hdst rfl (Nat.not_lt.1 hfits)
                refine .success ((State.writesOnly_setRes ..).2 ((State.writesOnly_setRegs ..).2 ?_))
                refine hcoded.memWrite (hall ▸ List.mem_cons_self) rfl ?_
                rw [bytes16s_length, compress_freq_length hc]
                rfl

theorem State.endsWithin_execFseDec (s : State) : s.EndsWithin .fseDec (execFseDec s) := by
  unfold execFseDec
  dsimp only
  split
  · exact .fault _
  next hchecks =>
    simp only [firstFailing_eq_none, List.forall_mem_cons, State.capacityCheck_eq_false] at hchecks
    obtain ⟨-, htoff, -, -, hcap, -⟩ := hchecks
    split
    next e he =>
      rcases decompress_error he with ⟨hbad, -⟩ | hlate
      · rw [State.srcBytes, State.memRead_length, htoff] at hbad
        cases hbad
      · exact .lateFault hlate (List.Subset.refl _)
    next out hout =>
      refine .success ((State.writesOnly_setRes ..).2 ?_)
      refine (State.writesOnly.refl s _).memWrite List.mem_cons_self rfl ?_
      rw [decompress_length hout]
      exact hcap

theorem State.endsWithin_execBsPut (s : State) (nbits : Nat) : s.EndsWithin (.bsPut nbits) (execBsPut nbits s) := by
  unfold execBsPut
  split
  · exact .fault _
  next hchecks =>
    simp only [firstFailing_eq_none, List.forall_mem_cons, decide_eq_false_iff_not] at hchecks
    obtain ⟨-, hcur, -, hroom, -⟩ := hchecks
    refine .success ((State.writesOnly_setRegs ..).2 fun p hp => State.getBit_writeField_outside s fun hin => ?_)
    refine hp s.wSpan List.mem_cons_self (State.mem_wSpan_of_cursor hcur ?_ hin)
    simp only [fieldBytes, State.wCursor] at hroom ⊢
    omega

theorem State.endsWithin_execBsGet (s : State) (nbits : Nat) : s.EndsWithin (.bsGet nbits) (execBsGet nbits s) := by
  unfold execBsGet
  split
  · exact .fault _
  · exact .success ((State.writesOnly_setRegs ..).2 (.refl s _))

theorem State.endsWithin_execFrameEnc (s : State) (last forceRaw : Bool) :
    s.EndsWithin (.frameEnc last forceRaw) (execFrameEnc last forceRaw s) := by
  unfold execFrameEnc
  split
  · exact .fault _
  next hchecks =>
    simp only [firstFailing_eq_none, List.forall_mem_cons, Bool.or_eq_false_iff] at hchecks
    obtain ⟨⟨-, hcur⟩, -⟩ := hchecks
    dsimp only
    split
    · exact .fault _
    next hfits =>
      refine .success ?_
      simp only [State.writesOnly_setRawwhy, State.writesOnly_setFrame, State.writesOnly_setRes, State.writesOnly_setRegs]
      exact fun p hp => State.getBit_writeFields_outside s fun hin =>
        hp s.wSpan List.mem_cons_self (State.mem_wSpan_of_cursor hcur (Nat.not_lt.1 hfits) hin)

theorem State.endsWithin_execFrameDec (s : State) : s.EndsWithin .frameDec (execFrameDec s) := by
  unfold execFrameDec
  split
  · exact .fault _
  · split
    next e he => exact .lateFault (s.errorsIn_frameDecode _ _ _ e he) (List.Subset.refl _)
    next frame x hx =>
      refine .success ?_
      simp only [State.writesOnly_setFrame, State.writesOnly_setRes, State.writesOnly_setRegs]
      exact (State.writesOnly.refl s _).memWrite List.mem_cons_self rfl (State.frameDecode_length hx)

/-- Every command ends within its written ranges. -/
theorem State.endsWithin_exec (s : State) (i : Instr) : s.EndsWithin i (exec i s) := by
  cases i with
  | nop => exact .success (.refl s _)
  | bwtFwd => exact s.endsWithin_execBwtFwd
  | bwtInv => exact s.endsWithin_execBwtInv
  | mtfEnc => exact s.endsWithin_recodeBlock rfl mtfEncode_length
  | mtfDec => exact s.endsWithin_recodeBlock rfl mtfDecode_length
  | rleEnc => exact s.endsWithin_recodeRuns rfl List.mem_cons_self _ rleEncode
  | rleDec => exact s.endsWithin_recodeRuns rfl List.mem_cons_self _ rleDecode
  | fseNorm autoa => exact s.endsWithin_execFseNorm autoa
  | fseBuild => exact s.endsWithin_execFseBuild
  | fseEnc autoa => exact s.endsWithin_execFseEnc autoa
  | fseDec => exact s.endsWithin_execFseDec
  | bsPut nbits => exact s.endsWithin_execBsPut nbits
  | bsGet nbits => exact s.endsWithin_execBsGet nbits
  | frameEnc last forceRaw => exact s.endsWithin_execFrameEnc last forceRaw
  | frameDec => exact s.endsWithin_execFrameDec

/-! ### The frame of every command -/

/-- Ranges left unspecified change nothing outside the written ranges they are among. -/
theorem State.writesOnly_unspecified {s : State} {i : Instr} {written : List Span} (hw : written ⊆ s.writtenSpans i) :
    s.writesOnly (s.unspecified written) i := fun _ hp =>
  State.getBit_unspecified_outside s (fun _ hsp => State.keep_le_of_mem_writtenSpans (hw hsp)) fun sp hsp => hp sp (hw hsp)

theorem State.EndsWithin.writesOnly {s t : State} {i : Instr} (h : s.EndsWithin i (.next t)) : s.writesOnly t i := by
  generalize hr : Host.Outcome.next t = r at h
  cases h with
  | fault => exact Host.Outcome.next.inj hr ▸ State.writesOnly.refl s i
  | lateFault _ hw | fail _ hw => exact Host.Outcome.next.inj hr ▸ State.writesOnly_unspecified hw
  | success hu => exact Host.Outcome.next.inj hr ▸ hu

/-- Settles O21. -/
theorem commandsWriteOnlyTheirRanges : Obligations.CommandsWriteOnlyTheirRanges := by
  intro i s t h
  obtain ⟨u, hu, ⟨-, -, -, hrest⟩, -⟩ := (s.ends_exec i).spec
  exact ⟨(h ▸ s.endsWithin_exec i).writesOnly, Host.Outcome.next.inj (hu.symm.trans h) ▸ hrest⟩

/-! ### Early FAULTs (R135, R370) -/

/-- The code is that of an early check of the command: of the word, ARG, RANGE or OVERLAP, or a known capacity, or one of
the two argument checks of log entry 10. -/
abbrev EarlyCode (i : Instr) (code : Byte) : Prop :=
  code ∈ [0x01, 0x02, 0x03, 0x04] ∨
    (code = 0x05 ∧ (i ∈ [Instr.bwtFwd, .bwtInv, .mtfEnc, .mtfDec, .fseBuild, .fseDec] ∨ (∃ n, i = .bsPut n) ∨
      ∃ last forceRaw, i = .frameEnc last forceRaw)) ∨
    (code = 0x06 ∧ i = .bwtInv) ∨ (code = 0x10 ∧ i = .fseDec)

/-- No late FAULT of a command has the code of one of its early checks. -/
theorem not_earlyCode_of_mem_lateCodes {i : Instr} {e : ErrCode} (he : e ∈ lateCodes i) : ¬EarlyCode i e.code := by
  cases i with
  | nop | bwtFwd | mtfEnc | mtfDec | bsPut | bsGet | frameEnc => cases he
  | bwtInv | rleEnc | rleDec | fseNorm | fseBuild | fseEnc | fseDec | frameDec =>
    revert e
    simp [lateCodes, decodingErrors, frameErrors, parsingErrors, restoringErrors, EarlyCode, ErrCode.code]

theorem State.EndsWithin.mem_eq_of_earlyCode {s t : State} {i : Instr} (h : s.EndsWithin i (.next t))
    (hfault : t.status.fault = true) (hearly : EarlyCode i t.status.errcode) : t.mem = s.mem := by
  generalize hr : Host.Outcome.next t = r at h
  cases h with
  | fault => exact Host.Outcome.next.inj hr ▸ rfl
  | lateFault he =>
    obtain rfl := Host.Outcome.next.inj hr
    exact absurd hearly (not_earlyCode_of_mem_lateCodes he)
  | fail | success =>
    obtain rfl := Host.Outcome.next.inj hr
    cases hfault

/-- Settles O23: of the ends of a command with an early code, only `raiseFault` is a FAULT. -/
theorem earlyFaultsLeaveDmem : Obligations.EarlyFaultsLeaveDmem := fun i s _ h hfault hearly =>
  (h ▸ s.endsWithin_exec i).mem_eq_of_earlyCode hfault hearly

end Sys2Proof.Machine
end

section
/-! PROOFS. The early checks of the byte commands, in their order (40_command_lifecycle.md R135, 41_blocksort.md R160, R165,
42_mtf.md R182, R184, 43_rle.md R203, R206). -/

namespace Sys2Proof.Machine

/-- The byte commands, each with the limit on its source length. -/
abbrev State.ByteCommand (s : State) (i : Instr) (limit : Nat) : Prop :=
  (i ∈ [Instr.bwtFwd, .bwtInv, .mtfEnc, .mtfDec, .rleEnc] ∧ limit = s.cfg.maxBlock) ∨
    (i = .rleDec ∧ limit = s.cfg.maxBlock + s.cfg.maxBlock / 4)

/-- The check of its own that a byte command makes after that of the length: BWT_INV's of ROT (R165). -/
def State.ownChecks (s : State) (i : Instr) : List (Bool × ErrCode) :=
  if i = .bwtInv then [(decide (s.srcSpan.len < s.args.rot.toNat), .bwtRot)] else []

/-- The check of the capacity that the commands that keep the length make before they read data (R135 kind (5)). -/
def State.knownCapacityChecks (s : State) (i : Instr) : List (Bool × ErrCode) :=
  if i ∈ [Instr.bwtFwd, .bwtInv, .mtfEnc, .mtfDec] then [s.capacityCheck s.srcSpan.len] else []

theorem execBwtFwd_of_failing {s : State} {e : ErrCode}
    (h : firstFailing (s.byteChecks s.cfg.maxBlock [] ++ [s.capacityCheck s.srcSpan.len]) = some e) :
    execBwtFwd s = s.raiseFault e := by
  simp only [execBwtFwd, h]

theorem execBwtInv_of_failing {s : State} {e : ErrCode}
    (h : firstFailing (s.byteChecks s.cfg.maxBlock [(decide (s.srcSpan.len < s.args.rot.toNat), .bwtRot)] ++
      [s.capacityCheck s.srcSpan.len]) = some e) : execBwtInv s = s.raiseFault e := by
  simp only [execBwtInv, h]

theorem State.recodeBlock_of_failing {s : State} {e : ErrCode} (f : List Byte → List Byte)
    (h : firstFailing (s.byteChecks s.cfg.maxBlock [] ++ [s.capacityCheck s.srcSpan.len]) = some e) :
    s.recodeBlock f = s.raiseFault e := by
  simp only [State.recodeBlock, h]

theorem State.recodeRuns_of_failing {s : State} {limit : Nat} {e : ErrCode} (f : List Byte → List Byte)
    (h : firstFailing (s.byteChecks limit []) = some e) : s.recodeRuns limit f = s.raiseFault e := by
  simp only [State.recodeRuns, h]

/-- A byte command raises the first of its early checks that fails. -/
theorem State.exec_of_failing {s : State} {i : Instr} {limit : Nat} {e : ErrCode} (hi : s.ByteCommand i limit)
    (h : firstFailing (s.byteChecks limit (s.ownChecks i) ++ s.knownCapacityChecks i) = some e) :
    exec i s = s.raiseFault e := by
  rcases hi with ⟨hi, rfl⟩ | ⟨rfl, rfl⟩
  · simp only [List.mem_cons, List.not_mem_nil, or_false] at hi
    rcases hi with rfl | rfl | rfl | rfl | rfl
    · exact execBwtFwd_of_failing h
    · exact execBwtInv_of_failing h
    · exact State.recodeBlock_of_failing mtfEncode h
    · exact State.recodeBlock_of_failing mtfDecode h
    · exact State.recodeRuns_of_failing rleEncode h
  · exact State.recodeRuns_of_failing rleDecode h

theorem State.ownChecks_pass {s : State} {i : Instr} (h : i = .bwtInv → s.args.rot.toNat ≤ s.args.slen.toNat) :
    ∀ c ∈ s.ownChecks i, c.1 = false := by
  unfold State.ownChecks
  split
  next hi => exact List.forall_mem_singleton.2 (decide_eq_false (Nat.not_lt.2 (h hi)))
  · exact fun _ hc => absurd hc List.not_mem_nil

/-! ### What the checks report, by the operands -/

theorem State.firstFailing_byteChecks_arg {s : State} {limit : Nat} (own : List (Bool × ErrCode))
    (h : limit < s.args.slen.toNat) : firstFailing (s.byteChecks limit own) = some .arg := by
  simp [State.byteChecks, firstFailing, State.srcSpan, h]

/-- Past the length and its own checks, a byte command checks the two ranges and then their overlap. -/
theorem State.firstFailing_byteChecks_ranges {s : State} {limit : Nat} {own : List (Bool × ErrCode)}
    (hlen : s.args.slen.toNat ≤ limit) (hown : ∀ c ∈ own, c.1 = false) :
    firstFailing (s.byteChecks limit own) =
      firstFailing [(!s.valid s.srcSpan || !s.valid s.dstSpan, .range), (s.srcSpan.overlaps s.dstSpan, .overlap)] := by
  have hlimit : decide (limit < s.srcSpan.len) = false := decide_eq_false (Nat.not_lt.2 hlen)
  rw [State.byteChecks, List.cons_append, firstFailing, hlimit, if_neg Bool.false_ne_true, firstFailing_append,
    firstFailing_eq_none.2 hown, Option.none_or]

theorem State.firstFailing_ranges_range {s : State}
    (h : ¬(s.inDmem s.args.src.toNat s.args.slen.toNat ∧ s.inDmem s.args.dst.toNat s.args.dcap.toNat)) :
    firstFailing [(!s.valid s.srcSpan || !s.valid s.dstSpan, .range), (s.srcSpan.overlaps s.dstSpan, .overlap)] =
      some .range := by
  have hbad : (!s.valid s.srcSpan || !s.valid s.dstSpan) = true := by
    rw [← Bool.not_and, Bool.not_eq_true', ← Bool.not_eq_true, Bool.and_eq_true, State.valid_iff, State.valid_iff]
    exact h
  rw [firstFailing, hbad, if_pos rfl]

theorem State.firstFailing_ranges_overlap {s : State} (hsrc : s.inDmem s.args.src.toNat s.args.slen.toNat)
    (hdst : s.inDmem s.args.dst.toNat s.args.dcap.toNat)
    (h : ¬apart s.args.src.toNat s.args.slen.toNat s.args.dst.toNat s.args.dcap.toNat) :
    firstFailing [(!s.valid s.srcSpan || !s.valid s.dstSpan, .range), (s.srcSpan.overlaps s.dstSpan, .overlap)] =
      some .overlap := by
  have hover : s.srcSpan.overlaps s.dstSpan = true :=
    (Bool.eq_false_or_eq_true _).resolve_right fun hno => h ((Span.overlaps_eq_false ..).1 hno)
  rw [firstFailing, (s.valid_iff s.srcSpan).2 hsrc, (s.valid_iff s.dstSpan).2 hdst, firstFailing, hover]
  rfl

theorem State.firstFailing_knownCapacityChecks {s : State} {i : Instr}
    (hi : i ∈ [Instr.bwtFwd, .bwtInv, .mtfEnc, .mtfDec]) (h : s.args.dcap.toNat < s.args.slen.toNat) :
    firstFailing (s.knownCapacityChecks i) = some .dstOverflow := by
  have hcap : decide (s.dstSpan.len < s.srcSpan.len) = true := decide_eq_true h
  rw [State.knownCapacityChecks, if_pos hi, State.capacityCheck, hcap]
  rfl

/-- Settles O31: the checks of a byte command are one list, and `exec` raises the first that fails. -/
theorem byteCommandsCheckInOrder : Obligations.ByteCommandsCheckInOrder := by
  intro s i limit hi
  have early : ∀ e, firstFailing (s.byteChecks limit (s.ownChecks i) ++ s.knownCapacityChecks i) = some e →
      s.earlyFault i e.code := fun e he => by
    rw [State.earlyFault, State.exec_of_failing hi he]
    exact s.raiseFault_spec e
  simp only [firstFailing_append] at early
  refine ⟨fun hlen => early .arg ?_, fun hlen hrot => ?_⟩
  · rw [State.firstFailing_byteChecks_arg _ hlen, Option.some_or]
  · have hown := s.ownChecks_pass hrot
    rw [State.firstFailing_byteChecks_ranges hlen hown] at early
    refine ⟨fun hrange => early .range ?_, fun hsrc hdst hover => early .overlap ?_, fun hcap hready hdcap =>
      early .dstOverflow ?_⟩
    · rw [State.firstFailing_ranges_range hrange, Option.some_or]
    · rw [State.firstFailing_ranges_overlap hsrc hdst hover, Option.some_or]
    · rw [← State.firstFailing_byteChecks_ranges hlen hown, (s.byteChecks_eq_none limit _).2 ⟨hready, hown⟩,
        Option.none_or, State.firstFailing_knownCapacityChecks hcap hdcap]

end Sys2Proof.Machine
end

section
/-! PROOFS. The suffix order of the block sort (41_blocksort.md R151, R152): it is the one sorted order of the suffixes of the
augmented block, and it sorts the cyclic rotations too. -/

namespace Sys2Proof.Machine

/-! ### Lexicographic order (R152) -/

/-- `lexLe` is the library's order of lists. -/
theorem lexLe_iff_le (x y : List Nat) : lexLe x y = true ↔ x ≤ y := by
  rw [← not_lt]
  induction x generalizing y with
  | nil => simp [lexLe]
  | cons p x ih =>
    cases y with
    | nil => simp [lexLe]
    | cons q y =>
      simp only [lexLe, Bool.or_eq_true, Bool.and_eq_true, decide_eq_true_eq, beq_iff_eq, ih, List.cons_lt_cons_iff]
      have htri := Nat.lt_trichotomy p q
      grind

/-- Lists compare by their first `n` symbols, and by the rest where those are equal. -/
theorem lt_iff_take_drop (n : Nat) (x y : List Nat) :
    x < y ↔ x.take n < y.take n ∨ x.take n = y.take n ∧ x.drop n < y.drop n := by
  induction n generalizing x y with
  | zero => simp
  | succ n ih =>
    cases x with
    | nil => cases y <;> simp
    | cons p x =>
      cases y with
      | nil => simp
      | cons q y =>
        simp only [List.take_succ_cons, List.drop_succ_cons, List.cons_lt_cons_iff, List.cons.injEq, ih x y]
        tauto

/-- A list that is smaller, but not as the beginning of the other, stays smaller whatever follows. -/
theorem append_lt_append_of_not_prefix {x y : List Nat} (hlt : x < y) (hpre : ¬x <+: y) (u v : List Nat) :
    x ++ u < y ++ v := by
  induction x generalizing y with
  | nil => exact absurd y.nil_prefix hpre
  | cons p x ih =>
    cases y with
    | nil => exact absurd hlt (List.not_lt_nil _)
    | cons q y =>
      rw [List.cons_append, List.cons_append, List.cons_lt_cons_iff]
      rcases List.cons_lt_cons_iff.1 hlt with h | ⟨rfl, h⟩
      · exact .inl h
      · exact .inr ⟨rfl, ih h fun hxy => hpre (List.cons_prefix_cons.2 ⟨rfl, hxy⟩)⟩

/-! ### Stable sorting (R19) -/

theorem stableSortBy_perm {α : Type} (le : α → α → Bool) (xs : List α) : (stableSortBy le xs).Perm xs :=
  List.perm_insertionSort _ xs

theorem pairwise_stableSortBy {α β : Type} [LinearOrder β] {le : α → α → Bool} {key : α → β}
    (hkey : ∀ x y, le x y = true ↔ key x ≤ key y) (xs : List α) :
    (stableSortBy le xs).Pairwise (fun x y => key x ≤ key y) := by
  have htotal : Std.Total (fun x y => le x y = true) := ⟨fun x y => by simpa only [hkey] using le_total (key x) (key y)⟩
  have htrans : IsTrans α (fun x y => le x y = true) := ⟨fun x y z => by simpa only [hkey] using le_trans⟩
  exact (List.pairwise_insertionSort (fun x y => le x y = true) xs).imp (hkey _ _).1

/-- An insertion depends only on how the new element compares with the others. -/
theorem orderedInsert_congr {α : Type} {r s : α → α → Prop} [DecidableRel r] [DecidableRel s] {x : α} {l : List α}
    (h : ∀ y ∈ l, r x y ↔ s x y) : l.orderedInsert r x = l.orderedInsert s x := by
  induction l with
  | nil => rfl
  | cons y l ih =>
    obtain ⟨hy, hl⟩ := List.forall_mem_cons.1 h
    simp only [List.orderedInsert_cons, hy, ih hl]

/-- Sorting a rising list keeps equal keys rising: sorting by the key is sorting by the key and then the value. -/
theorem pairwise_stableSortBy_of_rising {β : Type} [LinearOrder β] {le : Nat → Nat → Bool} {key : Nat → β}
    (hkey : ∀ x y, le x y = true ↔ key x ≤ key y) {xs : List Nat} (hxs : xs.Pairwise (· < ·)) :
    (stableSortBy le xs).Pairwise (fun x y => toLex (key x, x) ≤ toLex (key y, y)) := by
  induction xs with
  | nil => exact List.Pairwise.nil
  | cons x xs ih =>
    obtain ⟨hx, hxs⟩ := List.pairwise_cons.1 hxs
    have hinsert : stableSortBy le (x :: xs) =
        (stableSortBy le xs).orderedInsert (fun x y => toLex (key x, x) ≤ toLex (key y, y)) x := by
      refine orderedInsert_congr fun y hy => ?_
      have hxy : x ≤ y := (hx y ((stableSortBy_perm le xs).mem_iff.1 hy)).le
      rw [hkey, Prod.Lex.toLex_le_toLex, le_iff_lt_or_eq]
      simp [hxy]
    have htotal : Std.Total (fun x y : Nat => toLex (key x, x) ≤ toLex (key y, y)) := ⟨fun _ _ => le_total _ _⟩
    have htrans : IsTrans Nat (fun x y : Nat => toLex (key x, x) ≤ toLex (key y, y)) := ⟨fun _ _ _ => le_trans⟩
    rw [hinsert]
    exact (ih hxs).orderedInsert x _

/-! ### The augmented block (R151) -/

@[simp] theorem augmented_length (b : List Byte) : (augmented b).length = b.length + 1 := by
  simp [augmented, symbols]

theorem sentinel_notMem_symbols (x : List Byte) : sentinel ∉ symbols x := fun h => by
  obtain ⟨v, -, hv⟩ := List.mem_map.1 h
  exact absurd v.isLt (hv ▸ Nat.lt_irrefl _)

theorem augmented_getD_of_lt {b : List Byte} {p : Nat} (hp : p < b.length) :
    (augmented b).getD p 0 = (b.getD p 0).toNat := by
  rw [augmented, List.getD_append _ _ _ _ (by simpa [symbols] using hp)]
  exact List.getD_map b (0 : Byte) BitVec.toNat

theorem augmented_getD_length (b : List Byte) : (augmented b).getD b.length 0 = sentinel := by
  simp [augmented, symbols]

/-- The sentinel occurs once, at the end. -/
theorem augmented_getD_eq_sentinel_iff {b : List Byte} {p : Nat} (hp : p ≤ b.length) :
    (augmented b).getD p 0 = sentinel ↔ p = b.length := by
  constructor
  · intro h
    by_contra hne
    rw [augmented_getD_of_lt (Nat.lt_of_le_of_ne hp hne)] at h
    exact absurd (b.getD p 0).isLt (h ▸ Nat.lt_irrefl _)
  · rintro rfl
    exact augmented_getD_length b

theorem drop_augmented {b : List Byte} {p : Nat} (hp : p ≤ b.length) :
    (augmented b).drop p = symbols (b.drop p) ++ [sentinel] := by
  rw [augmented, List.drop_append_of_le_length (by simpa [symbols] using hp), symbols, symbols, List.map_drop]

theorem drop_augmented_eq_cons {b : List Byte} {p : Nat} (hp : p ≤ b.length) :
    (augmented b).drop p = (augmented b).getD p 0 :: (augmented b).drop (p + 1) := by
  have hlt : p < (augmented b).length := by rw [augmented_length]; omega
  rw [List.drop_eq_getElem_cons hlt, List.getD_eq_getElem _ _ hlt]

/-- No suffix of the augmented block begins another: each ends with the one sentinel (R152). -/
theorem eq_of_drop_augmented_prefix {b : List Byte} {p q : Nat} (hp : p ≤ b.length) (hq : q ≤ b.length)
    (h : (augmented b).drop p <+: (augmented b).drop q) : p = q := by
  rw [drop_augmented hp, drop_augmented hq] at h
  obtain ⟨t, ht⟩ := h
  rw [List.append_assoc, List.singleton_append] at ht
  obtain ⟨hsymbols, -⟩ :=
    (List.append_cons_inj_of_notMem (sentinel_notMem_symbols _) List.not_mem_nil).1 ht.symm
  have hlength := congrArg List.length hsymbols
  simp only [symbols, List.length_map, List.length_drop] at hlength
  omega

/-! ### The suffix order (R152) -/

theorem mem_suffixOrder {b : List Byte} {p : Nat} : p ∈ suffixOrder b ↔ p ≤ b.length := by
  rw [(suffixOrder_perm b).mem_iff, List.mem_range, Nat.lt_succ_iff]

@[simp] theorem suffixOrder_length (b : List Byte) : (suffixOrder b).length = b.length + 1 := by
  rw [(suffixOrder_perm b).length_eq, List.length_range]

theorem suffixOrder_nodup (b : List Byte) : (suffixOrder b).Nodup := (suffixOrder_perm b).nodup_iff.2 List.nodup_range

theorem suffixOrder_pairwise_le (b : List Byte) :
    (suffixOrder b).Pairwise (fun i j => (augmented b).drop i ≤ (augmented b).drop j) :=
  pairwise_stableSortBy (key := fun i => (augmented b).drop i) (fun _ _ => lexLe_iff_le ..) _

/-- The suffixes are distinct, so they rise strictly. -/
theorem suffixOrder_pairwise_lt (b : List Byte) :
    (suffixOrder b).Pairwise (fun i j => (augmented b).drop i < (augmented b).drop j) := by
  refine ((suffixOrder_pairwise_le b).and (suffixOrder_nodup b)).imp_of_mem fun {i j} hi hj ⟨hle, hne⟩ => ?_
  refine lt_of_le_of_ne hle fun heq => hne ?_
  exact eq_of_drop_augmented_prefix (mem_suffixOrder.1 hi) (mem_suffixOrder.1 hj) (heq ▸ List.prefix_refl _)

/-- The suffix order is the only order of the positions in which no suffix comes before a smaller one. -/
theorem eq_suffixOrder {b : List Byte} {sa : List Nat} (hperm : sa.Perm (List.range (b.length + 1)))
    (hsorted : sa.Pairwise (fun i j => (augmented b).drop i ≤ (augmented b).drop j)) : sa = suffixOrder b := by
  have hperm' : sa.Perm (suffixOrder b) := hperm.trans (suffixOrder_perm b).symm
  refine hperm'.eq_of_pairwise (fun i j hi hj hij hji => ?_) hsorted (suffixOrder_pairwise_le b)
  exact eq_of_drop_augmented_prefix (mem_suffixOrder.1 (hperm'.subset hi)) (mem_suffixOrder.1 hj)
    (le_antisymm hij hji ▸ List.prefix_refl _)

/-- The rotations compare as the suffixes they begin with do. -/
theorem rotate_augmented_lt {b : List Byte} {i j : Nat} (hi : i ≤ b.length) (hj : j ≤ b.length)
    (h : (augmented b).drop i < (augmented b).drop j) : (augmented b).rotate i < (augmented b).rotate j := by
  rw [List.rotate_eq_drop_append_take (by rw [augmented_length]; omega),
    List.rotate_eq_drop_append_take (by rw [augmented_length]; omega)]
  refine append_lt_append_of_not_prefix h (fun hpre => ?_) _ _
  rw [eq_of_drop_augmented_prefix hi hj hpre] at h
  exact lt_irrefl _ h

/-- Settles O44: distinct suffixes rise strictly, and none begins another, so what a rotation appends decides nothing. -/
theorem suffixOrderSortsSuffixesAndRotations : Obligations.SuffixOrderSortsSuffixesAndRotations := by
  intro b
  refine ⟨suffixOrder_perm b, suffixOrder_pairwise_lt b, ?_, fun sa hperm hsorted =>
    eq_suffixOrder hperm (hsorted.imp le_of_lt)⟩
  exact (suffixOrder_pairwise_lt b).imp_of_mem fun hi hj h =>
    rotate_augmented_lt (mem_suffixOrder.1 hi) (mem_suffixOrder.1 hj) h

end Sys2Proof.Machine
end

section
/-! PROOFS. The block sort and its inverse (41_blocksort.md R156 to R158): the output column by rows, and the walk back. -/

namespace Sys2Proof.Machine

/-! ### Rows of the suffix order (R156) -/

/-- The row of the sorted order that a position stands in. -/
def rowOf (b : List Byte) (p : Nat) : Nat := (suffixOrder b).idxOf p

theorem rowOf_lt_length {b : List Byte} {p : Nat} (hp : p ≤ b.length) : rowOf b p < (suffixOrder b).length :=
  List.idxOf_lt_length_of_mem (mem_suffixOrder.2 hp)

theorem rowOf_le {b : List Byte} {p : Nat} (hp : p ≤ b.length) : rowOf b p ≤ b.length :=
  Nat.lt_succ_iff.1 ((rowOf_lt_length hp).trans_eq (suffixOrder_length b))

theorem suffixOrder_getElem_rowOf {b : List Byte} {p : Nat} (hp : p ≤ b.length) :
    (suffixOrder b)[rowOf b p]'(rowOf_lt_length hp) = p := List.getElem_idxOf _

theorem rowOf_suffixOrder_getElem {b : List Byte} {r : Nat} (hr : r < (suffixOrder b).length) :
    rowOf b (suffixOrder b)[r] = r := (suffixOrder_nodup b).idxOf_getElem r hr

/-- A column over the positions in row order, read at the row of a position. -/
theorem getD_map_suffixOrder {b : List Byte} {p : Nat} (hp : p ≤ b.length) (f : Nat → Nat) (d : Nat) :
    ((suffixOrder b).map f).getD (rowOf b p) d = f p := by
  rw [List.getD_eq_getElem _ _ (by simpa using rowOf_lt_length hp), List.getElem_map, suffixOrder_getElem_rowOf hp]

theorem rowOf_injective {b : List Byte} {p q : Nat} (hp : p ≤ b.length)
    (h : rowOf b p = rowOf b q) : p = q := (List.idxOf_inj (mem_suffixOrder.2 hp)).1 h

/-- The rows are in the order of the suffixes. -/
theorem rowOf_lt_rowOf {b : List Byte} {p q : Nat} (hp : p ≤ b.length) (hq : q ≤ b.length)
    (h : (augmented b).drop p < (augmented b).drop q) : rowOf b p < rowOf b q := by
  by_contra hnot
  rcases (Nat.not_lt.1 hnot).lt_or_eq with hlt | heq
  · have hqp := List.pairwise_iff_getElem.1 (suffixOrder_pairwise_lt b) _ _ (rowOf_lt_length hq) (rowOf_lt_length hp) hlt
    rw [suffixOrder_getElem_rowOf hp, suffixOrder_getElem_rowOf hq] at hqp
    exact lt_asymm h hqp
  · rw [rowOf_injective hq heq] at h
    exact lt_irrefl _ h

theorem suffixOrder_eq_map_range (b : List Byte) :
    suffixOrder b = (List.range (b.length + 1)).map (fun r => (suffixOrder b).getD r 0) :=
  List.ext_getElem (by simp) fun r hr _ => by
    rw [List.getElem_map, List.getElem_range, List.getD_eq_getElem _ _ hr]

/-! ### The column of preceding symbols (R156) -/

/-- The symbol before a position, cyclically: before position 0 it is the sentinel. -/
def precedingSymbol (b : List Byte) (p : Nat) : Nat := if p = 0 then sentinel else (augmented b).getD (p - 1) 0

@[simp] theorem precedingSymbol_zero (b : List Byte) : precedingSymbol b 0 = sentinel := rfl

@[simp] theorem precedingSymbol_succ (b : List Byte) (p : Nat) :
    precedingSymbol b (p + 1) = (augmented b).getD p 0 := rfl

theorem precedingSymbol_of_ne_zero (b : List Byte) {p : Nat} (hp : p ≠ 0) :
    precedingSymbol b p = (augmented b).getD (p - 1) 0 := if_neg hp

/-- The output is the column of preceding symbols, without the row of position 0. -/
theorem symbols_sortedColumn (b : List Byte) :
    symbols (sortedColumn b) = ((suffixOrder b).filter (· ≠ 0)).map (precedingSymbol b) := by
  rw [symbols, sortedColumn, List.map_map]
  refine List.map_congr_left fun p hp => ?_
  obtain ⟨hmem, hne⟩ := List.mem_filter.1 hp
  have hp0 : p ≠ 0 := of_decide_eq_true hne
  have hlt : p - 1 < b.length := by have := mem_suffixOrder.1 hmem; omega
  rw [precedingSymbol_of_ne_zero b hp0, augmented_getD_of_lt hlt]
  rfl

/-- The rotation index is the row of position 0. -/
theorem forward_snd (b : List Byte) : (forward b).2 = rowOf b 0 := rfl

theorem suffixOrder_getD_eq_zero_iff {b : List Byte} {r : Nat} (hr : r < b.length + 1) :
    (suffixOrder b).getD r 0 = 0 ↔ r = rowOf b 0 := by
  have hr' : r < (suffixOrder b).length := hr.trans_eq (suffixOrder_length b).symm
  rw [List.getD_eq_getElem _ _ hr']
  constructor
  · intro h
    rw [← h, rowOf_suffixOrder_getElem]
  · rintro rfl
    exact suffixOrder_getElem_rowOf (Nat.zero_le _)

/-- The positions but 0, in row order, stand in the rows but the rotation index. -/
theorem filter_suffixOrder_ne_zero (b : List Byte) :
    (suffixOrder b).filter (· ≠ 0) =
      ((List.range (b.length + 1)).filter (fun r => decide (r ≠ (forward b).2))).map (fun r => (suffixOrder b).getD r 0) := by
  conv_lhs => rw [suffixOrder_eq_map_range b]
  rw [List.filter_map]
  refine congrArg _ (List.filter_congr fun r hr => ?_)
  exact decide_eq_decide.2 (not_congr (suffixOrder_getD_eq_zero_iff (List.mem_range.1 hr)))

/-- Settles O45: the column of preceding symbols, listed by rows. -/
theorem forwardOutputIsPrecedingSymbols : Obligations.ForwardOutputIsPrecedingSymbols := by
  intro b
  have hzero : (0 : Nat) ≤ b.length := Nat.zero_le _
  refine ⟨rowOf_le hzero, ?_, forward_length b, ?_⟩
  · exact (List.getD_eq_getElem _ _ (rowOf_lt_length hzero)).trans (suffixOrder_getElem_rowOf hzero)
  · refine (symbols_sortedColumn b).trans ?_
    rw [filter_suffixOrder_ne_zero, List.map_map]
    refine List.map_congr_left fun r hr => ?_
    obtain ⟨hmem, hne⟩ := List.mem_filter.1 hr
    refine precedingSymbol_of_ne_zero b fun h => of_decide_eq_true hne ?_
    exact (suffixOrder_getD_eq_zero_iff (List.mem_range.1 hmem)).1 h

/-- With the sentinel back at the rotation index the column is whole (R157). -/
theorem reinserted_forward (b : List Byte) :
    reinserted (forward b).1 (forward b).2 = (suffixOrder b).map (precedingSymbol b) := by
  obtain ⟨s, t, hst⟩ := List.append_of_mem (mem_suffixOrder.2 (Nat.zero_le b.length))
  have hnodup := hst ▸ suffixOrder_nodup b
  have hs : 0 ∉ s := fun h => List.disjoint_of_nodup_append hnodup h List.mem_cons_self
  have ht : 0 ∉ t := (List.nodup_cons.1 hnodup.of_append_right).1
  have hrot : (forward b).2 = s.length := by
    rw [forward_snd, rowOf, hst, List.idxOf_append_of_notMem hs, List.idxOf_cons_self, Nat.add_zero]
  have hcolumn : symbols (forward b).1 = s.map (precedingSymbol b) ++ t.map (precedingSymbol b) := by
    have hkeep : ∀ {l : List Nat}, 0 ∉ l → l.filter (· ≠ 0) = l := fun hl =>
      List.filter_eq_self.2 fun p hp => decide_eq_true fun h0 => hl (h0 ▸ hp)
    refine (symbols_sortedColumn b).trans ?_
    rw [hst, List.filter_append, List.filter_cons_of_neg (by simp), hkeep hs, hkeep ht, List.map_append]
  have hlen : (s.map (precedingSymbol b)).length = s.length := List.length_map _
  simp only [symbols] at hcolumn
  simp only [reinserted, symbols, List.map_take, List.map_drop]
  rw [hcolumn, hrot, List.take_left' hlen, List.drop_left' hlen, hst]
  simp

/-! ### The walk (R157, R158) -/

/-- The position after a position, cyclically. -/
def nextPosition (b : List Byte) (p : Nat) : Nat := if p = b.length then 0 else p + 1

theorem nextPosition_of_lt {b : List Byte} {p : Nat} (hp : p < b.length) : nextPosition b p = p + 1 :=
  if_neg (Nat.ne_of_lt hp)

theorem nextPosition_le {b : List Byte} {p : Nat} (hp : p ≤ b.length) : nextPosition b p ≤ b.length := by
  unfold nextPosition
  split <;> omega

/-- The symbol at a position is the one that precedes the next position. -/
theorem precedingSymbol_nextPosition (b : List Byte) (p : Nat) :
    precedingSymbol b (nextPosition b p) = (augmented b).getD p 0 := by
  unfold nextPosition
  split
  next h => rw [h, augmented_getD_length, precedingSymbol_zero]
  · exact precedingSymbol_succ b p

/-- The rows by their symbols, equal symbols by the row: the order that the stable sort of R157 gives. -/
def columnKey (b : List Byte) (r : Nat) : Nat ×ₗ Nat :=
  toLex (((suffixOrder b).map (precedingSymbol b)).getD r 0, r)

theorem columnKey_rowOf_nextPosition {b : List Byte} {p : Nat} (hp : p ≤ b.length) :
    columnKey b (rowOf b (nextPosition b p)) = toLex ((augmented b).getD p 0, rowOf b (nextPosition b p)) := by
  rw [columnKey, getD_map_suffixOrder (nextPosition_le hp), precedingSymbol_nextPosition]

/-- Where one suffix is smaller than another, the row after its position comes first by symbol, or by row where the two
begin with one symbol: then neither begins with the sentinel, and what follows the symbol decides. -/
theorem columnKey_lt_of_drop_lt {b : List Byte} {p q : Nat} (hp : p ≤ b.length) (hq : q ≤ b.length)
    (h : (augmented b).drop p < (augmented b).drop q) :
    columnKey b (rowOf b (nextPosition b p)) < columnKey b (rowOf b (nextPosition b q)) := by
  rw [columnKey_rowOf_nextPosition hp, columnKey_rowOf_nextPosition hq, Prod.Lex.toLex_lt_toLex]
  have hpq : p ≠ q := fun e => lt_irrefl _ (e ▸ h)
  rw [drop_augmented_eq_cons hp, drop_augmented_eq_cons hq, List.cons_lt_cons_iff] at h
  refine h.imp_right fun ⟨hsymbol, hrest⟩ => ⟨hsymbol, ?_⟩
  have hend : p = b.length ↔ q = b.length := by
    rw [← augmented_getD_eq_sentinel_iff hp, hsymbol, augmented_getD_eq_sentinel_iff hq]
  have hp' : p < b.length := by omega
  have hq' : q < b.length := by omega
  rw [nextPosition_of_lt hp', nextPosition_of_lt hq']
  exact rowOf_lt_rowOf hp' hq' hrest

/-- `T` takes the row of each position to the row of the next one (R158). -/
theorem nextRow_forward (b : List Byte) :
    nextRow (reinserted (forward b).1 (forward b).2) = (suffixOrder b).map (fun p => rowOf b (nextPosition b p)) := by
  rw [reinserted_forward]
  have hlen : ((suffixOrder b).map (precedingSymbol b)).length = b.length + 1 := by simp
  have hrising : ((suffixOrder b).map (fun p => rowOf b (nextPosition b p))).Pairwise
      (fun r r' => columnKey b r < columnKey b r') :=
    List.pairwise_map.2 <| (suffixOrder_pairwise_lt b).imp_of_mem fun hp hq =>
      columnKey_lt_of_drop_lt (mem_suffixOrder.1 hp) (mem_suffixOrder.1 hq)
  have hperm : ((suffixOrder b).map (fun p => rowOf b (nextPosition b p))).Perm (List.range (b.length + 1)) := by
    have hnodup : ((suffixOrder b).map (fun p => rowOf b (nextPosition b p))).Nodup :=
      hrising.imp fun h => ne_of_apply_ne (columnKey b) h.ne
    refine (hnodup.subperm fun r hr => ?_).perm_of_length_le (by simp)
    obtain ⟨p, hp, rfl⟩ := List.mem_map.1 hr
    exact List.mem_range.2 (Nat.lt_succ_of_le (rowOf_le (nextPosition_le (mem_suffixOrder.1 hp))))
  refine List.Perm.eq_of_pairwise (le := fun r r' => columnKey b r ≤ columnKey b r')
    (fun r r' _ _ hle hle' => congrArg (fun k => (ofLex k).2) (le_antisymm hle hle')) ?_ (hrising.imp le_of_lt) ?_
  · exact pairwise_stableSortBy_of_rising (fun _ _ => decide_eq_true_iff) List.pairwise_lt_range
  · rw [nextRow, hlen]
    exact (stableSortBy_perm _ _).trans hperm.symm

theorem nextRow_forward_getD_rowOf {b : List Byte} {k : Nat} (hk : k < b.length) :
    (nextRow (reinserted (forward b).1 (forward b).2)).getD (rowOf b k) 0 = rowOf b (k + 1) := by
  rw [nextRow_forward, getD_map_suffixOrder hk.le, nextPosition_of_lt hk]

/-- The walk from the row of position `k` emits the block from `k` on. -/
theorem walkRows_forward (b : List Byte) (n k : Nat) (hk : k + n = b.length) :
    walkRows (reinserted (forward b).1 (forward b).2) (nextRow (reinserted (forward b).1 (forward b).2)) n (rowOf b k) =
      some (b.drop k) := by
  induction n generalizing k with
  | zero =>
    obtain rfl : k = b.length := hk
    rw [walkRows, List.drop_length]
  | succ n ih =>
    have hlt : k < b.length := by omega
    have hsymbol : (reinserted (forward b).1 (forward b).2).getD (rowOf b (k + 1)) sentinel = b[k].toNat := by
      rw [reinserted_forward, getD_map_suffixOrder hlt, precedingSymbol_succ, augmented_getD_of_lt hlt,
        List.getD_eq_getElem _ _ hlt]
    have hbyte : b[k].toNat ≠ sentinel := Nat.ne_of_lt b[k].isLt
    simp only [walkRows, nextRow_forward_getD_rowOf hlt, hsymbol, if_neg hbyte, ih (k + 1) (by omega)]
    rw [List.drop_eq_getElem_cons hlt, Option.map_some, BitVec.ofNat_toNat, BitVec.setWidth_eq]

/-- Settles O46, by following the walk row by row. -/
theorem inverseUndoesForward : Obligations.InverseUndoesForward := by
  intro b
  constructor
  · rw [inverse, forward_length]
    exact walkRows_forward b b.length 0 (Nat.zero_add _)
  · intro k hk
    induction k with
    | zero => rfl
    | succ k ih =>
      rw [Function.iterate_succ_apply', ih (by omega)]
      exact nextRow_forward_getD_rowOf hk

end Sys2Proof.Machine
end

section
/-! PROOFS. The rank-doubling reference procedure ends with the suffix order (41_blocksort.md R153 to R155): after each sort the
key pairs order the positions as the prefixes of a certain length of their suffixes do, and each round doubles the length. -/

namespace Sys2Proof.Machine

/-! ### Keys that stand for prefixes (R155) -/

/-- The keys order the positions as the first `len` symbols of their suffixes do. -/
def OrdersPrefixes {β : Type} [LT β] (a : List Nat) (len : Nat) (key : Nat → β) : Prop :=
  ∀ i < a.length, ∀ j < a.length, key i < key j ↔ (a.drop i).take len < (a.drop j).take len

theorem OrdersPrefixes.eq_iff {β : Type} [LinearOrder β] {a : List Nat} {len : Nat} {key : Nat → β}
    (h : OrdersPrefixes a len key) {i j : Nat} (hi : i < a.length) (hj : j < a.length) :
    key i = key j ↔ (a.drop i).take len = (a.drop j).take len := by
  simp only [le_antisymm_iff, ← not_lt, h i hi j hj, h j hj i hi]

/-- The key pairs of a round, from the ranks of the positions and the length these stand for (R153, R154). -/
def pairKeys (m len : Nat) (rank : Nat → Nat) : List (Int × Int) :=
  (List.range m).map fun i => ((rank i : Int), if i + len < m then (rank (i + len) : Int) else -1)

/-- The key pair of a position in the order of key pairs. -/
def pairKey (keys : List (Int × Int)) (i : Nat) : Int ×ₗ Int := toLex (keys.getD i (0, 0))

theorem pairLe_iff (p q : Int × Int) : pairLe p q = true ↔ toLex p ≤ toLex q := by
  simp [pairLe, Prod.Lex.toLex_le_toLex]

theorem pairKey_pairKeys {m len i : Nat} (rank : Nat → Nat) (hi : i < m) :
    pairKey (pairKeys m len rank) i = toLex ((rank i : Int), if i + len < m then (rank (i + len) : Int) else -1) := by
  rw [pairKey, List.getD_eq_getElem _ _ (by simpa [pairKeys] using hi)]
  simp [pairKeys]

/-- The second keys order the suffixes' next `len` symbols: where there is none, -1 is below every rank. -/
theorem OrdersPrefixes.secondKey_lt_iff {a : List Nat} {len : Nat} {rank : Nat → Nat} (h : OrdersPrefixes a len rank)
    (hlen : 0 < len) (i j : Nat) :
    ((if i < a.length then (rank i : Int) else -1) < if j < a.length then (rank j : Int) else -1) ↔
      (a.drop i).take len < (a.drop j).take len := by
  by_cases hj : j < a.length
  · by_cases hi : i < a.length
    · rw [if_pos hi, if_pos hj, ← h i hi j hj, Int.ofNat_lt]
    · have hdrop : (a.drop j).take len ≠ [] := by
        rw [Ne, List.take_eq_nil_iff, List.drop_eq_nil_iff]
        omega
      obtain ⟨x, xs, hx⟩ := List.exists_cons_of_ne_nil hdrop
      rw [if_neg hi, if_pos hj, List.drop_eq_nil_of_le (Nat.not_lt.1 hi), List.take_nil, hx]
      exact iff_of_true (by omega) (List.nil_lt_cons x xs)
  · rw [if_neg hj, List.drop_eq_nil_of_le (Nat.not_lt.1 hj), List.take_nil]
    refine iff_of_false ?_ (List.not_lt_nil _)
    split <;> omega

/-- Ranks that stand for prefixes of a length give key pairs that stand for prefixes of twice the length (R155). -/
theorem OrdersPrefixes.pairKeys {a : List Nat} {len : Nat} {rank : Nat → Nat} (h : OrdersPrefixes a len rank)
    (hlen : 0 < len) : OrdersPrefixes a (2 * len) (pairKey (pairKeys a.length len rank)) := by
  intro i hi j hj
  have hhalves : ∀ k, ((a.drop k).take (2 * len)).take len = (a.drop k).take len ∧
      ((a.drop k).take (2 * len)).drop len = (a.drop (k + len)).take len := fun k =>
    ⟨by rw [List.take_take, Nat.min_eq_left (by omega)],
      by rw [List.drop_take, List.drop_drop, Nat.two_mul, Nat.add_sub_cancel]⟩
  obtain ⟨hi₁, hi₂⟩ := hhalves i
  obtain ⟨hj₁, hj₂⟩ := hhalves j
  rw [lt_iff_take_drop len, hi₁, hj₁, hi₂, hj₂, pairKey_pairKeys rank hi, pairKey_pairKeys rank hj,
    Prod.Lex.toLex_lt_toLex]
  exact or_congr (Int.ofNat_lt.trans (h i hi j hj))
    (and_congr (Int.ofNat_inj.trans (h.eq_iff hi hj)) (h.secondKey_lt_iff hlen _ _))

/-! ### The initial keys (R153) -/

/-- Dense ranking keeps the order of the values that occur. -/
theorem denseRank_lt_iff {a : List Nat} {v w : Nat} (hv : v ∈ a) : denseRank a v < denseRank a w ↔ v < w := by
  have hmono : ∀ {v w}, v ≤ w → (a.filter (· < v)).dedup ⊆ (a.filter (· < w)).dedup := by
    intro v w hvw x hx
    simp only [List.mem_dedup, List.mem_filter, decide_eq_true_eq] at hx ⊢
    exact ⟨hx.1, hx.2.trans_le hvw⟩
  have hle : ∀ {v w}, v ≤ w → denseRank a v ≤ denseRank a w := fun h =>
    ((List.nodup_dedup _).subperm (hmono h)).length_le
  constructor
  · intro h
    by_contra hnot
    exact absurd (hle (Nat.not_lt.1 hnot)) (Nat.not_le.2 h)
  · intro h
    refine Nat.lt_of_not_le fun hlen => ?_
    have hperm := ((List.nodup_dedup _).subperm (hmono h.le)).perm_of_length_le hlen
    have hmem : v ∈ (a.filter (· < w)).dedup := by simpa using ⟨hv, h⟩
    simpa using hperm.mem_iff.2 hmem

theorem ordersPrefixes_denseRank (a : List Nat) : OrdersPrefixes a 1 (fun i => denseRank a (a.getD i 0)) := by
  intro i hi j hj
  have hfirst : ∀ {k}, k < a.length → (a.drop k).take 1 = [a.getD k 0] := fun {k} hk => by
    rw [List.drop_eq_getElem_cons hk, List.getD_eq_getElem _ _ hk]
    rfl
  rw [hfirst hi, hfirst hj, List.cons_lt_cons_iff, denseRank_lt_iff (List.getD_eq_getElem _ _ hi ▸ List.getElem_mem hi)]
  simp

/-- The initial keys are those of a round from the symbols' dense ranks. -/
theorem ordersPrefixes_initialKeys (a : List Nat) : OrdersPrefixes a 2 (pairKey (initialKeys a)) :=
  (ordersPrefixes_denseRank a).pairKeys Nat.one_pos

/-! ### The ranks of a sorted order (R154) -/

theorem ranksFrom_none_cons (keys : List (Int × Int)) (r p : Nat) (ps : List Nat) :
    ranksFrom keys r none (p :: ps) = (p, r) :: ranksFrom keys r (some (keys.getD p (0, 0))) ps := rfl

theorem ranksFrom_some_cons (keys : List (Int × Int)) (r p : Nat) (k : Int × Int) (ps : List Nat) :
    ranksFrom keys r (some k) (p :: ps) =
      (p, if keys.getD p (0, 0) = k then r else r + 1) ::
        ranksFrom keys (if keys.getD p (0, 0) = k then r else r + 1) (some (keys.getD p (0, 0))) ps := rfl

/-- The ranked positions are the positions of the order. -/
theorem map_fst_ranksFrom (keys : List (Int × Int)) (r : Nat) (before : Option (Int × Int)) (ps : List Nat) :
    (ranksFrom keys r before ps).map Prod.fst = ps := by
  induction ps generalizing r before with
  | nil => rfl
  | cons p ps ih => simp only [ranksFrom, List.map_cons, ih]

theorem fst_mem_of_mem_ranksFrom {keys : List (Int × Int)} {r : Nat} {before : Option (Int × Int)} {ps : List Nat}
    {e : Nat × Nat} (he : e ∈ ranksFrom keys r before ps) : e.1 ∈ ps :=
  map_fst_ranksFrom keys r before ps ▸ List.mem_map_of_mem he

/-- A relation of positions holds along the ranks where it holds along the order. -/
theorem pairwise_ranksFrom_iff {keys : List (Int × Int)} {r : Nat} {before : Option (Int × Int)} {ps : List Nat}
    {R : Nat → Nat → Prop} : (ranksFrom keys r before ps).Pairwise (fun e e' => R e.1 e'.1) ↔ ps.Pairwise R := by
  rw [← List.pairwise_map, map_fst_ranksFrom]

/-- The rank that is found for a position is one it was given. -/
theorem rankOf_mem {ranks : List (Nat × Nat)} {p : Nat} (hp : p ∈ ranks.map Prod.fst) : (p, rankOf ranks p) ∈ ranks := by
  obtain ⟨e, he, rfl⟩ := List.mem_map.1 hp
  obtain ⟨e', he'⟩ : ∃ e', ranks.find? (fun x => x.1 == e.1) = some e' :=
    Option.isSome_iff_exists.1 (List.find?_isSome.2 ⟨e, he, beq_self_eq_true e.1⟩)
  have hfst : e'.1 = e.1 := by simpa using List.find?_some he'
  rw [rankOf, he', ← hfst]
  exact List.mem_of_find?_eq_some he'

/-- In a sorted order no rank is below the one before, and it is the same exactly where the key is (R154). -/
theorem ranksFrom_some_spec (keys : List (Int × Int)) (r : Nat) (k : Int × Int) (ps : List Nat)
    (hk : ∀ p ∈ ps, toLex k ≤ pairKey keys p) (hps : ps.Pairwise (fun p q => pairKey keys p ≤ pairKey keys q)) :
    (∀ e ∈ ranksFrom keys r (some k) ps, r ≤ e.2 ∧ (r = e.2 ↔ toLex k = pairKey keys e.1)) ∧
      (ranksFrom keys r (some k) ps).Pairwise
        (fun e e' => e.2 ≤ e'.2 ∧ (e.2 = e'.2 ↔ pairKey keys e.1 = pairKey keys e'.1)) := by
  induction ps generalizing r k with
  | nil => exact ⟨fun _ he => absurd he List.not_mem_nil, List.Pairwise.nil⟩
  | cons p ps ih =>
    obtain ⟨hkp, -⟩ := List.forall_mem_cons.1 hk
    obtain ⟨hp, hps⟩ := List.pairwise_cons.1 hps
    rw [ranksFrom_some_cons]
    generalize hr' : (if keys.getD p (0, 0) = k then r else r + 1) = r'
    have hhead : r ≤ r' ∧ (r = r' ↔ toLex k = pairKey keys p) := by
      subst hr'
      split
      next h => exact ⟨le_rfl, iff_of_true rfl (congrArg toLex h.symm)⟩
      next h => exact ⟨Nat.le_succ r, iff_of_false (Nat.ne_of_lt (Nat.lt_succ_self r)) fun e => h (toLex.injective e.symm)⟩
    obtain ⟨hle₀, hiff₀⟩ := hhead
    obtain ⟨hrest, hpair⟩ := ih r' (keys.getD p (0, 0)) hp hps
    refine ⟨List.forall_mem_cons.2 ⟨⟨hle₀, hiff₀⟩, fun e he => ?_⟩, List.pairwise_cons.2 ⟨hrest, hpair⟩⟩
    obtain ⟨hle, hiff⟩ := hrest e he
    refine ⟨hle₀.trans hle, fun h => ?_, fun h => ?_⟩
    · exact (hiff₀.1 (by omega)).trans (hiff.1 (by omega))
    · have hkey : toLex k = pairKey keys p := le_antisymm hkp (h ▸ hp _ (fst_mem_of_mem_ranksFrom he))
      exact (hiff₀.2 hkey).trans (hiff.2 (hkey.symm.trans h))

/-- The ranks of a sorted order are in the order of the keys. -/
theorem pairwise_ranksFrom {keys : List (Int × Int)} {order : List Nat} (r : Nat)
    (h : order.Pairwise (fun p q => pairKey keys p ≤ pairKey keys q)) :
    (ranksFrom keys r none order).Pairwise (fun e e' =>
      (e.2 < e'.2 ↔ pairKey keys e.1 < pairKey keys e'.1) ∧ (e'.2 < e.2 ↔ pairKey keys e'.1 < pairKey keys e.1)) := by
  have hranks : (ranksFrom keys r none order).Pairwise
      (fun e e' => e.2 ≤ e'.2 ∧ (e.2 = e'.2 ↔ pairKey keys e.1 = pairKey keys e'.1)) := by
    cases order with
    | nil => exact List.Pairwise.nil
    | cons p ps =>
      obtain ⟨hp, hps⟩ := List.pairwise_cons.1 h
      exact List.pairwise_cons.2 (ranksFrom_some_spec keys r (keys.getD p (0, 0)) ps hp hps)
  have hkeys : (ranksFrom keys r none order).Pairwise (fun e e' => pairKey keys e.1 ≤ pairKey keys e'.1) :=
    (pairwise_ranksFrom_iff (R := fun p q => pairKey keys p ≤ pairKey keys q)).2 h
  refine (hranks.and hkeys).imp fun {e e'} ⟨⟨hle, hiff⟩, hkey⟩ => ⟨?_, ?_⟩
  · rw [lt_iff_le_and_ne, lt_iff_le_and_ne, Ne, Ne, hiff]
    exact and_congr_left fun _ => iff_of_true hle hkey
  · exact iff_of_false (Nat.not_lt.2 hle) (not_lt.2 hkey)

/-- A rank is at most the one before the list plus the places of the list, and it is as large only where every place got a
new rank. -/
theorem ranksFrom_some_bound (keys : List (Int × Int)) (r : Nat) (k : Int × Int) (ps : List Nat) :
    ∀ e ∈ ranksFrom keys r (some k) ps, e.2 ≤ r + ps.length ∧ (e.2 = r + ps.length →
      (∀ e' ∈ ranksFrom keys r (some k) ps, r < e'.2) ∧
        (ranksFrom keys r (some k) ps).Pairwise (fun e e' => e.2 < e'.2)) := by
  induction ps generalizing r k with
  | nil => exact fun _ he => absurd he List.not_mem_nil
  | cons p ps ih =>
    rw [ranksFrom_some_cons, List.length_cons]
    generalize hr' : (if keys.getD p (0, 0) = k then r else r + 1) = r'
    have hle : r' ≤ r + 1 := by
      subst hr'
      split <;> omega
    refine List.forall_mem_cons.2 ⟨⟨by dsimp only; omega, fun h => ?_⟩, fun e he => ?_⟩
    · obtain rfl : ps = [] := List.eq_nil_of_length_eq_zero (by dsimp only at h; omega)
      exact ⟨List.forall_mem_singleton.2 ((Nat.lt_succ_self r).trans_eq h.symm), List.pairwise_singleton ..⟩
    · obtain ⟨hbound, hfull⟩ := ih r' (keys.getD p (0, 0)) e he
      refine ⟨by omega, fun h => ?_⟩
      obtain ⟨habove, hstrict⟩ := hfull (by omega)
      have hnew : r < r' := by omega
      exact ⟨List.forall_mem_cons.2 ⟨hnew, fun e' he' => hnew.trans (habove e' he')⟩,
        List.pairwise_cons.2 ⟨habove, hstrict⟩⟩

/-- Where some rank is as large as the number of places allows, the ranks are distinct (R154's exit). -/
theorem ranksFrom_pairwise_lt {keys : List (Int × Int)} {order : List Nat} {e : Nat × Nat}
    (he : e ∈ ranksFrom keys 0 none order) (hfull : e.2 + 1 = order.length) :
    (ranksFrom keys 0 none order).Pairwise (fun e e' => e.2 < e'.2) := by
  cases order with
  | nil => exact List.Pairwise.nil
  | cons p ps =>
    rw [ranksFrom_none_cons] at he ⊢
    rw [List.length_cons, Nat.add_right_cancel_iff] at hfull
    rcases List.mem_cons.1 he with rfl | he
    · obtain rfl : ps = [] := List.eq_nil_of_length_eq_zero hfull.symm
      exact List.pairwise_singleton ..
    · obtain ⟨-, hbound⟩ := ranksFrom_some_bound keys 0 (keys.getD p (0, 0)) ps e he
      exact List.pairwise_cons.2 (hbound (by omega))

/-- The rank of a position in an order sorted by the keys. -/
def rankIn (keys : List (Int × Int)) (order : List Nat) (p : Nat) : Nat := rankOf (ranksFrom keys 0 none order) p

theorem rankIn_mem (keys : List (Int × Int)) {order : List Nat} {p : Nat} (hp : p ∈ order) :
    (p, rankIn keys order p) ∈ ranksFrom keys 0 none order :=
  rankOf_mem ((map_fst_ranksFrom keys 0 none order).symm ▸ hp)

theorem rankIn_lt_iff {keys : List (Int × Int)} {order : List Nat}
    (h : order.Pairwise (fun p q => pairKey keys p ≤ pairKey keys q)) {p q : Nat} (hp : p ∈ order) (hq : q ∈ order) :
    rankIn keys order p < rankIn keys order q ↔ pairKey keys p < pairKey keys q := by
  have hsymm : Std.Symm (fun e e' : Nat × Nat =>
      (e.2 < e'.2 ↔ pairKey keys e.1 < pairKey keys e'.1) ∧ (e'.2 < e.2 ↔ pairKey keys e'.1 < pairKey keys e.1)) :=
    ⟨fun _ _ => And.symm⟩
  have hself : ∀ e ∈ ranksFrom keys 0 none order, (e.2 < e.2 ↔ pairKey keys e.1 < pairKey keys e.1) ∧
      (e.2 < e.2 ↔ pairKey keys e.1 < pairKey keys e.1) := fun e _ => by simp
  exact ((pairwise_ranksFrom 0 h).forall_of_forall hself (rankIn_mem keys hp) (rankIn_mem keys hq)).1

/-- When the last rank is `m - 1` the keys rise strictly. -/
theorem pairwise_lt_of_rankIn {keys : List (Int × Int)} {order : List Nat}
    (h : order.Pairwise (fun p q => pairKey keys p ≤ pairKey keys q)) {p : Nat} (hp : p ∈ order)
    (hfull : rankIn keys order p + 1 = order.length) : order.Pairwise (fun p q => pairKey keys p < pairKey keys q) := by
  have hlt : (ranksFrom keys 0 none order).Pairwise (fun e e' => pairKey keys e.1 < pairKey keys e'.1) :=
    ((pairwise_ranksFrom 0 h).and (ranksFrom_pairwise_lt (rankIn_mem keys hp) hfull)).imp
      fun ⟨⟨hiff, _⟩, hrank⟩ => hiff.1 hrank
  exact pairwise_ranksFrom_iff.1 hlt

/-! ### The rounds (R154, R155) -/

/-- `stable_sort` by the key pairs (R154). -/
def sortByKeys (keys : List (Int × Int)) (order : List Nat) : List Nat :=
  stableSortBy (fun i j => pairLe (keys.getD i (0, 0)) (keys.getD j (0, 0))) order

theorem sortByKeys_pairwise (keys : List (Int × Int)) (order : List Nat) :
    (sortByKeys keys order).Pairwise (fun p q => pairKey keys p ≤ pairKey keys q) :=
  pairwise_stableSortBy (key := pairKey keys) (fun _ _ => pairLe_iff ..) order

theorem sortByKeys_perm (keys : List (Int × Int)) (order : List Nat) : (sortByKeys keys order).Perm order :=
  stableSortBy_perm _ order

/-- The ranks stand for the prefixes that the keys stand for. -/
theorem OrdersPrefixes.rankIn {a : List Nat} {len : Nat} {keys : List (Int × Int)} {order : List Nat}
    (h : OrdersPrefixes a len (pairKey keys)) (hsorted : order.Pairwise (fun p q => pairKey keys p ≤ pairKey keys q))
    (hall : ∀ p < a.length, p ∈ order) : OrdersPrefixes a len (rankIn keys order) := fun i hi j hj =>
  (rankIn_lt_iff hsorted (hall i hi) (hall j hj)).trans (h i hi j hj)

theorem doublingRounds_succ (m fuel len : Nat) (keys : List (Int × Int)) (order : List Nat) :
    doublingRounds m (fuel + 1) len keys order =
      if rankIn keys order (order.getLastD 0) + 1 = m then order
      else doublingRounds m fuel (2 * len) (pairKeys m len (rankIn keys order))
        (sortByKeys (pairKeys m len (rankIn keys order)) order) := rfl

/-- From an order sorted by the first `len` symbols, the rounds end with the suffix order: where all ranks are distinct the
prefixes are, and where no round is left the prefixes are the whole suffixes. -/
theorem doublingRounds_eq_suffixOrder (b : List Byte) (fuel len : Nat) (keys : List (Int × Int)) (order : List Nat)
    (hlen : 0 < len) (hfuel : b.length + 1 ≤ len + fuel) (hkeys : OrdersPrefixes (augmented b) len (pairKey keys))
    (hperm : order.Perm (List.range (b.length + 1)))
    (hsorted : order.Pairwise (fun p q => pairKey keys p ≤ pairKey keys q)) :
    doublingRounds (b.length + 1) fuel len keys order = suffixOrder b := by
  have hmem : ∀ {p}, p ∈ order → p < (augmented b).length := fun hp => by
    rw [augmented_length]
    exact List.mem_range.1 (hperm.mem_iff.1 hp)
  induction fuel generalizing len keys order with
  | zero =>
    have hwhole : ∀ p, ((augmented b).drop p).take len = (augmented b).drop p := fun p =>
      List.take_of_length_le (by rw [List.length_drop, augmented_length]; omega)
    refine eq_suffixOrder hperm (hsorted.imp_of_mem fun {p q} hp hq hpq => ?_)
    rw [← not_lt] at hpq ⊢
    rwa [hkeys q (hmem hq) p (hmem hp), hwhole, hwhole] at hpq
  | succ fuel ih =>
    rw [doublingRounds_succ]
    split
    next hexit =>
      have hlast : order.getLastD 0 ∈ order := by
        have hne : order ≠ [] := fun h => by simp [h] at hperm
        rw [List.getLastD_eq_getLast?, List.getLast?_eq_some_getLast hne]
        exact List.getLast_mem hne
      have hstrict := pairwise_lt_of_rankIn hsorted hlast (by rw [hexit, hperm.length_eq, List.length_range])
      refine eq_suffixOrder hperm (hstrict.imp_of_mem fun {p q} hp hq hpq => le_of_lt ?_)
      exact (lt_iff_take_drop len _ _).2 (.inl ((hkeys p (hmem hp) q (hmem hq)).1 hpq))
    · have hrank := hkeys.rankIn hsorted fun p hp => hperm.mem_iff.2 (List.mem_range.2 (augmented_length b ▸ hp))
      exact ih (2 * len) _ _ (by omega) (by omega) (augmented_length b ▸ hrank.pairKeys hlen)
        ((sortByKeys_perm _ order).trans hperm) (sortByKeys_pairwise _ _)
        fun hp => hmem ((sortByKeys_perm _ order).mem_iff.1 hp)

/-- Settles O47: the order sorted by the initial keys is sorted by two symbols, and the rounds do the rest. -/
theorem rankDoublingComputesSuffixOrder : Obligations.RankDoublingComputesSuffixOrder := by
  intro b
  rw [doublingOrder, augmented_length]
  exact doublingRounds_eq_suffixOrder b _ 2 _ _ Nat.two_pos (by omega) (ordersPrefixes_initialKeys _)
    (sortByKeys_perm _ _) (sortByKeys_pairwise _ _)

end Sys2Proof.Machine
end

section
/-! PROOFS. What the two commands of the block sort leave when their checks pass (41_blocksort.md R160, R165). -/

namespace Sys2Proof.Machine

/-- The checks of a command that keeps the length pass where it may start, its own checks pass and the destination has
room. -/
theorem State.sameLengthChecks_pass {s : State} {limit : Nat} {own : List (Bool × ErrCode)} (h : s.byteReady limit)
    (hown : ∀ c ∈ own, c.1 = false) (hcap : s.args.slen.toNat ≤ s.args.dcap.toNat) :
    firstFailing (s.byteChecks limit own ++ [s.capacityCheck s.srcSpan.len]) = none := by
  rw [firstFailing_append, (s.byteChecks_eq_none limit own).2 ⟨h, hown⟩, Option.none_or, firstFailing_eq_none]
  exact List.forall_mem_singleton.2 ((s.capacityCheck_eq_false _).2 hcap)

/-- What a result as long as the source leaves at DST and in the result registers. -/
theorem State.writeResult_complete_spec_of_length {s : State} {out : List Byte} (hout : out.length = s.args.slen.toNat) :
    s.succeeded (s.writeResult out).complete ∧
      (s.writeResult out).complete.memRead s.args.dst.toNat s.args.slen.toNat = out ∧
      s.sameOutside (s.writeResult out).complete s.args.dst.toNat s.args.slen.toNat ∧
      (s.writeResult out).complete.regs = s.regs ∧ (s.writeResult out).complete.res = { s.res with rlen := s.args.slen } := by
  have hspec := s.writeResult_complete_spec out
  rwa [hout, Word.ofInt, BitVec.ofNat_toNat, BitVec.setWidth_eq] at hspec

/-- Writing argument registers leaves how a command has ended. -/
theorem State.succeeded_setRegs {s t : State} (h : s.succeeded t) (r : ArgRegs) : s.succeeded (t.setRegs r) := h

theorem State.memRead_setRegs (s : State) (r : ArgRegs) (addr len : Nat) :
    (s.setRegs r).memRead addr len = s.memRead addr len := rfl

theorem State.sameOutside_setRegs {s t : State} {addr len : Nat} (h : s.sameOutside t addr len) (r : ArgRegs) :
    s.sameOutside (t.setRegs r) addr len := h

theorem State.srcBytes_eq_block (s : State) : s.srcBytes = s.block := rfl

theorem State.block_length (s : State) : s.block.length = s.args.slen.toNat := s.memRead_length ..

theorem execBwtFwd_of_ready {s : State} (h : s.byteReady s.cfg.maxBlock) (hcap : s.args.slen.toNat ≤ s.args.dcap.toNat) :
    execBwtFwd s = .next ((s.writeResult (forward s.block).1).complete.setRegs
      { s.regs with rot := Word.ofInt (forward s.block).2 }) := by
  simp only [execBwtFwd, State.sameLengthChecks_pass h (fun _ hc => absurd hc List.not_mem_nil) hcap]
  rfl

/-- Settles O27: the result at DST, and a rotation index that fits the register. -/
theorem bwtFwdWritesForwardTransform : Obligations.BwtFwdWritesForwardTransform := by
  intro s hready hcap
  obtain ⟨hdone, hread, hout, -, hres⟩ :=
    State.writeResult_complete_spec_of_length ((forward_length s.block).trans s.block_length)
  have hrot : (forward s.block).2 < 2 ^ 32 := by
    obtain ⟨hle, -⟩ := forwardOutputIsPrecedingSymbols s.block
    exact (hle.trans_eq s.block_length).trans_lt s.args.slen.isLt
  exact ⟨_, execBwtFwd_of_ready hready hcap, State.succeeded_setRegs hdone _, (State.memRead_setRegs ..).trans hread,
    State.sameOutside_setRegs hout _, (BitVec.toNat_ofNat ..).trans (Nat.mod_eq_of_lt hrot), rfl, hres⟩

/-- The early checks of BWT_INV pass where it may start, ROT is legal and the destination has room (R165). -/
theorem State.bwtInvChecks_pass {s : State} (h : s.byteReady s.cfg.maxBlock) (hrot : s.args.rot.toNat ≤ s.args.slen.toNat)
    (hcap : s.args.slen.toNat ≤ s.args.dcap.toNat) :
    firstFailing (s.byteChecks s.cfg.maxBlock [(decide (s.srcSpan.len < s.args.rot.toNat), .bwtRot)] ++
      [s.capacityCheck s.srcSpan.len]) = none :=
  State.sameLengthChecks_pass h (List.forall_mem_singleton.2 (decide_eq_false (Nat.not_lt.2 hrot))) hcap

/-- ROT above SLEN is the first check that fails where the length is legal (R165). -/
theorem execBwtInv_of_rot {s : State} (hlen : s.args.slen.toNat ≤ s.cfg.maxBlock)
    (hrot : s.args.slen.toNat < s.args.rot.toNat) : execBwtInv s = s.raiseFault .bwtRot := by
  refine execBwtInv_of_failing ?_
  have hlimit : ¬s.cfg.maxBlock < s.srcSpan.len := Nat.not_lt.2 hlen
  have hrot' : s.srcSpan.len < s.args.rot.toNat := hrot
  simp [State.byteChecks, firstFailing, hlimit, hrot']

/-- Settles O28, by what the walk gives. -/
theorem bwtInvWritesInverse : Obligations.BwtInvWritesInverse := by
  intro s hlen
  refine ⟨fun hrot => ?_, fun hrot hready hcap => ?_⟩
  · obtain ⟨t, ht, hfault⟩ := s.raiseFault_spec .bwtRot
    exact ⟨t, (execBwtInv_of_rot hlen hrot).trans ht, hfault⟩
  · have hchecks := State.bwtInvChecks_pass hready hrot hcap
    cases hx : inverse s.block s.args.rot.toNat with
    | none =>
      have hexec : execBwtInv s = s.raiseLateFault .bwtCycle [s.dstSpan] := by
        simp only [execBwtInv, hchecks, State.srcBytes_eq_block, hx]
      obtain ⟨t, ht, hstop, hframe, -⟩ := s.raiseLateFault_spec .bwtCycle [s.dstSpan]
      exact ⟨t, hexec.trans ht, hstop, fun a ha => hframe a (List.forall_mem_singleton.2 ha)⟩
    | some x =>
      have hexec : execBwtInv s = .next (s.writeResult x).complete := by
        simp only [execBwtInv, hchecks, State.srcBytes_eq_block, hx]
      exact ⟨_, hexec, State.writeResult_complete_spec_of_length ((inverse_length hx).trans s.block_length)⟩

end Sys2Proof.Machine
end
section
/-! PROOFS. The move-to-front recoder (42_mtf.md): what its list holds after a block (R180), what each step reads in it (R181,
R183), that the decoder's list stays the encoder's (R185), the corner cases and the two commands (R182, R184). -/

namespace Sys2Proof.Machine

/-! ### A list of all bytes, and a byte moved to its front (R180, R181, R183) -/

theorem recencyInit_length : recencyInit.length = 256 := by rw [recencyInit, List.length_map, List.length_range]

theorem recencyInit_nodup : recencyInit.Nodup := by decide +kernel

theorem ofNat_toNat_byte (b : Byte) : BitVec.ofNat 8 b.toNat = b := (BitVec.ofNat_toNat ..).trans (BitVec.setWidth_eq b)

theorem mem_recencyInit (b : Byte) : b ∈ recencyInit :=
  List.mem_map.2 ⟨b.toNat, List.mem_range.2 b.isLt, ofNat_toNat_byte b⟩

theorem recencyInit_getElem {i : Nat} (h : i < recencyInit.length) : recencyInit[i] = BitVec.ofNat 8 i := by
  simp [recencyInit]

/-- The list after the byte `b` was read in it. -/
def toFront (lst : List Byte) (b : Byte) : List Byte := b :: lst.erase b

theorem moveToFront_idxOf (lst : List Byte) (b : Byte) : moveToFront lst (lst.idxOf b) b = toFront lst b := by
  rw [moveToFront, toFront, ← List.eraseIdx_eq_take_drop_succ, List.eraseIdx_idxOf_eq_erase]

section
variable {lst : List Byte} (h : lst.Perm recencyInit)
include h

theorem length_of_perm_recencyInit : lst.length = 256 := h.length_eq.trans recencyInit_length

theorem mem_of_perm_recencyInit (b : Byte) : b ∈ lst := h.mem_iff.2 (mem_recencyInit b)

theorem idxOf_lt_of_perm_recencyInit (b : Byte) : lst.idxOf b < 256 :=
  (List.idxOf_lt_length_of_mem (mem_of_perm_recencyInit h b)).trans_eq (length_of_perm_recencyInit h)

/-- The rank of a byte fits a byte. -/
theorem toNat_rank_of_perm_recencyInit (b : Byte) : (BitVec.ofNat 8 (lst.idxOf b) : Byte).toNat = lst.idxOf b :=
  (BitVec.toNat_ofNat ..).trans (Nat.mod_eq_of_lt (idxOf_lt_of_perm_recencyInit h b))

theorem getD_idxOf_of_perm_recencyInit (b : Byte) : lst.getD (lst.idxOf b) 0 = b := by
  have hlt := List.idxOf_lt_length_of_mem (mem_of_perm_recencyInit h b)
  rw [List.getD_eq_getElem _ _ hlt, List.getElem_idxOf]

/-- Every rank is the position of the byte at it. -/
theorem idxOf_getD_of_perm_recencyInit (r : Byte) : lst.idxOf (lst.getD r.toNat 0) = r.toNat := by
  have hlt : r.toNat < lst.length := r.isLt.trans_eq (length_of_perm_recencyInit h).symm
  rw [List.getD_eq_getElem _ _ hlt, (h.nodup_iff.2 recencyInit_nodup).idxOf_getElem]

theorem toFront_perm_recencyInit (b : Byte) : (toFront lst b).Perm recencyInit :=
  (List.perm_cons_erase (mem_of_perm_recencyInit h b)).symm.trans h

/-- A decode step moves the byte it read (R183). -/
theorem moveToFront_getD (r : Byte) : moveToFront lst r.toNat (lst.getD r.toNat 0) = toFront lst (lst.getD r.toNat 0) := by
  rw [← moveToFront_idxOf, idxOf_getD_of_perm_recencyInit h]

end

/-! ### Decoding undoes encoding (R185) -/

/-- The step of R185: the rank that the encoder gives for `b` reads `b` in the same list, so both lists move `b`. -/
theorem mtfDecodeFrom_mtfEncodeFrom {lst : List Byte} (h : lst.Perm recencyInit) (x : List Byte) :
    mtfDecodeFrom lst (mtfEncodeFrom lst x) = x := by
  induction x generalizing lst with
  | nil => rfl
  | cons b bs ih =>
    rw [mtfEncodeFrom, mtfDecodeFrom, toNat_rank_of_perm_recencyInit h, getD_idxOf_of_perm_recencyInit h, moveToFront_idxOf,
      ih (toFront_perm_recencyInit h b)]

/-! ### The list after a block (R180) -/

theorem mtfEncodeFrom_append (lst x y : List Byte) :
    mtfEncodeFrom lst (x ++ y) = mtfEncodeFrom lst x ++ mtfEncodeFrom (x.foldl toFront lst) y := by
  induction x generalizing lst with
  | nil => rfl
  | cons b bs ih => simp only [List.cons_append, mtfEncodeFrom, moveToFront_idxOf, ih, List.foldl_cons]

theorem mtfDecodeFrom_append {lst : List Byte} (h : lst.Perm recencyInit) (z w : List Byte) :
    mtfDecodeFrom lst (z ++ w) = mtfDecodeFrom lst z ++ mtfDecodeFrom ((mtfDecodeFrom lst z).foldl toFront lst) w := by
  induction z generalizing lst with
  | nil => rfl
  | cons r rs ih =>
    simp only [List.cons_append, mtfDecodeFrom, moveToFront_getD h, ih (toFront_perm_recencyInit h _), List.foldl_cons]

/-- The list after a block, in plain terms: the block's distinct bytes, the most recent first, then every other byte in
ascending order. -/
def recencyList (x : List Byte) : List Byte := x.dedup.reverse ++ recencyInit.filter (fun v => decide (v ∉ x))

@[simp] theorem recencyList_nil : recencyList [] = recencyInit := by simp [recencyList]

/-- A block's distinct bytes and those of a list that are not among them. -/
theorem nodup_dedup_reverse_append_filter {l : List Byte} (hl : l.Nodup) (x : List Byte) :
    (x.dedup.reverse ++ l.filter (fun v => decide (v ∉ x))).Nodup := by
  refine (List.nodup_reverse.2 x.nodup_dedup).append (hl.filter _) fun v hv hv' => ?_
  have hnot : v ∉ x := of_decide_eq_true (List.mem_filter.1 hv').2
  exact hnot (List.mem_dedup.1 (List.mem_reverse.1 hv))

theorem recencyList_perm (x : List Byte) : (recencyList x).Perm recencyInit := by
  have hnodup : (recencyList x).Nodup := nodup_dedup_reverse_append_filter recencyInit_nodup x
  refine (List.perm_ext_iff_of_nodup hnodup recencyInit_nodup).2 fun v => iff_of_true ?_ (mem_recencyInit v)
  simp [recencyList, mem_recencyInit, em]

/-- `dedup` keeps last occurrences: a byte read again leaves its old place. -/
theorem dedup_concat (x : List Byte) (b : Byte) : (x ++ [b]).dedup = x.dedup.filter (· != b) ++ [b] := by
  induction x with
  | nil => rfl
  | cons a x ih =>
    by_cases hx : a ∈ x
    · rw [List.cons_append, List.dedup_cons_of_mem (List.mem_append_left _ hx), List.dedup_cons_of_mem hx, ih]
    · rw [List.cons_append, List.dedup_cons_of_notMem hx]
      by_cases hb : a = b
      · rw [List.dedup_cons_of_mem (by simp [hb]), ih, List.filter_cons_of_neg (by simp [hb])]
      · rw [List.dedup_cons_of_notMem (by simp [hx, hb]), ih, List.filter_cons_of_pos (by simp [hb]), List.cons_append]

theorem recencyList_concat (x : List Byte) (b : Byte) : recencyList (x ++ [b]) = toFront (recencyList x) b := by
  have hnodup := (recencyList_perm x).nodup_iff.2 recencyInit_nodup
  have hrest : recencyInit.filter (fun v => decide (v ∉ x ++ [b])) =
      (recencyInit.filter (fun v => decide (v ∉ x))).filter (· != b) := by
    rw [List.filter_filter]
    exact List.filter_congr fun v _ => Bool.eq_iff_iff.2 (by simp [and_comm])
  rw [toFront, hnodup.erase_eq_filter, recencyList, recencyList, dedup_concat, hrest, List.filter_append,
    List.filter_reverse, List.reverse_concat, List.cons_append]

theorem foldl_toFront_recencyInit (x : List Byte) : x.foldl toFront recencyInit = recencyList x := by
  induction x using List.reverseRecOn with
  | nil => exact recencyList_nil.symm
  | append_singleton x b ih => rw [List.foldl_concat, ih, recencyList_concat]

/-! ### What each step reads (R181, R183) -/

theorem mtfEncode_concat (x : List Byte) (b : Byte) :
    mtfEncode (x ++ [b]) = mtfEncode x ++ [BitVec.ofNat 8 ((recencyList x).idxOf b)] := by
  rw [mtfEncode, mtfEncodeFrom_append, foldl_toFront_recencyInit]
  rfl

theorem mtfDecode_concat (z : List Byte) (r : Byte) :
    mtfDecode (z ++ [r]) = mtfDecode z ++ [(recencyList (mtfDecode z)).getD r.toNat 0] := by
  rw [mtfDecode, mtfDecodeFrom_append (List.Perm.refl _), foldl_toFront_recencyInit]
  rfl

/-- Settles O48, by the step of R185 from the initial list and the list after a block. -/
theorem mtfDecodeUndoesEncode : Obligations.MtfDecodeUndoesEncode := by
  refine ⟨mtfDecodeFrom_mtfEncodeFrom (List.Perm.refl _), ⟨rfl, rfl, mtfEncode_concat, mtfDecode_concat⟩,
    fun lst b h => ?_⟩
  have hrank := toNat_rank_of_perm_recencyInit h b
  have hbyte := getD_idxOf_of_perm_recencyInit h b
  have hperm := toFront_perm_recencyInit h b
  rw [← moveToFront_idxOf] at hperm
  exact ⟨by rw [hrank, hbyte], by rw [hrank, hbyte], hperm⟩

/-! ### The corner cases (R182, R184) -/

theorem mem_take_recencyInit {b v : Byte} : v ∈ recencyInit.take b.toNat ↔ v.toNat < b.toNat := by
  rw [recencyInit, ← List.map_take, List.take_range, Nat.min_eq_left b.isLt.le, List.mem_map]
  constructor
  · rintro ⟨i, hi, rfl⟩
    exact (BitVec.toNat_ofNat i 8).trans_lt ((Nat.mod_le ..).trans_lt (List.mem_range.1 hi))
  · exact fun hv => ⟨v.toNat, List.mem_range.2 hv, ofNat_toNat_byte v⟩

theorem recencyInit_split (b : Byte) : recencyInit = recencyInit.take b.toNat ++ b :: recencyInit.drop (b.toNat + 1) := by
  have hlt : b.toNat < recencyInit.length := b.isLt.trans_eq recencyInit_length.symm
  conv_lhs => rw [← List.take_append_drop b.toNat recencyInit, List.drop_eq_getElem_cons hlt, recencyInit_getElem,
    ofNat_toNat_byte]

/-- The bytes ahead of one that has not occurred: the block's, and the smaller ones that have not occurred either. -/
def aheadOf (x : List Byte) (b : Byte) : List Byte :=
  x.dedup.reverse ++ (recencyInit.take b.toNat).filter (fun v => decide (v ∉ x))

theorem idxOf_recencyList_of_notMem {x : List Byte} {b : Byte} (hb : b ∉ x) :
    (recencyList x).idxOf b = (aheadOf x b).length := by
  have hsplit : recencyList x =
      aheadOf x b ++ b :: (recencyInit.drop (b.toNat + 1)).filter (fun v => decide (v ∉ x)) := by
    conv_lhs => rw [recencyList, recencyInit_split b, List.filter_append, List.filter_cons_of_pos (by simp [hb]),
      ← List.append_assoc, ← aheadOf]
  have hahead : b ∉ aheadOf x b := by simp [aheadOf, hb, mem_take_recencyInit]
  rw [hsplit, List.idxOf_append_of_notMem hahead, List.idxOf_cons_self, Nat.add_zero]

/-- The same bytes in other words: the smaller ones, and the block's greater ones. -/
theorem aheadOf_perm {x : List Byte} {b : Byte} (hb : b ∉ x) :
    (aheadOf x b).Perm (recencyInit.take b.toNat ++ x.dedup.filter (fun v => decide (b.toNat < v.toNat))) := by
  have hsmaller : (recencyInit.take b.toNat).Nodup := recencyInit_nodup.sublist (List.take_sublist ..)
  have hleft : (aheadOf x b).Nodup := nodup_dedup_reverse_append_filter hsmaller x
  have hright : (recencyInit.take b.toNat ++ x.dedup.filter (fun v => decide (b.toNat < v.toNat))).Nodup :=
    hsmaller.append (x.nodup_dedup.filter _) fun v hv hv' =>
      Nat.lt_asymm (mem_take_recencyInit.1 hv) (of_decide_eq_true (List.mem_filter.1 hv').2)
  refine (List.perm_ext_iff_of_nodup hleft hright).2 fun v => ?_
  simp only [aheadOf, List.mem_append, List.mem_reverse, List.mem_dedup, List.mem_filter, mem_take_recencyInit,
    decide_eq_true_eq]
  by_cases hv : v ∈ x
  · have hne : v.toNat ≠ b.toNat := fun he => hb (BitVec.eq_of_toNat_eq he ▸ hv)
    simpa [hv] using Nat.lt_or_gt_of_ne hne
  · simp [hv]

theorem idxOf_recencyList_first {x : List Byte} {b : Byte} (hb : b ∉ x) :
    (recencyList x).idxOf b = b.toNat + (x.dedup.filter (fun v => decide (b.toNat < v.toNat))).length := by
  rw [idxOf_recencyList_of_notMem hb, (aheadOf_perm hb).length_eq, List.length_append, List.length_take, recencyInit_length,
    Nat.min_eq_left b.isLt.le]

/-- The byte before stands at the front of the list. -/
theorem idxOf_recencyList_again (x : List Byte) (b : Byte) : (recencyList (x ++ [b])).idxOf b = 0 := by
  rw [recencyList_concat, toFront, List.idxOf_cons_self]

theorem recencyList_getD_zero (x : List Byte) : (recencyList x).getD 0 0 = x.getLastD 0 := by
  induction x using List.reverseRecOn with
  | nil => rfl
  | append_singleton x b => rw [recencyList_concat, toFront, List.getD_cons_zero, List.getLastD_concat]

/-! ### The two commands (R182, R184) -/

theorem State.recodeBlock_of_ready {s : State} (f : List Byte → List Byte) (h : s.byteReady s.cfg.maxBlock)
    (hcap : s.args.slen.toNat ≤ s.args.dcap.toNat) : s.recodeBlock f = .next (s.writeResult (f s.block)).complete := by
  simp only [State.recodeBlock, State.sameLengthChecks_pass h (fun _ hc => absurd hc List.not_mem_nil) hcap,
    State.srcBytes_eq_block]

/-- Settles O29: the list after a block for the corner cases, and a recoding that keeps the length for the commands. -/
theorem mtfCommandsWriteRecodedBlock : Obligations.MtfCommandsWriteRecodedBlock := by
  refine ⟨fun x b => ⟨fun hb => ?_, ?_, ?_⟩, fun s i f hi hready hcap => ?_⟩
  · rw [mtfEncode_concat, idxOf_recencyList_first hb]
  · rw [List.append_cons, mtfEncode_concat, idxOf_recencyList_again]
    rfl
  · rw [mtfDecode_concat, ← recencyList_getD_zero]
    rfl
  · have hexec := State.recodeBlock_of_ready f hready hcap
    rcases hi with hi | hi <;> obtain ⟨rfl, rfl⟩ := Prod.mk.inj hi
    · exact ⟨_, hexec, State.writeResult_complete_spec_of_length ((mtfEncode_length _).trans s.block_length)⟩
    · exact ⟨_, hexec, State.writeResult_complete_spec_of_length ((mtfDecode_length _).trans s.block_length)⟩

end Sys2Proof.Machine
end
section
/-! PROOFS. The zero-run-length recoder (43_rle.md): the two commands (R203, R206), that decoding undoes encoding, and how long
an encoding is (R205). -/

namespace Sys2Proof.Machine

/-! ### The two commands (R203, R206) -/

/-- Past the checks, only the length of the output decides. -/
theorem State.recodeRuns_of_ready {s : State} {limit : Nat} (f : List Byte → List Byte) (h : s.byteReady limit) :
    s.recodeRuns limit f =
      if s.args.dcap.toNat < (f s.block).length then s.raiseLateFault .dstOverflow [s.dstSpan]
      else .next (s.writeResult (f s.block)).complete := by
  have hchecks := (s.byteChecks_eq_none limit []).2 ⟨h, fun _ hc => absurd hc List.not_mem_nil⟩
  simp only [State.recodeRuns, hchecks, State.srcBytes_eq_block]
  rfl

/-- Settles O30: both commands are `recodeRuns`, and a length within DCAP fits RLEN. -/
theorem rleCommandsWriteRecodedBlock : Obligations.RleCommandsWriteRecodedBlock := by
  intro s i f limit hi hready
  have hexec : exec i s = s.recodeRuns limit f := by
    rcases hi with hi | hi <;> cases hi <;> rfl
  rw [hexec, State.recodeRuns_of_ready f hready]
  refine ⟨fun hcap => ?_, fun hcap => ?_⟩
  · obtain ⟨hdone, hread, hout, hregs, hres⟩ := s.writeResult_complete_spec (f s.block)
    have hrlen : (Word.ofInt (f s.block).length).toNat = (f s.block).length :=
      (BitVec.toNat_ofNat ..).trans (Nat.mod_eq_of_lt (hcap.trans_lt s.args.dcap.isLt))
    exact ⟨_, if_neg (Nat.not_lt.2 hcap), hdone, hread, hout, hregs, by rw [hres, hrlen], by rw [hres]⟩
  · obtain ⟨t, ht, hstop, hframe, -⟩ := s.raiseLateFault_spec .dstOverflow [s.dstSpan]
    exact ⟨t, (if_pos hcap).trans ht, hstop, fun a ha => hframe a (List.forall_mem_singleton.2 ha)⟩

/-! ### The encoder by its modes (R202) -/

/-- A capture counts a zero below the cap. -/
theorem rleEncodeFrom_capture_zero {c : Nat} (hc : c < rleCap) (x : List Byte) :
    rleEncodeFrom (.capture c) (0 :: x) = rleEncodeFrom (.capture (c + 1)) x :=
  if_pos ⟨rfl, hc⟩

/-- At any other byte a capture emits its count, and the encoder starts anew. -/
theorem rleEncodeFrom_capture_stop {c : Nat} {v : Byte} (h : ¬(v = 0 ∧ c < rleCap)) (x : List Byte) :
    rleEncodeFrom (.capture c) (v :: x) = BitVec.ofNat 8 c :: rleEncode (v :: x) :=
  if_neg h

theorem rleEncodeFrom_capture_full (x : List Byte) :
    rleEncodeFrom (.capture rleCap) x = 0xFF :: rleEncode x := by
  cases x with
  | nil => rfl
  | cons v x => exact rleEncodeFrom_capture_stop (fun h => Nat.lt_irrefl _ h.2) x

theorem rleAfter_of_ne {v : Byte} (hv : v ≠ 0) (zeros : Nat) : rleAfter zeros v = .verbatim 0 := if_neg hv

theorem rleEncodeFrom_verbatim_of_ne {v : Byte} (hv : v ≠ 0) (zeros : Nat) (y : List Byte) :
    rleEncodeFrom (.verbatim zeros) (v :: y) = v :: rleEncode y :=
  congrArg (fun m => v :: rleEncodeFrom m y) (rleAfter_of_ne hv zeros)

/-- A byte that is not zero cuts an encoding: what it gives and what follows it do not depend on what came before. -/
theorem rleEncodeFrom_append_cons (m : RleEncMode) (x : List Byte) {v : Byte} (hv : v ≠ 0) (y : List Byte) :
    rleEncodeFrom m (x ++ v :: y) = rleEncodeFrom m x ++ v :: rleEncode y := by
  induction x generalizing m with
  | nil =>
    cases m with
    | verbatim zeros => exact rleEncodeFrom_verbatim_of_ne hv zeros y
    | capture c =>
      rw [List.nil_append, rleEncodeFrom_capture_stop fun h => hv h.1, rleEncode, rleEncodeFrom_verbatim_of_ne hv]
      rfl
  | cons u x ih =>
    cases m with
    | verbatim zeros => simp only [List.cons_append, rleEncodeFrom, ih]
    | capture c =>
      simp only [List.cons_append, rleEncodeFrom, ih]
      split <;> rfl

/-! ### Decoding undoes encoding (R205) -/

/-- The mode of the decoder that reads what the encoder emits from a mode: in a capture, the next byte is a length. -/
def RleEncMode.decMode : RleEncMode → RleDecMode
  | .verbatim zeros => .verbatim zeros
  | .capture _ => .length

/-- The zeros that the encoder has read and not yet emitted. -/
def RleEncMode.held : RleEncMode → Nat
  | .verbatim _ => 0
  | .capture c => c

theorem RleEncMode.held_rleAfter (zeros : Nat) (v : Byte) : (rleAfter zeros v).held = 0 := by
  unfold rleAfter
  split
  · split <;> rfl
  · rfl

/-- Both sides enter the same mode after a verbatim byte. -/
theorem rleDecodeFrom_verbatim_cons (zeros : Nat) (v : Byte) (r : List Byte) :
    rleDecodeFrom (.verbatim zeros) (v :: r) = v :: rleDecodeFrom (rleAfter zeros v).decMode r := by
  rw [rleDecodeFrom, rleAfter, apply_ite RleEncMode.decMode, apply_ite RleEncMode.decMode]
  rfl

/-- A count up to the cap fits its length byte. -/
theorem rleDecodeFrom_length_cons {c : Nat} (hc : c ≤ rleCap) (r : List Byte) :
    rleDecodeFrom .length (BitVec.ofNat 8 c :: r) = List.replicate c 0 ++ rleDecode r := by
  have hbyte : (BitVec.ofNat 8 c).toNat = c := (BitVec.toNat_ofNat ..).trans (Nat.mod_eq_of_lt (Nat.lt_succ_of_le hc))
  rw [rleDecodeFrom, hbyte, rleDecode]

/-- The decoder that follows the encoder emits the zeros held, and then the input. -/
theorem rleDecodeFrom_rleEncodeFrom {m : RleEncMode} (hm : m.held ≤ rleCap) (x : List Byte) :
    rleDecodeFrom m.decMode (rleEncodeFrom m x) = List.replicate m.held 0 ++ x := by
  induction x generalizing m with
  | nil =>
    cases m with
    | verbatim zeros => rfl
    | capture c => exact rleDecodeFrom_length_cons hm []
  | cons v x ih =>
    have hverbatim (zeros : Nat) :
        rleDecodeFrom (.verbatim zeros) (rleEncodeFrom (.verbatim zeros) (v :: x)) = v :: x := by
      have hheld := RleEncMode.held_rleAfter zeros v
      rw [rleEncodeFrom, rleDecodeFrom_verbatim_cons, ih (hheld.trans_le (Nat.zero_le _)), hheld]
      rfl
    cases m with
    | verbatim zeros => exact hverbatim zeros
    | capture c =>
      by_cases hgo : v = 0 ∧ c < rleCap
      · obtain ⟨rfl, hc⟩ := hgo
        rw [rleEncodeFrom_capture_zero hc]
        exact (ih (m := .capture (c + 1)) hc).trans (by simp [RleEncMode.held, List.replicate_succ'])
      · rw [rleEncodeFrom_capture_stop hgo]
        exact (rleDecodeFrom_length_cons hm _).trans (congrArg (List.replicate c 0 ++ ·) (hverbatim 0))

/-- The source's invariant (R205). -/
theorem rleDecode_rleEncode (x : List Byte) : rleDecode (rleEncode x) = x :=
  rleDecodeFrom_rleEncodeFrom (m := .verbatim 0) (Nat.zero_le _) x

/-! ### How long an encoding is (R205) -/

/-- The quarters of a byte saved up for the next length byte: one for each zero in a row, four for a capture. -/
def RleEncMode.credit : RleEncMode → Nat
  | .verbatim zeros => zeros
  | .capture _ => 4

/-- A zero saves one quarter; any other byte loses those saved. -/
theorem RleEncMode.credit_rleAfter_le (zeros : Nat) (v : Byte) : (rleAfter zeros v).credit ≤ zeros + 1 := by
  unfold rleAfter
  split
  · split
    next hfour => exact hfour.ge
    · exact le_rfl
  · exact Nat.zero_le _

theorem rleEncodeFrom_length_le (m : RleEncMode) (x : List Byte) :
    4 * (rleEncodeFrom m x).length ≤ 5 * x.length + m.credit := by
  induction x generalizing m with
  | nil => cases m <;> simp [rleEncodeFrom, RleEncMode.credit]
  | cons v x ih =>
    cases m with
    | verbatim zeros =>
      have hrest := ih (rleAfter zeros v)
      have hcredit := RleEncMode.credit_rleAfter_le zeros v
      simp only [rleEncodeFrom, List.length_cons, RleEncMode.credit]
      omega
    | capture c =>
      have hgo := ih (.capture (c + 1))
      have hend := ih (rleAfter 0 v)
      have hcredit := RleEncMode.credit_rleAfter_le 0 v
      simp only [rleEncodeFrom, RleEncMode.credit] at hgo ⊢
      split <;> simp only [List.length_cons] <;> omega

theorem rleEncode_length_le (x : List Byte) : (rleEncode x).length ≤ x.length + x.length / 4 := by
  have h : 4 * (rleEncode x).length ≤ 5 * x.length + 0 := rleEncodeFrom_length_le (.verbatim 0) x
  omega

/-! ### Runs of zeros (R205) -/

/-- A capture swallows zeros up to the cap. -/
theorem rleEncodeFrom_capture_replicate {c n : Nat} (h : c + n ≤ rleCap) (x : List Byte) :
    rleEncodeFrom (.capture c) (List.replicate n 0 ++ x) = rleEncodeFrom (.capture (c + n)) x := by
  induction n generalizing c with
  | zero => rfl
  | succ n ih =>
    rw [List.replicate_succ, List.cons_append, rleEncodeFrom_capture_zero (by omega), ih (by omega), Nat.add_right_comm,
      Nat.add_assoc]

/-- Four zeros start a capture. -/
theorem rleEncode_four_zeros (x : List Byte) :
    rleEncode (List.replicate 4 0 ++ x) = List.replicate 4 0 ++ rleEncodeFrom (.capture 0) x := rfl

/-- A full capture of a longer run: the rest of the run is encoded anew. -/
theorem rleEncode_zeros_full (z : Nat) :
    rleEncode (List.replicate (259 + z) 0) = [0, 0, 0, 0, 0xFF] ++ rleEncode (List.replicate z 0) := by
  have hsplit : (List.replicate (259 + z) 0 : List Byte) =
      List.replicate 4 0 ++ (List.replicate rleCap 0 ++ List.replicate z 0) := by
    rw [List.replicate_append_replicate, List.replicate_append_replicate, ← Nat.add_assoc]
    rfl
  rw [hsplit, rleEncode_four_zeros, rleEncodeFrom_capture_replicate (Nat.zero_add _).le, Nat.zero_add,
    rleEncodeFrom_capture_full]
  rfl

/-- The full captures of a run, each of 259 zeros in five bytes, and what is left of it. -/
theorem rleEncode_zeros_mul_add (q t : Nat) :
    rleEncode (List.replicate (259 * q + t) 0) =
      (List.replicate q [0, 0, 0, 0, 0xFF]).flatten ++ rleEncode (List.replicate t 0) := by
  induction q with
  | zero => rw [Nat.mul_zero, Nat.zero_add]; rfl
  | succ q ih =>
    have hstep : 259 * (q + 1) + t = 259 + (259 * q + t) := by omega
    rw [hstep, rleEncode_zeros_full, ih, List.replicate_succ, List.flatten_cons, List.append_assoc]

/-- A run too short for a capture. -/
theorem rleEncode_zeros_short {t : Nat} (ht : t < 4) : rleEncode (List.replicate t 0) = List.replicate t 0 := by
  interval_cases t <;> rfl

/-- A run within one capture. -/
theorem rleEncode_zeros_captured {n : Nat} (hn : n ≤ rleCap) :
    rleEncode (List.replicate (4 + n) 0) = [0, 0, 0, 0, BitVec.ofNat 8 n] := by
  have hcapture := rleEncodeFrom_capture_replicate ((Nat.zero_add n).trans_le hn) []
  rw [List.append_nil, Nat.zero_add] at hcapture
  rw [← List.replicate_append_replicate, rleEncode_four_zeros, hcapture]
  rfl

theorem rleEncode_zeros_length_of_lt {t : Nat} (ht : t < 259) :
    (rleEncode (List.replicate t 0)).length = if t < 4 then t else 5 := by
  split
  next hshort => rw [rleEncode_zeros_short hshort, List.length_replicate]
  next hlong =>
    obtain ⟨n, rfl⟩ := Nat.exists_eq_add_of_le (Nat.not_lt.1 hlong)
    have hn : n ≤ 254 := by omega
    rw [rleEncode_zeros_captured (hn.trans (by decide))]
    simp

theorem rleEncode_zeros_length (z : Nat) :
    (rleEncode (List.replicate z 0)).length = 5 * (z / 259) + (if z % 259 < 4 then z % 259 else 5) := by
  have hsplit := rleEncode_zeros_mul_add (z / 259) (z % 259)
  rw [Nat.div_add_mod] at hsplit
  rw [hsplit, List.length_append, rleEncode_zeros_length_of_lt (Nat.mod_lt _ (by decide))]
  simp [Nat.mul_comm]

/-! ### The run between its neighbours (R205) -/

theorem rleEncode_append_of_last_ne_zero {x : List Byte} (hx : x = [] ∨ ∃ u v, x = u ++ [v] ∧ v ≠ 0) (y : List Byte) :
    rleEncode (x ++ y) = rleEncode x ++ rleEncode y := by
  rcases hx with rfl | ⟨u, v, rfl, hv⟩
  · rfl
  · have hcut (w : List Byte) : rleEncode (u ++ v :: w) = rleEncode u ++ v :: rleEncode w :=
      rleEncodeFrom_append_cons _ u hv w
    rw [List.append_assoc, List.singleton_append, hcut, hcut, List.append_assoc]
    rfl

theorem rleEncode_append_of_head_ne_zero (x : List Byte) {y : List Byte} (hy : y = [] ∨ ∃ v w, y = v :: w ∧ v ≠ 0) :
    rleEncode (x ++ y) = rleEncode x ++ rleEncode y := by
  rcases hy with rfl | ⟨v, w, rfl, hv⟩
  · simp [rleEncode, rleEncodeFrom]
  · have hstart : rleEncode (v :: w) = v :: rleEncode w := rleEncodeFrom_verbatim_of_ne hv 0 w
    rw [hstart]
    exact rleEncodeFrom_append_cons _ x hv w

/-- Settles O49, by a bound on quarters of a byte, and by the full captures of a run that is encoded alone. -/
theorem runLengthProperties : Obligations.RunLengthProperties := by
  refine ⟨fun x => ⟨rleDecode_rleEncode x, rleEncode_length_le x⟩, fun pre post z hpre hpost =>
    ⟨rleEncode (List.replicate z 0), ?_, rleEncode_zeros_length z⟩, ?_⟩
  · rw [rleEncode_append_of_head_ne_zero _ hpost, rleEncode_append_of_last_ne_zero hpre]
  · rw [rleEncode_zeros_mul_add 3 223, rleEncode_zeros_captured (n := 219) (by decide)]
    rfl

end Sys2Proof.Machine
end

section
/-! PROOFS. The normalisation of the raw counts (44_fse_tables.md R224, R227): the floors lose less than the alphabet
size, the residual makes up for it, and every step of the fix-up keeps the sum. -/

namespace Sys2Proof.Machine

/-! ### The largest count and where it stands (R20) -/

theorem maxOf_eq_max? (v : List Nat) : maxOf v = v.max?.getD 0 := by rw [maxOf, List.foldl_max, Nat.zero_max]

theorem le_maxOf {v : List Nat} {x : Nat} (h : x ∈ v) : x ≤ maxOf v :=
  (List.le_max?_getD_of_mem h).trans_eq (maxOf_eq_max? v).symm

theorem maxOf_mem {v : List Nat} (h : v ≠ []) : maxOf v ∈ v := by
  obtain ⟨m, hm⟩ := Option.ne_none_iff_exists'.1 (mt List.max?_eq_none_iff.1 h)
  rw [maxOf_eq_max?, hm]
  exact List.max?_mem hm

theorem argmaxLow_lt_length {v : List Nat} (h : v ≠ []) : argmaxLow v < v.length :=
  List.idxOf_lt_length_of_mem (maxOf_mem h)

theorem getD_argmaxLow {v : List Nat} (h : v ≠ []) : v.getD (argmaxLow v) 0 = maxOf v := by
  rw [List.getD_eq_getElem _ _ (argmaxLow_lt_length h)]
  exact List.getElem_idxOf _

/-! ### A table with one count replaced -/

theorem sum_set_add_getD {f : List Nat} {i : Nat} (hi : i < f.length) (a : Nat) :
    (f.set i a).sum + f.getD i 0 = f.sum + a := by
  induction f generalizing i with
  | nil => cases hi
  | cons b f ih =>
    cases i with
    | zero => simp only [List.set_cons_zero, List.sum_cons, List.getD_cons_zero]; omega
    | succ i =>
      have := ih (Nat.lt_of_succ_lt_succ hi)
      simp only [List.set_cons_succ, List.sum_cons, List.getD_cons_succ]
      omega

theorem getD_set_eq_ite {α : Type} {l : List α} {i : Nat} (hi : i < l.length) (a d : α) (q : Nat) :
    (l.set i a).getD q d = if i = q then a else l.getD q d := by
  simp only [List.getD_eq_getElem?_getD, List.getElem?_set, hi, if_true]
  split <;> rfl

theorem forall_mem_iff_getD {f : List Nat} {p : Nat → Prop} : (∀ v ∈ f, p v) ↔ ∀ q < f.length, p (f.getD q 0) := by
  rw [List.forall_mem_iff_forall_getElem]
  refine forall₂_congr fun q hq => ?_
  rw [List.getD_eq_getElem _ _ hq]

/-! ### The scaled counts (R222, R224, R227) -/

theorem lt_two_pow_bitLength (A : Nat) : A < 2 ^ bitLength A := by
  rw [bitLength]
  split
  next h => simp [h]
  next h => exact Nat.lt_log2_self

/-- `2^P > 16 A` (R227). -/
theorem lt_halfRange (A : Nat) : 16 * A < 2 ^ (bitLength A + 4) := by
  rw [Nat.pow_add]
  have := lt_two_pow_bitLength A
  omega

/-- Every symbol of a sequence is counted once (R222). -/
theorem sum_rawCounts {d : List Nat} {A : Nat} (hd : ∀ v ∈ d, v < A) :
    ∑ s ∈ Finset.range A, d.count s = d.length := by
  have := Multiset.sum_count_eq_card (s := Finset.range A) (m := (d : Multiset Nat)) fun v hv =>
    Finset.mem_range.2 (hd v hv)
  simpa using this

theorem sum_scaleCounts (d : List Nat) (A P N : Nat) :
    (scaleCounts (rawCounts d A) P N).sum = ∑ s ∈ Finset.range A, d.count s * 2 ^ P / N := by
  rw [scaleCounts, rawCounts, List.map_map]
  rfl

/-- Floors do not exceed what they round. -/
theorem sum_scaleCounts_le {d : List Nat} {A : Nat} (hne : d ≠ []) (hd : ∀ v ∈ d, v < A) (P : Nat) :
    (scaleCounts (rawCounts d A) P d.length).sum ≤ 2 ^ P := by
  have hpos : 0 < d.length := List.length_pos_iff.2 hne
  refine Nat.le_of_mul_le_mul_left ?_ hpos
  calc d.length * (scaleCounts (rawCounts d A) P d.length).sum
      = ∑ s ∈ Finset.range A, d.length * (d.count s * 2 ^ P / d.length) := by rw [sum_scaleCounts, Finset.mul_sum]
    _ ≤ ∑ s ∈ Finset.range A, d.count s * 2 ^ P := Finset.sum_le_sum fun s _ => Nat.mul_div_le ..
    _ = d.length * 2 ^ P := by rw [← Finset.sum_mul, sum_rawCounts hd]

/-- Each of the `A` floors loses less than 1 (R227). -/
theorem lt_sum_scaleCounts_add {d : List Nat} {A : Nat} (hne : d ≠ []) (hA : 1 ≤ A) (hd : ∀ v ∈ d, v < A) (P : Nat) :
    2 ^ P < (scaleCounts (rawCounts d A) P d.length).sum + A := by
  have hpos : 0 < d.length := List.length_pos_iff.2 hne
  refine Nat.lt_of_mul_lt_mul_left (a := d.length) ?_
  calc d.length * 2 ^ P
      = ∑ s ∈ Finset.range A, d.count s * 2 ^ P := by rw [← Finset.sum_mul, sum_rawCounts hd]
    _ < ∑ s ∈ Finset.range A, d.length * (d.count s * 2 ^ P / d.length + 1) :=
      Finset.sum_lt_sum_of_nonempty ⟨0, Finset.mem_range.2 hA⟩ fun s _ => Nat.lt_mul_div_succ _ hpos
    _ = d.length * ((scaleCounts (rawCounts d A) P d.length).sum + A) := by
      rw [← Finset.mul_sum, Finset.sum_add_distrib, sum_scaleCounts, Finset.sum_const, Finset.card_range, smul_eq_mul,
        Nat.mul_one]

/-! ### The residual and the fix-up (R224, R227) -/

theorem addResidual_length (c f : List Nat) (P : Nat) : (addResidual c f P).length = f.length := List.length_set

/-- The residual brings the sum to `2^P`. -/
theorem sum_addResidual {c f : List Nat} {P : Nat} (hc : c ≠ []) (hlen : c.length = f.length) (hsum : f.sum ≤ 2 ^ P) :
    (addResidual c f P).sum = 2 ^ P := by
  have := sum_set_add_getD (hlen ▸ argmaxLow_lt_length hc) (f.getD (argmaxLow c) 0 + (2 ^ P - f.sum))
  rw [addResidual]
  omega

/-- Counts whose sum exceeds their number have a largest count of 2 or more. -/
theorem two_le_maxOf {f : List Nat} (h : f.length < f.sum) : 2 ≤ maxOf f := by
  by_contra hmax
  have hle : f.sum ≤ f.length • 1 := List.sum_le_card_nsmul f 1 fun v hv => (le_maxOf hv).trans (by omega)
  simp only [smul_eq_mul, Nat.mul_one] at hle
  omega

/-- Taking a unit from the largest count leaves every count at least 1 as it was. -/
theorem decrement_argmaxLow_spec {g : List Nat} (hne : g ≠ []) (hmax : 2 ≤ maxOf g) :
    (g.set (argmaxLow g) (g.getD (argmaxLow g) 0 - 1)).sum + 1 = g.sum ∧
      ∀ q, 1 ≤ g.getD q 0 → 1 ≤ (g.set (argmaxLow g) (g.getD (argmaxLow g) 0 - 1)).getD q 0 := by
  have hk := argmaxLow_lt_length hne
  have hsum := sum_set_add_getD hk (g.getD (argmaxLow g) 0 - 1)
  rw [getD_argmaxLow hne] at hsum ⊢
  refine ⟨by omega, fun q hq => ?_⟩
  rw [getD_set_eq_ite hk]
  split <;> omega

/-- A step of the fix-up keeps the sum, gives its symbol a count, and takes no other symbol's last one. -/
theorem raiseZero_spec {f : List Nat} {s : Nat} (hs : s < f.length) (hsum : f.length ≤ f.sum) :
    (raiseZero f s).sum = f.sum ∧ 1 ≤ (raiseZero f s).getD s 0 ∧
      ∀ q, 1 ≤ f.getD q 0 → 1 ≤ (raiseZero f s).getD q 0 := by
  simp only [raiseZero]
  split
  next hzero =>
    have hset : (f.set s 1).sum = f.sum + 1 := by have := sum_set_add_getD hs 1; omega
    have hget := getD_set_eq_ite hs 1 0
    have hlen : (f.set s 1).length < (f.set s 1).sum := by rw [List.length_set]; omega
    have hne : f.set s 1 ≠ [] := List.length_pos_iff.1 (by rw [List.length_set]; omega)
    obtain ⟨htaken, hkeep⟩ := decrement_argmaxLow_spec hne (two_le_maxOf hlen)
    refine ⟨by omega, hkeep s (by rw [hget, if_pos rfl]), fun q hq => hkeep q ?_⟩
    rw [hget]
    split <;> omega
  next hpos => exact ⟨rfl, Nat.one_le_iff_ne_zero.2 hpos, fun _ => id⟩

/-- The fix-up of the first `k` symbols keeps the sum and leaves each of them a count. -/
theorem foldl_raiseZero_spec {f : List Nat} (hsum : f.length ≤ f.sum) {k : Nat} (hk : k ≤ f.length) :
    ((List.range k).foldl raiseZero f).length = f.length ∧ ((List.range k).foldl raiseZero f).sum = f.sum ∧
      ∀ q < k, 1 ≤ ((List.range k).foldl raiseZero f).getD q 0 := by
  induction k with
  | zero => exact ⟨rfl, rfl, nofun⟩
  | succ k ih =>
    obtain ⟨hlen, hkeep, hcounts⟩ := ih (Nat.le_of_succ_le hk)
    rw [List.range_succ, List.foldl_concat]
    obtain ⟨hkeep', hnew, hold⟩ := raiseZero_spec (s := k) (hlen ▸ hk) (hlen.le.trans (hsum.trans hkeep.ge))
    refine ⟨(raiseZero_length ..).trans hlen, hkeep'.trans hkeep, fun q hq => ?_⟩
    rcases Nat.lt_succ_iff_lt_or_eq.1 hq with hlt | rfl
    · exact hold q (hcounts q hlt)
    · exact hnew

/-- A normalised table sums to `2^P` with every count at least 1 (R227). -/
theorem normalize_spec {d : List Nat} {A : Nat} (hne : d ≠ []) (hA : 1 ≤ A) (hd : ∀ v ∈ d, v < A) :
    (normalize d A).sum = 2 ^ (bitLength A + 4) ∧ ∀ v ∈ normalize d A, 1 ≤ v := by
  have hlen : (rawCounts d A).length = A := by rw [rawCounts, List.length_map, List.length_range]
  have hscaled : (scaleCounts (rawCounts d A) (precision A) d.length).length = A :=
    (List.length_map ..).trans hlen
  have hraw : rawCounts d A ≠ [] := List.length_pos_iff.1 (hA.trans_eq hlen.symm)
  have hfixed := (addResidual_length (rawCounts d A) (scaleCounts (rawCounts d A) (precision A) d.length)
    (precision A)).trans hscaled
  have hsum := sum_addResidual hraw (hlen.trans hscaled.symm) (sum_scaleCounts_le hne hd (precision A))
  have hroom : A ≤ 2 ^ precision A := by have := lt_halfRange A; rw [precision]; omega
  obtain ⟨hlen', hkeep, hcounts⟩ := foldl_raiseZero_spec (hfixed.trans_le (hroom.trans hsum.ge)) hfixed.ge
  exact ⟨hkeep.trans hsum, forall_mem_iff_getD.2 fun q hq => hcounts q (hq.trans_eq (hlen'.trans hfixed))⟩

theorem validTable_iff {f : List Nat} {A : Nat} : validTable f A = true ↔
    1 ≤ A ∧ A ≤ 256 ∧ f.length = A ∧ (∀ v ∈ f, 1 ≤ v) ∧ f.sum = 2 ^ (bitLength A + 4) := by
  simp [validTable, precision, and_assoc]

/-- Every normalised table is valid (R228). -/
theorem validTable_normalize {d : List Nat} {A : Nat} (hne : d ≠ []) (hA : 1 ≤ A) (hA' : A ≤ 256) (hd : ∀ v ∈ d, v < A) :
    validTable (normalize d A) A = true :=
  have ⟨hsum, hcounts⟩ := normalize_spec hne hA hd
  validTable_iff.2 ⟨hA, hA', normalize_length d A, hcounts, hsum⟩

/-- With one symbol the whole sum is its count (R227). -/
theorem normalize_one {d : List Nat} (hne : d ≠ []) (hd : ∀ v ∈ d, v < 1) : normalize d 1 = [32] := by
  obtain ⟨v, hv⟩ := List.length_eq_one_iff.1 (normalize_length d 1)
  obtain ⟨hsum, -⟩ := normalize_spec hne (Nat.le_refl 1) hd
  rw [hv, List.sum_singleton] at hsum
  rw [hv, hsum]
  rfl

/-- Settles O50: the bounds of the floors, and the sum that each step of the fix-up keeps. -/
theorem normalizedTableIsValid : Obligations.NormalizedTableIsValid := by
  intro d A hne hA _ hd
  obtain ⟨hsum, hcounts⟩ := normalize_spec hne hA hd
  exact ⟨normalize_length d A, hsum, hcounts, sum_scaleCounts_le hne hd _, lt_sum_scaleCounts_add hne hA hd _,
    fun h => by subst h; exact normalize_one hne hd⟩

end Sys2Proof.Machine
end

section
/-! PROOFS. What a build of the entropy tables keeps (44_fse_tables.md R229 to R234): each symbol's states are assigned
in the order of their candidates, at or above their targets, and the slot owners are the same relation read the other way. -/

namespace Sys2Proof.Machine

/-! ### Targets and free slots (R229, R230) -/

/-- The target of candidate `x` for symbol `s` in a table (R229). -/
def slotTarget (f : List Nat) (A x s : Nat) : Nat := target (precision A) x (f.getD s 1)

theorem maxState_add_one (A : Nat) : maxState A + 1 = 2 ^ (bitLength A + 5) := Nat.sub_add_cancel Nat.one_le_two_pow

theorem two_le_slotTarget (f : List Nat) (A x s : Nat) : 2 ≤ slotTarget f A x s := Nat.le_max_right ..

theorem slotTarget_mono (f : List Nat) (A s : Nat) {x z : Nat} (h : x ≤ z) : slotTarget f A x s ≤ slotTarget f A z s :=
  max_le_max_right 2 (Nat.div_le_div_right (Nat.mul_le_mul_right _ h))

theorem div_le_slotTarget {f : List Nat} {s : Nat} (hs : s < f.length) (A x : Nat) :
    x * 2 ^ (bitLength A + 4) / f.getD s 0 ≤ slotTarget f A x s := by
  rw [List.getD_eq_getElem _ _ hs, slotTarget, List.getD_eq_getElem _ _ hs]
  exact Nat.le_max_left ..

theorem freeSlotFrom_eq_some {owner : Owners} {goal y : Nat} (h : freeSlotFrom owner goal = some y) :
    goal ≤ y ∧ y < owner.length ∧ owner.getD y none = none := by
  obtain ⟨i, hi, rfl⟩ := Option.map_eq_some_iff.1 h
  obtain ⟨hlt, hfree, -⟩ := List.findIdx?_eq_some_iff_getElem.1 hi
  rw [List.length_drop] at hlt
  have hlt' : goal + i < owner.length := by omega
  rw [List.getElem_drop, Option.isNone_iff_eq_none] at hfree
  exact ⟨Nat.le_add_right .., hlt', (List.getD_eq_getElem _ _ hlt').trans hfree⟩

/-! ### One assignment (R229) -/

/-- How many states a symbol has. -/
abbrev Tables.stateCount (t : Tables) (s : Nat) : Nat := (t.states.getD s []).length

/-- The tables after slot `y` is given to symbol `s` at candidate `x`. -/
def Tables.assign (t : Tables) (s x y : Nat) : Tables :=
  { owner := t.owner.set y (some (s, x)), states := t.states.set s (t.states.getD s [] ++ [y]) }

/-- All that one candidate of one symbol can do: nothing where the target is above MaxState, and else it takes a free
slot at or above the target. -/
theorem assignSlot_cases {f : List Nat} {A x s : Nat} {t t' : Tables} (h : assignSlot f A x t s = some t') :
    (maxState A < slotTarget f A x s ∧ t' = t) ∨
      (slotTarget f A x s ≤ maxState A ∧ ∃ y, slotTarget f A x s ≤ y ∧ y < t.owner.length ∧ t.entry y = none ∧
        t' = t.assign s x y) := by
  simp only [assignSlot] at h
  split at h
  next hskip => exact .inl ⟨hskip, (Option.some.inj h).symm⟩
  next hgoal =>
    split at h
    · cases h
    next y hy =>
      obtain ⟨hle, hlt, hfree⟩ := freeSlotFrom_eq_some hy
      exact .inr ⟨Nat.not_lt.1 hgoal, y, hle, hlt, hfree, (Option.some.inj h).symm⟩

/-- `E_s[x] = y` (R229). -/
def Tables.HasState (t : Tables) (s x y : Nat) : Prop := 1 ≤ x ∧ (t.states.getD s [])[x - 1]? = some y

theorem Tables.hasState_iff {t : Tables} {s x y : Nat} :
    t.HasState s x y ↔ 1 ≤ x ∧ x ≤ t.stateCount s ∧ t.state s x = y := by
  refine and_congr_right fun hx => ?_
  have hlt : x - 1 < t.stateCount s ↔ x ≤ t.stateCount s := by omega
  rw [List.getElem?_eq_some_iff, ← hlt]
  refine Iff.trans ?_ exists_prop
  refine exists_congr fun h => ?_
  rw [Tables.state, List.getD_eq_getElem _ _ h]

/-- An assignment of a free slot adds one owner. -/
theorem Tables.entry_assign {t : Tables} {y : Nat} (hy : y < t.owner.length) (hfree : t.entry y = none)
    (s x q r z : Nat) :
    (t.assign s x y).entry z = some (q, r) ↔ (q = s ∧ r = x ∧ z = y) ∨ t.entry z = some (q, r) := by
  have hset : (t.assign s x y).entry z = if y = z then some (s, x) else t.entry z := getD_set_eq_ite hy ..
  rw [hset]
  split
  next hz => subst hz; simp [hfree, eq_comm]
  next hz => simp [Ne.symm hz]

theorem Tables.states_assign {t : Tables} {s : Nat} (hs : s < t.states.length) (x y q : Nat) :
    (t.assign s x y).states.getD q [] = if s = q then t.states.getD s [] ++ [y] else t.states.getD q [] :=
  getD_set_eq_ite hs ..

theorem Tables.stateCount_assign {t : Tables} {s : Nat} (hs : s < t.states.length) (x y q : Nat) :
    (t.assign s x y).stateCount q = if s = q then t.stateCount q + 1 else t.stateCount q := by
  rw [Tables.stateCount, Tables.states_assign hs]
  split
  next hq => rw [hq, List.length_append]; rfl
  · rfl

/-- An assignment adds one state, of the next rank. -/
theorem Tables.hasState_assign {t : Tables} {s : Nat} (hs : s < t.states.length) (x y q r z : Nat) :
    (t.assign s x y).HasState q r z ↔ (q = s ∧ r = t.stateCount s + 1 ∧ z = y) ∨ t.HasState q r z := by
  rw [Tables.HasState, Tables.HasState, Tables.states_assign hs]
  split
  next hq =>
    subst hq
    rw [List.getElem?_append]
    split
    next hlt =>
      have : r ≠ t.stateCount s + 1 := by simp only [Tables.stateCount]; omega
      simp [this]
    next hge =>
      rw [List.getElem?_eq_none (Nat.not_lt.1 hge), List.getElem?_singleton]
      simp only [Tables.stateCount]
      grind
  next hq => simp [Ne.symm hq]

/-! ### The two tables agree (R233, R234) -/

/-- The slot owners and the lists of states are one relation, and only symbols of the alphabet own slots (R234). -/
def Tables.Agree (A : Nat) (t : Tables) : Prop := ∀ s x y, t.entry y = some (s, x) ↔ s < A ∧ t.HasState s x y

/-- Giving a free slot to a symbol at its next rank adds the same owner and state. -/
theorem Tables.Agree.assign {A s y : Nat} {t : Tables} (h : t.Agree A) (hlen : t.states.length = A) (hs : s < A)
    (hy : y < t.owner.length) (hfree : t.entry y = none) : (t.assign s (t.stateCount s + 1) y).Agree A := by
  intro q r z
  rw [Tables.entry_assign hy hfree, Tables.hasState_assign (hlen ▸ hs), h, and_or_left]
  exact or_congr_left (iff_and_self.2 fun hq => hq.1 ▸ hs)

/-! ### What the loops of a build keep (R229, R230) -/

/-- A loop over `0, 1, ...` that may stop keeps what each round takes one step further. -/
theorem foldlM_range_some_keeps {β : Type} {P : Nat → β → Prop} {g : β → Nat → Option β} {n : Nat}
    (hg : ∀ k < n, ∀ t t', g t k = some t' → P k t → P (k + 1) t') {t t' : β} (h : (List.range n).foldlM g t = some t')
    (ht : P 0 t) : P n t' := by
  induction n generalizing t' with
  | zero => exact Option.some.inj h ▸ ht
  | succ n ih =>
    rw [List.range_succ, List.foldlM_append] at h
    obtain ⟨u, hu, hlast⟩ := Option.bind_eq_some_iff.1 h
    rw [List.foldlM_cons] at hlast
    obtain ⟨v, hv, hend⟩ := Option.bind_eq_some_iff.1 hlast
    exact Option.some.inj hend ▸
      hg n n.lt_succ_self u v hv (ih (fun k hk => hg k (hk.trans n.lt_succ_self)) hu)

/-- Candidate `x + 1` of symbol `s` is given a state: its target is no more than MaxState (R230). -/
abbrev Assignable (f : List Nat) (A s x : Nat) : Prop := slotTarget f A (x + 1) s ≤ maxState A

/-- The tables of a build that has been through the candidates `1, ..., done s` of each symbol `s`. -/
structure Tables.Built (f : List Nat) (A : Nat) (done : Nat → Nat) (t : Tables) : Prop where
  owner_length : t.owner.length = maxState A + 1
  states_length : t.states.length = A
  stateCount_eq : ∀ s < A, t.stateCount s = Nat.count (Assignable f A s) (done s)
  agree : t.Agree A
  target_le : ∀ s x y, t.HasState s x y → slotTarget f A x s ≤ y

theorem Tables.built_empty (f : List Nat) (A : Nat) : Tables.Built f A (fun _ => 0) (Tables.empty A) := by
  have hentry (y : Nat) : (Tables.empty A).entry y = none :=
    List.getD_eq_getElem?_getD.trans (List.getElem?_getD_replicate_default_eq ..)
  have hstates (s : Nat) : (Tables.empty A).states.getD s [] = [] :=
    List.getD_eq_getElem?_getD.trans (List.getElem?_getD_replicate_default_eq ..)
  have hnone (s x y : Nat) : ¬(Tables.empty A).HasState s x y := by
    rw [Tables.HasState, hstates]
    exact fun h => nomatch h.2
  exact {
    owner_length := List.length_replicate
    states_length := List.length_replicate
    stateCount_eq := fun s _ => by rw [Tables.stateCount, hstates]; rfl
    agree := fun s x y => by simp [hentry, hnone]
    target_le := fun s x y h => absurd h (hnone s x y) }

theorem Tables.Built.congr {f : List Nat} {A : Nat} {done done' : Nat → Nat} {t : Tables} (h : t.Built f A done)
    (heq : ∀ s < A, done s = done' s) : t.Built f A done' :=
  { h with stateCount_eq := fun s hs => heq s hs ▸ h.stateCount_eq s hs }

/-- Targets rise with the candidate, so a symbol whose next candidate is given a state has had one from each before it. -/
theorem Tables.Built.stateCount_eq_done {f : List Nat} {A s : Nat} {done : Nat → Nat} {t : Tables}
    (h : t.Built f A done) (hs : s < A) (hnext : Assignable f A s (done s)) : t.stateCount s = done s := by
  rw [h.stateCount_eq s hs, Nat.count_iff_forall]
  exact fun x hx => (slotTarget_mono f A s (Nat.succ_le_succ hx.le)).trans hnext

/-- The next candidate of one symbol. -/
theorem Tables.Built.assignSlot {f : List Nat} {A s : Nat} {done : Nat → Nat} {t t' : Tables} (h : t.Built f A done)
    (hs : s < A) (ht' : Machine.assignSlot f A (done s + 1) t s = some t') :
    t'.Built f A (fun q => if s = q then done q + 1 else done q) := by
  rcases assignSlot_cases ht' with ⟨hskip, rfl⟩ | ⟨hgoal, y, hle, hlt, hfree, rfl⟩
  · refine { h with stateCount_eq := fun q hq => ?_ }
    rw [h.stateCount_eq q hq]
    split
    next hsq => exact (Nat.count_succ_eq_count_iff.2 (hsq ▸ Nat.not_le.2 hskip)).symm
    · rfl
  · have hrank := h.stateCount_eq_done hs hgoal
    have hs' : s < t.states.length := h.states_length.symm ▸ hs
    exact {
      owner_length := List.length_set.trans h.owner_length
      states_length := List.length_set.trans h.states_length
      stateCount_eq := fun q hq => by
        rw [Tables.stateCount_assign hs', h.stateCount_eq q hq]
        split
        next hsq => exact (Nat.count_succ_eq_succ_count_iff.2 (hsq ▸ hgoal)).symm
        · rfl
      agree := hrank ▸ h.agree.assign h.states_length hs hlt hfree
      target_le := fun q x z hx => by
        rcases (Tables.hasState_assign hs' ..).1 hx with ⟨rfl, rfl, rfl⟩ | hold
        · rwa [hrank]
        · exact h.target_le q x z hold }

/-- One candidate of every symbol. -/
theorem Tables.Built.assignCandidate {f : List Nat} {A c : Nat} {t t' : Tables} (h : t.Built f A fun _ => c)
    (ht' : Machine.assignCandidate f A t (c + 1) = some t') : t'.Built f A fun _ => c + 1 := by
  have hfold : t'.Built f A fun q => if q < A then c + 1 else c := by
    refine foldlM_range_some_keeps (P := fun k t => t.Built f A fun q => if q < k then c + 1 else c)
      (fun k hk u u' hu' hu => ?_) ht' (h.congr fun _ _ => rfl)
    refine (hu.assignSlot hk (by rwa [if_neg k.lt_irrefl])).congr fun q _ => ?_
    grind
  exact hfold.congr fun q hq => if_pos hq

theorem Tables.built_of_buildTables {f : List Nat} {A : Nat} {t : Tables} (h : buildTables f A = some t) :
    t.Built f A fun _ => maxState A := by
  rw [buildTables, List.foldlM_map] at h
  exact foldlM_range_some_keeps (P := fun k t => t.Built f A fun _ => k)
    (fun k _ u u' hu' hu => hu.assignCandidate hu') h (Tables.built_empty f A)

/-- Settles O52: the agreement is kept by every assignment of a build. -/
theorem encodingAndDecodingTablesAgree : Obligations.EncodingAndDecodingTablesAgree := fun f A t h s x y => by
  rw [(Tables.built_of_buildTables h).agree, Tables.hasState_iff]

/-! ### A table that builds (R230, R232) -/

/-- A candidate of a symbol of count at least 1 is given a state exactly where it is below twice the count (R230). -/
theorem assignable_iff {f : List Nat} {A s : Nat} (hs : s < f.length) (hpos : 1 ≤ f.getD s 0) (x : Nat) :
    Assignable f A s x ↔ x + 1 < 2 * f.getD s 0 := by
  have hmax := maxState_add_one A
  have hL : 2 ^ (bitLength A + 5) = 2 * 2 ^ (bitLength A + 4) := Nat.pow_succ'
  have htwo : 2 ≤ maxState A := by
    have : 2 ^ 5 ≤ 2 ^ (bitLength A + 5) := Nat.pow_le_pow_right Nat.two_pos (Nat.le_add_left ..)
    omega
  have hcount : f.getD s 1 = f.getD s 0 := by rw [List.getD_eq_getElem _ _ hs, List.getD_eq_getElem _ _ hs]
  rw [Assignable, slotTarget, target, hcount, max_le_iff, and_iff_left htwo, ← Nat.lt_succ_iff,
    Nat.succ_eq_add_one, hmax, hL, Nat.div_lt_iff_lt_mul hpos, precision]
  rw [Nat.mul_right_comm 2, Nat.mul_lt_mul_right (Nat.two_pow_pos _)]

/-- As many candidates are counted as are below a bound. -/
theorem count_eq_of_iff_lt {p : Nat → Prop} [DecidablePred p] {k n : Nat} (hkn : k ≤ n) (hp : ∀ x, p x ↔ x < k) :
    Nat.count p n = k := by
  obtain ⟨m, rfl⟩ := Nat.exists_eq_add_of_le hkn
  rw [Nat.count_add, Nat.count_iff_forall.2 fun x hx => (hp x).2 hx, Nat.count_iff_forall_not.2, Nat.add_zero]
  exact fun x _ hx => absurd ((hp _).1 hx) (Nat.not_lt.2 (Nat.le_add_right ..))

/-- A symbol of a valid table that builds has `2 f[s] - 1` states (R232 (a)). -/
theorem Tables.stateCount_of_buildTables {f : List Nat} {A s : Nat} {t : Tables} (hf : validTable f A = true)
    (h : buildTables f A = some t) (hs : s < A) : t.stateCount s = 2 * f.getD s 0 - 1 := by
  obtain ⟨-, -, hlen, hcounts, hsum⟩ := validTable_iff.1 hf
  have hs' : s < f.length := hlen.symm ▸ hs
  have hmem : f.getD s 0 ∈ f := List.getD_eq_getElem _ _ hs' ▸ List.getElem_mem hs'
  have hle := List.le_sum_of_mem hmem
  have hmax := maxState_add_one A
  rw [Nat.pow_succ'] at hmax
  rw [(Tables.built_of_buildTables h).stateCount_eq s hs]
  refine count_eq_of_iff_lt (by omega) fun x => (assignable_iff hs' (hcounts _ hmem) x).trans ?_
  omega

theorem Tables.lt_length_of_entry {t : Tables} {y s x : Nat} (h : t.entry y = some (s, x)) : y < t.owner.length := by
  by_contra hy
  rw [Tables.entry, List.getD_eq_default _ _ (Nat.not_lt.1 hy)] at h
  cases h

/-- Every owned slot is at least 2, since every target is (R232 (b)). -/
theorem Tables.Built.entry_eq_none {f : List Nat} {A y : Nat} {done : Nat → Nat} {t : Tables} (h : t.Built f A done)
    (hy : y < 2) : t.entry y = none := by
  refine Option.eq_none_iff_forall_ne_some.2 fun ⟨s, x⟩ he => ?_
  obtain ⟨-, hstate⟩ := (h.agree ..).1 he
  exact absurd ((two_le_slotTarget f A x s).trans (h.target_le _ _ _ hstate)) (Nat.not_le.2 hy)

/-- Settles O51: the candidates counted for each symbol, and the targets that the states keep above. -/
theorem buildGivesEachSymbolItsStates : Obligations.BuildGivesEachSymbolItsStates := by
  intro f A t hf h
  have hbuilt := Tables.built_of_buildTables h
  refine ⟨hbuilt.entry_eq_none (by decide), hbuilt.entry_eq_none (by decide), fun s hs => ?_⟩
  have hcount := Tables.stateCount_of_buildTables hf h hs
  refine ⟨hcount, fun x hx hx' => ?_⟩
  obtain ⟨-, -, hlen, -, -⟩ := validTable_iff.1 hf
  have hstate : t.HasState s x (t.state s x) := Tables.hasState_iff.2 ⟨hx, hx'.trans hcount.ge, rfl⟩
  have htarget := hbuilt.target_le _ _ _ hstate
  have hdiv := (div_le_slotTarget (hlen.symm ▸ hs) A x).trans htarget
  have hlt := Tables.lt_length_of_entry ((hbuilt.agree ..).2 ⟨hs, hstate⟩)
  rw [hbuilt.owner_length, maxState_add_one] at hlt
  refine ⟨hdiv, (two_le_slotTarget ..).trans htarget, Nat.le_sub_one_of_lt hlt, fun hrange => le_trans ?_ hdiv⟩
  rw [Nat.le_div_iff_mul_le (by omega), Nat.mul_comm]
  exact Nat.mul_le_mul_right _ hrange

/-! ### One symbol (R232 (e), R267) -/

/-- The 63 states of a single symbol would be different slots among the 62 from 2 to 63 (R232 (e)). -/
theorem buildTables_oneSymbol : buildTables [32] 1 = none := by
  refine Option.eq_none_iff_forall_ne_some.2 fun t h => ?_
  obtain ⟨-, -, hstates⟩ := buildGivesEachSymbolItsStates [32] 1 t rfl h
  obtain ⟨hcount, hslots⟩ := hstates 0 Nat.one_pos
  have hmaps : Set.MapsTo (t.state 0) (Finset.Icc 1 63) (Finset.Icc 2 63) := fun x hx => by
    obtain ⟨hx, hx'⟩ := Finset.mem_coe.1 hx |> Finset.mem_Icc.1
    obtain ⟨-, hlow, hhigh, -⟩ := hslots x hx hx'
    exact Finset.mem_coe.2 (Finset.mem_Icc.2 ⟨hlow, hhigh⟩)
  obtain ⟨x, hx, z, hz, hne, heq⟩ := Finset.exists_ne_map_eq_of_card_lt_of_maps_to (by decide) hmaps
  have owned {x : Nat} (hx : x ∈ Finset.Icc 1 63) : t.entry (t.state 0 x) = some (0, x) := by
    obtain ⟨hx, hx'⟩ := Finset.mem_Icc.1 hx
    exact (encodingAndDecodingTablesAgree _ _ t h ..).2 ⟨Nat.one_pos, hx, hx'.trans hcount.ge, rfl⟩
  have hsame := (owned hx).symm.trans (heq ▸ owned hz)
  exact hne (by simpa using hsame)

/-- Settles O53: an all-zero sequence normalises to the one table that is valid for one symbol, and that never builds. -/
theorem oneSymbolAlphabetNeverCodes : Obligations.OneSymbolAlphabetNeverCodes := by
  refine ⟨buildTables_oneSymbol, fun n => ?_⟩
  have hne : List.replicate (n + 1) 0 ≠ [] := nofun
  have hnorm := normalize_one hne fun v hv => by simp [List.eq_of_mem_replicate hv]
  simp only [compress, if_neg hne, hnorm, buildTables_oneSymbol]

end Sys2Proof.Machine
end

section
/-! PROOFS. The two table commands and what FSE_NORM and FSE_ENC do with no data (44_fse_tables.md R225, R226, R241,
45_fse_codec.md R270): the checks in their order, and what a completed command leaves. -/

namespace Sys2Proof.Machine

/-! ### Checks, by the operands -/

theorem firstFailing_cons_of_bad {bad : Bool} (h : bad = true) (e : ErrCode) (l : List (Bool × ErrCode)) :
    firstFailing ((bad, e) :: l) = some e := by rw [firstFailing, h, if_pos rfl]

theorem firstFailing_cons_of_good {bad : Bool} (h : bad = false) (e : ErrCode) (l : List (Bool × ErrCode)) :
    firstFailing ((bad, e) :: l) = firstFailing l := by rw [firstFailing, h, if_neg Bool.false_ne_true]

theorem State.not_valid_eq_true {s : State} {sp : Span} : (!s.valid sp) = true ↔ ¬s.inDmem sp.addr sp.len := by
  rw [Bool.not_eq_true', ← Bool.not_eq_true, State.valid_iff]

theorem State.not_valid_eq_false {s : State} {sp : Span} : (!s.valid sp) = false ↔ s.inDmem sp.addr sp.len := by
  rw [Bool.not_eq_false', State.valid_iff]

theorem Span.overlaps_eq_true {p q : Span} : p.overlaps q = true ↔ ¬apart p.addr p.len q.addr q.len := by
  rw [← Span.overlaps_eq_false, Bool.not_eq_false]

theorem State.badAlpha_eq_true {s : State} : s.badAlpha = true ↔ s.args.alpha.toNat = 0 ∨ 256 < s.args.alpha.toNat := by
  simp [State.badAlpha]

theorem State.badAlpha_eq_false {s : State} :
    s.badAlpha = false ↔ 1 ≤ s.args.alpha.toNat ∧ s.args.alpha.toNat ≤ 256 := by
  rw [← Bool.not_eq_true, State.badAlpha_eq_true]
  omega

/-! ### How a command ends, by its end -/

theorem State.earlyFault_of_exec {s : State} {i : Instr} {e : ErrCode} (h : exec i s = s.raiseFault e) :
    s.earlyFault i e.code := by
  rw [State.earlyFault, h]
  exact s.raiseFault_spec e

theorem State.lateFault_of_exec {s : State} {i : Instr} {e : ErrCode} {sp : Span}
    (h : exec i s = s.raiseLateFault e [sp]) :
    ∃ t, exec i s = .next t ∧ s.stoppedAs t true false e.code ∧ s.sameOutside t sp.addr sp.len := by
  obtain ⟨t, ht, hstop, hframe, -⟩ := s.raiseLateFault_spec e [sp]
  exact ⟨t, h.trans ht, hstop, fun a ha => hframe a (List.forall_mem_singleton.2 ha)⟩

theorem State.fail_of_exec {s : State} {i : Instr} {e : ErrCode} {written : List Span}
    (h : exec i s = s.raiseFail e written) :
    ∃ t, exec i s = .next t ∧ s.stoppedAs t false true e.code ∧
      ∀ a, (∀ sp ∈ written, ¬(sp.addr ≤ a ∧ a < sp.addr + sp.len)) → t.byteAt a = s.byteAt a := by
  obtain ⟨t, ht, hstop, hframe, -⟩ := s.raiseFail_spec e written
  exact ⟨t, h.trans ht, hstop, hframe⟩

/-- All that a command that writes `out` at `a` and its result registers does on success (R133, R134). -/
theorem State.memWrite_complete_spec (s : State) (a : Nat) (out : List Byte) (r : ResRegs) :
    s.succeeded ((s.memWrite a out).setRes r).complete ∧
      ((s.memWrite a out).setRes r).complete.memRead a out.length = out ∧
      s.sameOutside ((s.memWrite a out).setRes r).complete a out.length ∧
      ((s.memWrite a out).setRes r).complete.regs = s.regs ∧ ((s.memWrite a out).setRes r).complete.res = r := by
  refine ⟨?_, State.memRead_memWrite s a out, State.sameOutside_memWrite s a out, ?_, rfl⟩
  · rw [State.memWrite_eq]
    exact State.succeeded_complete _
  · rw [State.memWrite_eq]
    rfl

/-- The result registers with the precision of an alphabet in PREC and a length in RLEN. -/
def State.tableRes (s : State) (A len : Nat) : ResRegs :=
  { s.res with prec := Word.ofInt (precision A), rlen := Word.ofInt len }

/-! ### FSE_NORM (R226) -/

/-- The checks of FSE_NORM on its arguments and its source. -/
def State.normChecks (s : State) (autoa : Bool) : List (Bool × ErrCode) :=
  [(decide (s.maxRecoded < s.srcSpan.len) || (!autoa && s.badAlpha), .arg), (!s.valid s.srcSpan, .range)]

/-- The checks of FSE_NORM on its table. -/
def State.normTableChecks (s : State) (A : Nat) : List (Bool × ErrCode) :=
  [(!s.valid (s.tblSpan A), .range), ((s.tblSpan A).overlaps s.srcSpan, .overlap)]

/-- What FSE_NORM leaves on success. -/
def State.normResult (s : State) (autoa : Bool) : State :=
  ((s.memWrite s.args.tbl.toNat (bytes16s (normalize (symbols s.block) (s.alphabet autoa)))).setRes
      (s.tableRes (s.alphabet autoa) (2 * s.alphabet autoa))).complete.setRegs
    { s.regs with alpha := if autoa then Word.ofInt (s.alphabet autoa) else s.regs.alpha }

section
variable {s : State} {autoa : Bool}

theorem execFseNorm_of_failing {e : ErrCode} (h : firstFailing (s.normChecks autoa) = some e) :
    execFseNorm autoa s = s.raiseFault e := by
  rw [State.normChecks] at h
  simp only [execFseNorm, h]

theorem State.normChecks_arg (h : s.maxRecoded < s.args.slen.toNat ∨
      (autoa = false ∧ (s.args.alpha.toNat = 0 ∨ 256 < s.args.alpha.toNat))) :
    firstFailing (s.normChecks autoa) = some .arg := by
  refine firstFailing_cons_of_bad ?_ _ _
  rwa [Bool.or_eq_true, decide_eq_true_iff, Bool.and_eq_true, Bool.not_eq_true', State.badAlpha_eq_true]

/-- Past its arguments FSE_NORM checks its source. -/
theorem State.normChecks_eq (hlen : s.args.slen.toNat ≤ s.maxRecoded)
    (halpha : autoa = false → 1 ≤ s.args.alpha.toNat ∧ s.args.alpha.toNat ≤ 256) :
    firstFailing (s.normChecks autoa) = firstFailing [(!s.valid s.srcSpan, .range)] := by
  refine firstFailing_cons_of_good ?_ _ _
  rw [Bool.or_eq_false_iff, decide_eq_false_iff_not, Nat.not_lt, Bool.and_eq_false_iff, Bool.not_eq_false',
    State.badAlpha_eq_false]
  refine ⟨hlen, ?_⟩
  cases autoa with
  | true => exact .inl rfl
  | false => exact .inr (halpha rfl)

theorem execFseNorm_of_noData (h : firstFailing (s.normChecks true) = none) (hempty : s.args.slen.toNat = 0) :
    execFseNorm true s = s.raiseFail .fseEmpty [] := by
  rw [State.normChecks] at h
  have hempty' : (true && s.srcSpan.len == 0) = true := by simp [State.srcSpan, hempty]
  simp only [execFseNorm, h, hempty', if_true]

variable (h : firstFailing (s.normChecks autoa) = none) (hdata : autoa = true → s.args.slen.toNat ≠ 0)
include h hdata

/-- Once the alphabet is known FSE_NORM checks its table. -/
theorem execFseNorm_of_table_failing {e : ErrCode} (ht : firstFailing (s.normTableChecks (s.alphabet autoa)) = some e) :
    execFseNorm autoa s = s.raiseFault e := by
  rw [State.normChecks] at h
  rw [State.normTableChecks] at ht
  have hdata' : (autoa && s.srcSpan.len == 0) = false := by simpa [State.srcSpan] using hdata
  simp only [execFseNorm, h, hdata', Bool.false_eq_true, if_false, ht]

/-- Past its checks FSE_NORM fails on no data, turns away a symbol outside the alphabet, and else writes its table. -/
theorem execFseNorm_of_table (ht : firstFailing (s.normTableChecks (s.alphabet autoa)) = none) :
    execFseNorm autoa s =
      if s.args.slen.toNat = 0 then s.raiseFail .fseEmpty [s.tblSpan (s.alphabet autoa)]
      else if (symbols s.block).any (fun v => decide (s.alphabet autoa ≤ v)) then
        s.raiseLateFault .symbol [s.tblSpan (s.alphabet autoa)]
      else .next (s.normResult autoa) := by
  rw [State.normChecks] at h
  rw [State.normTableChecks] at ht
  have hdata' : (autoa && s.srcSpan.len == 0) = false := by simpa [State.srcSpan] using hdata
  simp only [execFseNorm, h, hdata', Bool.false_eq_true, if_false, ht]
  rfl

end

theorem State.normTableChecks_range {s : State} {A : Nat} (h : ¬s.inDmem s.args.tbl.toNat (2 * A)) :
    firstFailing (s.normTableChecks A) = some .range := firstFailing_cons_of_bad (State.not_valid_eq_true.2 h) _ _

theorem State.normTableChecks_overlap {s : State} {A : Nat} (h : s.inDmem s.args.tbl.toNat (2 * A))
    (hover : ¬apart s.args.tbl.toNat (2 * A) s.args.src.toNat s.args.slen.toNat) :
    firstFailing (s.normTableChecks A) = some .overlap :=
  (firstFailing_cons_of_good (State.not_valid_eq_false.2 h) _ _).trans
    (firstFailing_cons_of_bad (Span.overlaps_eq_true.2 hover) _ _)

theorem State.normTableChecks_pass {s : State} {A : Nat} (h : s.inDmem s.args.tbl.toNat (2 * A))
    (hapart : apart s.args.tbl.toNat (2 * A) s.args.src.toNat s.args.slen.toNat) :
    firstFailing (s.normTableChecks A) = none :=
  (firstFailing_cons_of_good (State.not_valid_eq_false.2 h) _ _).trans
    (firstFailing_cons_of_good ((Span.overlaps_eq_false ..).2 hapart) _ _)

theorem any_symbols_ge_eq_true {b : List Byte} {A : Nat} :
    (symbols b).any (fun v => decide (A ≤ v)) = true ↔ ∃ v ∈ b, A ≤ v.toNat := by simp [symbols]

/-- What FSE_NORM leaves on success (R226). -/
theorem State.normResult_spec (s : State) (autoa : Bool) :
    s.succeeded (s.normResult autoa) ∧
      (s.normResult autoa).memRead s.args.tbl.toNat (2 * s.alphabet autoa) =
        bytes16s (normalize (symbols s.block) (s.alphabet autoa)) ∧
      s.sameOutside (s.normResult autoa) s.args.tbl.toNat (2 * s.alphabet autoa) ∧
      (s.normResult autoa).regs = (if autoa then { s.regs with alpha := Word.ofInt (s.alphabet autoa) } else s.regs) ∧
      (s.normResult autoa).res = s.tableRes (s.alphabet autoa) (2 * s.alphabet autoa) := by
  have hlen := (bytes16s_length _).trans (congrArg (2 * ·) (normalize_length (symbols s.block) (s.alphabet autoa)))
  obtain ⟨hdone, hread, hout, -, hres⟩ := s.memWrite_complete_spec s.args.tbl.toNat
    (bytes16s (normalize (symbols s.block) (s.alphabet autoa))) (s.tableRes (s.alphabet autoa) (2 * s.alphabet autoa))
  rw [hlen] at hread hout
  exact ⟨State.succeeded_setRegs hdone _, hread, State.sameOutside_setRegs hout _, by cases autoa <;> rfl, hres⟩

/-- Settles O32: the checks of the arguments and the source, those of the table once the alphabet is known, and the
symbols. -/
theorem fseNormWritesTable : Obligations.FseNormWritesTable := by
  intro autoa s
  have early (e : ErrCode) (h : execFseNorm autoa s = s.raiseFault e) : s.earlyFault (.fseNorm autoa) e.code :=
    State.earlyFault_of_exec h
  refine ⟨fun harg => early .arg (execFseNorm_of_failing (State.normChecks_arg harg)), fun hlen halpha => ?_⟩
  have hchecks := State.normChecks_eq hlen halpha
  refine ⟨fun hsrc => early .range (execFseNorm_of_failing (hchecks.trans
    (firstFailing_cons_of_bad (State.not_valid_eq_true.2 hsrc) _ _))), fun hsrc hdata A hA => ?_⟩
  obtain rfl : A = s.alphabet autoa := hA
  have hpass := hchecks.trans (firstFailing_cons_of_good (State.not_valid_eq_false.2 hsrc) _ _)
  have htable {e : ErrCode} := execFseNorm_of_table_failing (e := e) hpass fun _ => hdata
  refine ⟨fun htbl => early .range (htable (State.normTableChecks_range htbl)), fun htbl =>
    ⟨fun hover => early .overlap (htable (State.normTableChecks_overlap htbl hover)), fun hapart => ?_⟩⟩
  have hexec := execFseNorm_of_table hpass (fun _ => hdata) (State.normTableChecks_pass htbl hapart)
  rw [if_neg hdata] at hexec
  refine ⟨fun hsym => State.lateFault_of_exec (i := .fseNorm autoa) (e := .symbol)
    (hexec.trans (if_pos (any_symbols_ge_eq_true.2 hsym))), fun hsym => ?_⟩
  have hnone : ¬∃ v ∈ s.block, s.alphabet autoa ≤ v.toNat := fun ⟨v, hv, hle⟩ => absurd (hsym v hv) (Nat.not_lt.2 hle)
  exact ⟨_, hexec.trans (if_neg (mt any_symbols_ge_eq_true.1 hnone)), s.normResult_spec autoa⟩

/-! ### No data (R225, R226, R270) -/

/-- The checks of FSE_ENC on its arguments and ranges; without AUTOA the table's range is among them (log entry 23). -/
def State.encChecks (s : State) (autoa : Bool) : List (Bool × ErrCode) :=
  [(decide (s.maxRecoded < s.srcSpan.len) || (!autoa && s.badAlpha), .arg),
    (!s.valid s.srcSpan || !s.valid s.dstSpan || (!autoa && !s.valid (s.tblSpan (s.alphabet autoa))), .range),
    (s.dstSpan.overlaps s.srcSpan, .overlap)]

/-- The checks of FSE_ENC on its table. -/
def State.encTableChecks (s : State) (A : Nat) : List (Bool × ErrCode) :=
  [(!s.valid (s.tblSpan A), .range),
    ((s.tblSpan A).overlaps s.srcSpan || (s.tblSpan A).overlaps s.dstSpan, .overlap)]

theorem execFseEnc_of_failing {s : State} {autoa : Bool} {e : ErrCode} (h : firstFailing (s.encChecks autoa) = some e) :
    execFseEnc autoa s = s.raiseFault e := by
  rw [State.encChecks] at h
  simp only [execFseEnc, h]

/-- Once the alphabet is known FSE_ENC checks its table. -/
theorem execFseEnc_of_table_failing {s : State} {autoa : Bool} {e : ErrCode}
    (h : firstFailing (s.encChecks autoa) = none) (hdata : autoa = true → s.args.slen.toNat ≠ 0)
    (ht : firstFailing (s.encTableChecks (s.alphabet autoa)) = some e) : execFseEnc autoa s = s.raiseFault e := by
  rw [State.encChecks] at h
  rw [State.encTableChecks] at ht
  have hdata' : (autoa && s.srcSpan.len == 0) = false := by simpa [State.srcSpan] using hdata
  simp only [execFseEnc, h, hdata', Bool.false_eq_true, if_false, ht]

section
variable {s : State} (hempty : s.args.slen.toNat = 0)
include hempty

theorem State.valid_srcSpan_of_noData : s.valid s.srcSpan = true := (s.valid_iff s.srcSpan).2 (.inl hempty)

theorem State.overlaps_srcSpan_of_noData (p : Span) : p.overlaps s.srcSpan = false :=
  (Span.overlaps_eq_false ..).2 (.inr (.inl hempty))

/-- With no data FSE_NORM passes the checks on its source. -/
theorem State.normChecks_pass_of_noData {autoa : Bool}
    (halpha : autoa = false → 1 ≤ s.args.alpha.toNat ∧ s.args.alpha.toNat ≤ 256) :
    firstFailing (s.normChecks autoa) = none :=
  (State.normChecks_eq (hempty.trans_le (Nat.zero_le _)) halpha).trans
    (firstFailing_cons_of_good (State.not_valid_eq_false.2 (.inl hempty)) _ _)

/-- With no data FSE_ENC checks, of its ranges, the destination and, without AUTOA, the table. -/
theorem State.encChecks_of_noData {autoa : Bool}
    (halpha : autoa = false → 1 ≤ s.args.alpha.toNat ∧ s.args.alpha.toNat ≤ 256)
    (hdst : s.inDmem s.args.dst.toNat s.args.dcap.toNat) :
    firstFailing (s.encChecks autoa) =
      if (!autoa && !s.valid (s.tblSpan (s.alphabet autoa))) = true then some .range else none := by
  have hbad : (decide (s.maxRecoded < s.srcSpan.len) || (!autoa && s.badAlpha)) = false := by
    have hlen : decide (s.maxRecoded < s.srcSpan.len) = false :=
      decide_eq_false (Nat.not_lt.2 (hempty.trans_le (Nat.zero_le _)))
    cases autoa with
    | true => rw [hlen]; rfl
    | false => rw [hlen, State.badAlpha_eq_false.2 (halpha rfl)]; rfl
  have hdst' : s.valid s.dstSpan = true := (s.valid_iff _).2 hdst
  rw [State.encChecks, firstFailing_cons_of_good hbad, State.valid_srcSpan_of_noData hempty, hdst', firstFailing,
    firstFailing_cons_of_good (State.overlaps_srcSpan_of_noData hempty _)]
  rfl

theorem execFseEnc_autoa_of_noData (h : firstFailing (s.encChecks true) = none) :
    execFseEnc true s = s.raiseFail .fseEmpty [s.dstSpan] := by
  rw [State.encChecks] at h
  have hempty' : (true && s.srcSpan.len == 0) = true := by simp [State.srcSpan, hempty]
  simp only [execFseEnc, h, hempty', if_true]

/-- With no data and no AUTOA, FSE_ENC fails once its table is checked. -/
theorem execFseEnc_of_noData (h : firstFailing (s.encChecks false) = none)
    (ht : firstFailing (s.encTableChecks s.args.alpha.toNat) = none) :
    execFseEnc false s = s.raiseFail .fseEmpty [s.tblSpan s.args.alpha.toNat, s.dstSpan] := by
  have halpha : s.alphabet false = s.args.alpha.toNat := rfl
  have hlen : s.srcSpan.len = 0 := hempty
  rw [State.encChecks] at h
  rw [State.encTableChecks] at ht
  simp only [execFseEnc, h]
  simp only [Bool.false_and, Bool.false_eq_true, if_false, halpha, ht, hlen, if_true]

/-- With no data the table may only overlap the destination. -/
theorem State.encTableChecks_of_noData {A : Nat} (htbl : s.inDmem s.args.tbl.toNat (2 * A)) :
    firstFailing (s.encTableChecks A) =
      if (s.tblSpan A).overlaps s.dstSpan = true then some .overlap else none := by
  rw [State.encTableChecks, firstFailing_cons_of_good (State.not_valid_eq_false.2 htbl),
    State.overlaps_srcSpan_of_noData hempty, Bool.false_or]
  rfl

end

/-- Settles O33: with no data the source passes every check, so only the destination and the table are checked. -/
theorem emptyDataFails : Obligations.EmptyDataFails := by
  intro s hempty
  refine ⟨?_, fun hdst => ?_, fun hpos hmax => ?_⟩
  · obtain ⟨t, ht, hstop, -⟩ := State.fail_of_exec (i := .fseNorm true)
      (execFseNorm_of_noData (State.normChecks_pass_of_noData hempty nofun) hempty)
    exact ⟨t, ht, hstop⟩
  · obtain ⟨t, ht, hstop, hframe⟩ := State.fail_of_exec (i := .fseEnc true)
      (execFseEnc_autoa_of_noData hempty (State.encChecks_of_noData hempty nofun hdst))
    exact ⟨t, ht, hstop, fun a ha => hframe a (List.forall_mem_singleton.2 ha)⟩
  · have halpha (_ : false = false) := And.intro hpos hmax
    have hnorm : firstFailing (s.normChecks false) = none := State.normChecks_pass_of_noData hempty halpha
    have henc (hdst : s.inDmem s.args.dst.toNat s.args.dcap.toNat) :
        firstFailing (s.encChecks false) =
          if (!s.valid (s.tblSpan s.args.alpha.toNat)) = true then some .range else none :=
      State.encChecks_of_noData hempty halpha hdst
    refine ⟨fun htbl => ⟨?_, fun hdst => ?_⟩, fun htbl => ?_⟩
    · exact State.earlyFault_of_exec (i := .fseNorm false) (e := .range)
        (execFseNorm_of_table_failing hnorm nofun (State.normTableChecks_range htbl))
    · exact State.earlyFault_of_exec (i := .fseEnc false) (e := .range)
        (execFseEnc_of_failing ((henc hdst).trans (if_pos (State.not_valid_eq_true.2 htbl))))
    have hvalid : ¬(!s.valid (s.tblSpan s.args.alpha.toNat)) = true :=
      Bool.eq_false_iff.1 (State.not_valid_eq_false.2 htbl)
    have hover := State.encTableChecks_of_noData hempty htbl
    refine ⟨?_, fun hdst hnapart => ?_, fun hdst hapart => ?_⟩
    · have hexec := execFseNorm_of_table hnorm nofun (State.normTableChecks_pass htbl (.inr (.inl hempty)))
      obtain ⟨t, ht, hstop, hframe⟩ := State.fail_of_exec (i := .fseNorm false) (hexec.trans (if_pos hempty))
      exact ⟨t, ht, hstop, fun a ha => hframe a (List.forall_mem_singleton.2 ha)⟩
    · exact State.earlyFault_of_exec (i := .fseEnc false) (e := .overlap)
        (execFseEnc_of_table_failing ((henc hdst).trans (if_neg hvalid)) nofun
          (hover.trans (if_pos (Span.overlaps_eq_true.2 hnapart))))
    · have hexec := execFseEnc_of_noData hempty ((henc hdst).trans (if_neg hvalid))
        (hover.trans (if_neg (Bool.eq_false_iff.1 ((Span.overlaps_eq_false ..).2 hapart))))
      obtain ⟨t, ht, hstop, hframe⟩ := State.fail_of_exec (i := .fseEnc false) hexec
      refine ⟨t, ht, hstop, fun a hadst hatbl => hframe a ?_⟩
      exact List.forall_mem_cons.2 ⟨hatbl, List.forall_mem_singleton.2 hadst⟩

/-! ### FSE_BUILD (R240, R241) -/

/-- The checks of FSE_BUILD before it reads its table. -/
def State.buildChecks (s : State) : List (Bool × ErrCode) :=
  [(s.badAlpha, .arg), (!s.valid (s.tblSpan s.args.alpha.toNat) || !s.valid s.dstSpan, .range),
    ((s.tblSpan s.args.alpha.toNat).overlaps s.dstSpan, .overlap),
    s.capacityCheck (4 * (maxState s.args.alpha.toNat + 1))]

theorem execFseBuild_of_failing {s : State} {e : ErrCode} (h : firstFailing s.buildChecks = some e) :
    execFseBuild s = s.raiseFault e := by
  rw [State.buildChecks] at h
  simp only [execFseBuild, h]

/-- The table FSE_BUILD reads. -/
abbrev State.countTable (s : State) : List Nat := s.readTable s.args.tbl.toNat s.args.alpha.toNat

/-- What FSE_BUILD leaves on success. -/
def State.buildResult (s : State) (t : Tables) : State :=
  ((s.memWrite s.args.dst.toNat (dumpBytes t.owner)).setRes
    (s.tableRes s.args.alpha.toNat (4 * (maxState s.args.alpha.toNat + 1)))).complete

section
variable {s : State} (h : firstFailing s.buildChecks = none)
include h

theorem execFseBuild_of_invalid (hf : validTable s.countTable s.args.alpha.toNat = false) :
    execFseBuild s = s.raiseLateFault .freqInvalid [s.dstSpan] := by
  rw [State.buildChecks] at h
  simp only [execFseBuild, h]
  exact if_pos hf

theorem execFseBuild_of_full (hf : validTable s.countTable s.args.alpha.toNat = true)
    (hb : buildTables s.countTable s.args.alpha.toNat = none) :
    execFseBuild s = s.raiseLateFault .tableFull [s.dstSpan] := by
  rw [State.buildChecks] at h
  simp only [execFseBuild, h]
  rw [if_neg (by simp [State.tblSpan, hf])]
  simp only [State.tblSpan, hb]

theorem execFseBuild_of_built {t : Tables} (hf : validTable s.countTable s.args.alpha.toNat = true)
    (hb : buildTables s.countTable s.args.alpha.toNat = some t) : execFseBuild s = .next (s.buildResult t) := by
  rw [State.buildChecks] at h
  simp only [execFseBuild, h]
  rw [if_neg (by simp [State.tblSpan, hf])]
  simp only [State.tblSpan, hb]
  rfl

end

/-! ### The dump (R240) -/

theorem dumpBytes_cons (o : Option (Nat × Nat)) (owner : Owners) :
    dumpBytes (o :: owner) = dumpBytes [o] ++ dumpBytes owner :=
  List.flatMap_append (xs := [o]) (ys := owner)

/-- Entry `y` of a dump is the four bytes from `4 y` on. -/
theorem take_drop_dumpBytes {owner : Owners} {y : Nat} (hy : y < owner.length) :
    ((dumpBytes owner).drop (4 * y)).take 4 = dumpBytes [owner.getD y none] := by
  induction owner generalizing y with
  | nil => cases hy
  | cons o owner ih =>
    have hlen : (dumpBytes [o]).length = 4 := dumpBytes_length [o]
    rw [dumpBytes_cons]
    cases y with
    | zero => exact List.take_left' hlen
    | succ y =>
      rw [Nat.mul_succ, Nat.add_comm, ← List.drop_drop, List.drop_left' hlen, ih (Nat.lt_of_succ_lt_succ hy)]
      rfl

/-- A part of a range that was read. -/
theorem State.memRead_add (s : State) (a : Nat) {i n m : Nat} (h : i + n ≤ m) :
    s.memRead (a + i) n = ((s.memRead a m).drop i).take n := by
  refine List.ext_getElem (by simp; omega) fun j hj _ => ?_
  simp [State.memRead, Nat.add_assoc]

theorem dumpBytes_singleton (o : Option (Nat × Nat)) :
    dumpBytes [o] = match o with
      | some (q, x) => [BitVec.ofNat 8 q, BitVec.ofNat 8 (q / 256), BitVec.ofNat 8 x, BitVec.ofNat 8 (x / 256)]
      | none => [0xFF, 0xFF, 0x00, 0x00] := by cases o <;> rfl

/-- What FSE_BUILD leaves on success (R240, R241). -/
theorem State.buildResult_spec (s : State) {t : Tables} (ht : t.owner.length = maxState s.args.alpha.toNat + 1) :
    s.succeeded (s.buildResult t) ∧
      (∀ y < t.owner.length, (s.buildResult t).memRead (s.args.dst.toNat + 4 * y) 4 = dumpBytes [t.entry y]) ∧
      s.sameOutside (s.buildResult t) s.args.dst.toNat (4 * t.owner.length) ∧
      (s.buildResult t).regs = s.regs ∧
      (s.buildResult t).res = s.tableRes s.args.alpha.toNat (4 * t.owner.length) := by
  obtain ⟨hdone, hread, hout, hregs, hres⟩ := s.memWrite_complete_spec s.args.dst.toNat (dumpBytes t.owner)
    (s.tableRes s.args.alpha.toNat (4 * (maxState s.args.alpha.toNat + 1)))
  rw [dumpBytes_length] at hread hout
  refine ⟨hdone, fun y hy => ?_, hout, hregs, ?_⟩
  · have hpart : 4 * y + 4 ≤ 4 * t.owner.length := by omega
    rw [State.memRead_add _ _ hpart, State.buildResult, hread, take_drop_dumpBytes hy, Tables.entry]
  · rw [ht]
    exact hres

/-- Settles O34: each check once those before it pass, and what the validity of the table and its build decide. -/
theorem fseBuildDumpsDecodingTable : Obligations.FseBuildDumpsDecodingTable := by
  intro s A f hA hf
  obtain rfl : f = s.countTable := by rw [hf, hA]; rfl
  subst hA
  have early (e : ErrCode) (h : firstFailing s.buildChecks = some e) : s.earlyFault .fseBuild e.code :=
    State.earlyFault_of_exec (execFseBuild_of_failing h)
  rw [← maxState_add_one]
  refine ⟨fun halpha => early .arg (firstFailing_cons_of_bad (State.badAlpha_eq_true.2 halpha) _ _), fun hpos hmax => ?_⟩
  have hchecks := firstFailing_cons_of_good (State.badAlpha_eq_false.2 ⟨hpos, hmax⟩) .arg s.buildChecks.tail
  refine ⟨fun hrange => early .range (hchecks.trans (firstFailing_cons_of_bad ?_ _ _)), fun htbl hdst => ?_⟩
  · rw [← Bool.not_and, Bool.not_eq_true', ← Bool.not_eq_true, Bool.and_eq_true, State.valid_iff, State.valid_iff]
    exact hrange
  replace hchecks := hchecks.trans (firstFailing_cons_of_good (Bool.or_eq_false_iff.2
    ⟨State.not_valid_eq_false.2 htbl, State.not_valid_eq_false.2 hdst⟩) _ _)
  refine ⟨fun hover => early .overlap (hchecks.trans (firstFailing_cons_of_bad (Span.overlaps_eq_true.2 hover) _ _)),
    fun hapart => ?_⟩
  replace hchecks := hchecks.trans (firstFailing_cons_of_good ((Span.overlaps_eq_false ..).2 hapart) _ _)
  refine ⟨fun hcap => early .dstOverflow (hchecks.trans (firstFailing_cons_of_bad (decide_eq_true hcap) _ _)),
    fun hcap => ?_⟩
  have hpass := hchecks.trans (firstFailing_cons_of_good ((s.capacityCheck_eq_false _).2 hcap) _ _)
  refine ⟨fun hf => State.lateFault_of_exec (i := .fseBuild) (execFseBuild_of_invalid hpass hf),
    fun hf hb => State.lateFault_of_exec (i := .fseBuild) (execFseBuild_of_full hpass hf hb), fun t hf hb => ?_⟩
  have hlen := buildTables_owner_length hb
  obtain ⟨hdone, hread, hout, hregs, hres⟩ := s.buildResult_spec hlen
  rw [hlen] at hread hout hres
  refine ⟨_, execFseBuild_of_built hpass hf hb, hdone, fun y hy => ?_, hout, hregs, hres⟩
  exact (hread y hy).trans (dumpBytes_singleton _)

end Sys2Proof.Machine
end

section
/-! PROOFS. The bit packer of the entropy coder (45_fse_codec.md R264, R265, R268): it fills one byte after the other, so each
emitted bit is found where the packer put it. -/

namespace Sys2Proof.Machine

/-! ### One byte (R264) -/

/-- The packer's accumulator after bits are shifted in from the top, as far as one byte goes (R264). -/
def shiftBits (acc : Nat) (w : List Bool) : Nat := w.foldl (fun a b => a / 2 + 128 * b.toNat) acc

theorem shiftBits_cons (acc : Nat) (b : Bool) (w : List Bool) :
    shiftBits acc (b :: w) = shiftBits (acc / 2 + 128 * b.toNat) w := rfl

/-- Bit `j` of the accumulator after one more bit is shifted in. -/
theorem testBit_half_add {acc : Nat} (hacc : acc < 256) (b : Bool) {j : Nat} (hj : j < 8) :
    (acc / 2 + 128 * b.toNat).testBit j = if j < 7 then acc.testBit (j + 1) else b := by
  have hhalf : acc / 2 < 2 ^ 7 := by omega
  rw [Nat.add_comm, show 128 = 2 ^ 7 from rfl, Nat.testBit_two_pow_mul_add _ hhalf, Nat.testBit_succ]
  split
  · rfl
  next h =>
    obtain rfl : j = 7 := by omega
    cases b <;> rfl

/-- The bits shifted in stand at the top, the first of them lowest; below them is what was there before. -/
theorem testBit_shiftBits {acc : Nat} (hacc : acc < 256) (w : List Bool) {j : Nat} (hj : j < 8) :
    (shiftBits acc w).testBit j =
      if j + w.length < 8 then acc.testBit (j + w.length) else w.getD (j + w.length - 8) false := by
  induction w generalizing acc with
  | nil => exact (if_pos hj).symm
  | cons b w ih =>
    have hnext : acc / 2 + 128 * b.toNat < 256 := by have := b.toNat_le; omega
    rw [shiftBits_cons, ih hnext, List.length_cons]
    by_cases hlast : j + w.length < 8
    · rw [if_pos hlast, testBit_half_add hacc b hlast]
      by_cases hlow : j + w.length < 7
      · rw [if_pos hlow, if_pos (by omega)]; rfl
      · rw [if_neg hlow, if_neg (by omega), show j + (w.length + 1) - 8 = 0 by omega]; rfl
    · rw [if_neg hlast, if_neg (by omega), show j + (w.length + 1) - 8 = j + w.length - 8 + 1 by omega]; rfl

/-- The byte that packs at most eight bits. -/
def packedByte (w : List Bool) : Byte := BitVec.ofNat 8 (shiftBits 0 w)

theorem getLsbD_packedByte (w : List Bool) {j : Nat} (hj : j < 8) :
    (packedByte w).getLsbD j = if j + w.length < 8 then false else w.getD (j + w.length - 8) false := by
  rw [packedByte, BitVec.getLsbD_ofNat, decide_eq_true hj, Bool.true_and, testBit_shiftBits (by decide) w hj,
    Nat.zero_testBit]

/-! ### The packer, a byte at a time (R264, R265) -/

/-- Bits that do not fill a byte end in one that holds them at its top. -/
theorem packFrom_of_lt {acc cnt : Nat} {w : List Bool} (hpos : 0 < cnt + w.length) (hlt : cnt + w.length < 8) :
    packFrom acc cnt w = ([BitVec.ofNat 8 (shiftBits acc w)], 8 - (cnt + w.length)) := by
  induction w generalizing acc cnt with
  | nil => exact if_pos hpos
  | cons b w ih =>
    rw [List.length_cons] at hlt ⊢
    rw [packFrom, if_neg (by omega), ih (by omega) (by omega), shiftBits_cons, Nat.add_right_comm, Nat.add_assoc]

/-- Bits that fill a byte give it, and packing starts anew. -/
theorem packFrom_append_of_full {acc cnt : Nat} {w : List Bool} (hfull : cnt + w.length = 8) (hw : w ≠ [])
    (rest : List Bool) :
    packFrom acc cnt (w ++ rest) = (BitVec.ofNat 8 (shiftBits acc w) :: (pack rest).1, (pack rest).2) := by
  induction w generalizing acc cnt with
  | nil => exact absurd rfl hw
  | cons b w ih =>
    rw [List.length_cons] at hfull
    rw [List.cons_append, packFrom]
    cases w with
    | nil => exact if_pos hfull
    | cons b' w =>
      rw [List.length_cons] at hfull
      rw [if_neg (by omega), ih (by rw [List.length_cons]; omega) nofun, shiftBits_cons acc]

/-! ### Where the bits are (R265, R268) -/

/-- The bits `w` are packed in the bytes `c`: every bit is where R268 reads it, and `toff` bits of padding, all 0, lie at the
low end of the last byte (R265). -/
structure Packed (w : List Bool) (c : List Byte) (toff : Nat) : Prop where
  bits_length : toff + w.length = 8 * c.length
  toff_le : toff ≤ 7
  codedBit_eq : ∀ i < w.length, codedBit c toff i = w.getD i false
  padding : ∀ k < toff, (c.getD (c.length - 1) 0).getLsbD k = false

theorem packed_nil : Packed [] (pack []).1 (pack []).2 :=
  { bits_length := rfl, toff_le := Nat.zero_le _, codedBit_eq := nofun, padding := nofun }

theorem packed_of_lt {w : List Bool} (hpos : 0 < w.length) (hlt : w.length < 8) : Packed w (pack w).1 (pack w).2 := by
  rw [pack, packFrom_of_lt (by omega) (by omega), Nat.zero_add]
  exact {
    bits_length := by rw [List.length_singleton]; omega
    toff_le := by omega
    codedBit_eq := fun i hi => by
      have hbyte : i / 8 = 0 := by omega
      rw [codedBit, hbyte, if_pos (by rfl), List.getD_cons_zero]
      refine (getLsbD_packedByte w (by omega)).trans ?_
      rw [if_neg (by omega), show i % 8 + (8 - w.length) + w.length - 8 = i by omega]
    padding := fun k hk => (getLsbD_packedByte w (by omega)).trans (if_pos (by omega)) }

theorem codedBit_cons_add_eight (b : Byte) (c : List Byte) (toff i : Nat) :
    codedBit (b :: c) toff (i + 8) = codedBit c toff i := by
  rw [codedBit, codedBit, Nat.add_div_right i (by decide), Nat.add_mod_right, List.getD_cons_succ, List.length_cons]
  simp only [Nat.add_right_cancel_iff]

/-- A full byte in front. -/
theorem Packed.cons_byte {w rest : List Bool} {c : List Byte} {toff : Nat} (h : Packed rest c toff) (hw : w.length = 8) :
    Packed (w ++ rest) (packedByte w :: c) toff := by
  obtain ⟨hlen, hle, hbits, hpad⟩ := h
  have hempty (hc : c.length = 0) : toff = 0 := by omega
  refine {
    bits_length := by rw [List.length_append, List.length_cons]; omega
    toff_le := hle
    codedBit_eq := fun i hi => ?_
    padding := fun k hk => ?_ }
  · by_cases hfirst : i < 8
    · have hbyte : i / 8 = 0 := by omega
      have hoff : (if 0 + 1 = (packedByte w :: c).length then toff else 0) = 0 := by
        rw [List.length_cons]
        split
        · exact hempty (by omega)
        · rfl
      rw [codedBit, hbyte, hoff, List.getD_cons_zero, getLsbD_packedByte w (by omega), if_neg (by omega),
        List.getD_append _ _ _ _ (by omega), show i % 8 + 0 + w.length - 8 = i by omega]
    · obtain ⟨j, rfl⟩ := Nat.exists_eq_add_of_le' (Nat.not_lt.1 hfirst)
      rw [List.length_append] at hi
      rw [codedBit_cons_add_eight, hbits j (by omega), List.getD_append_right _ _ _ _ (by omega), hw,
        Nat.add_sub_cancel]
  · cases c with
    | nil => exact absurd hk (by rw [hempty rfl]; exact Nat.not_lt_zero k)
    | cons b c => exact hpad k hk

/-- What `pack` gives: the bits fill whole bytes and then part of one. -/
theorem packed_pack (w : List Bool) : Packed w (pack w).1 (pack w).2 := by
  induction hn : w.length using Nat.strong_induction_on generalizing w with
  | _ n ih =>
    subst hn
    rcases Nat.lt_or_ge w.length 8 with hlt | hge
    · rcases Nat.eq_zero_or_pos w.length with hzero | hpos
      · rw [List.length_eq_zero_iff.1 hzero]; exact packed_nil
      · exact packed_of_lt hpos hlt
    · have hfull : (w.take 8).length = 8 := List.length_take_of_le hge
      have hne : w.take 8 ≠ [] := List.length_pos_iff.1 (by omega)
      have hrest := (ih _ (by rw [List.length_drop]; omega) (w.drop 8) rfl).cons_byte hfull
      rw [List.take_append_drop] at hrest
      have hpack := packFrom_append_of_full (acc := 0) (cnt := 0) (by omega) hne (w.drop 8)
      rw [List.take_append_drop] at hpack
      rw [show pack w = _ from hpack]
      exact hrest

/-- Settles O55: the offset of R268 is the one that `codedBit` adds, since it is 0 where there is no padding. -/
theorem packedBitsAreWhereTheyBelong : Obligations.PackedBitsAreWhereTheyBelong := by
  intro w
  obtain ⟨hlen, hle, hbits, hpad⟩ := packed_pack w
  refine ⟨by omega, hlen, hle, fun i hi => ⟨?_, hbits i hi⟩, hpad⟩
  rw [← hbits i hi, codedBit]
  congr 2
  split <;> split <;> omega

end Sys2Proof.Machine
end

section
/-! PROOFS. The entropy decoder (45_fse_codec.md R272 to R276): its checks in their order, and the loop, which ends in the
one way that its rounds lead to. -/

namespace Sys2Proof.Machine

/-! ### Shifting bits in (R273, R274) -/

/-- The bit nearest to the cursor is shifted in first. -/
theorem shifted_succ_cursor (bit : Nat → Bool) (rank pos j : Nat) :
    shifted bit rank (pos + 1) (j + 1) = shifted bit (2 * rank + (bit pos).toNat) pos j := by
  induction j with
  | zero => rfl
  | succ j ih =>
    rw [shifted_succ, ih, shifted_succ, show pos + 1 - 1 - (j + 1) = pos - 1 - j by omega]

/-- As few bits as bring the rank to `l` are shifted in. -/
theorem shiftIn_eq_ok {bit : Nat → Bool} {l rank pos j : Nat} (hj : j ≤ pos) (hl : l ≤ shifted bit rank pos j)
    (hfew : ∀ k < j, shifted bit rank pos k < l) :
    shiftIn bit l pos rank = .ok (shifted bit rank pos j, pos - j) := by
  induction j generalizing rank pos with
  | zero => cases pos <;> exact if_neg (Nat.not_lt.2 hl)
  | succ j ih =>
    obtain ⟨pos, rfl⟩ := Nat.exists_eq_add_one_of_ne_zero (Nat.ne_zero_of_lt hj)
    have hrank : rank < l := hfew 0 j.succ_pos
    rw [shiftIn, if_pos hrank, shifted_succ_cursor, Nat.add_sub_add_right]
    refine ih (Nat.le_of_succ_le_succ hj) (hl.trans_eq (shifted_succ_cursor ..)) fun k hk => ?_
    rw [← shifted_succ_cursor]
    exact hfew (k + 1) (Nat.succ_lt_succ hk)

/-- Where all bits do not bring the rank to `l`, they run out. -/
theorem shiftIn_eq_error {bit : Nat → Bool} {l rank pos : Nat} (h : shifted bit rank pos pos < l) :
    shiftIn bit l pos rank = .error .bitsExhausted := by
  induction pos generalizing rank with
  | zero => exact if_pos h
  | succ pos ih =>
    have hrank : rank < l := (shifted_mono bit rank (pos + 1) (Nat.zero_le _)).trans_lt h
    rw [shiftIn, if_pos hrank]
    exact ih (shifted_succ_cursor .. ▸ h)

/-- The bits that are left either bring the rank to `l` or do not. -/
theorem shifted_cases (bit : Nat → Bool) (l rank pos : Nat) :
    shifted bit rank pos pos < l ∨
      ∃ j ≤ pos, l ≤ shifted bit rank pos j ∧ ∀ k < j, shifted bit rank pos k < l := by
  refine (Nat.lt_or_ge _ l).imp_right fun h => ?_
  have hex : ∃ j, l ≤ shifted bit rank pos j := ⟨pos, h⟩
  exact ⟨Nat.find hex, Nat.find_min' hex h, Nat.find_spec hex, fun k hk => Nat.not_le.1 (Nat.find_min hex hk)⟩

/-! ### The loop (R274, R276) -/

section
variable {t : Tables} {bit : Nat → Bool} {A : Nat}

/-- The loop goes through the rounds of a run. -/
theorem decodeSymbols_of_run {m n x pos x' pos' : Nat} {syms : List Nat}
    (h : decodeRun t bit (halfRange A) m x pos x' pos' syms) (out : List Nat) :
    decodeSymbols t bit A (m + n) x pos out = decodeSymbols t bit A n x' pos' (syms ++ out) := by
  induction m generalizing x pos syms out with
  | zero =>
    obtain ⟨rfl, rfl, rfl⟩ := h
    rw [Nat.zero_add, List.nil_append]
  | succ m ih =>
    obtain ⟨s, rank, j, rest, hentry, hj, hl, hfew, hrun, rfl⟩ := h
    rw [Nat.add_right_comm, List.append_assoc]
    simp only [decodeSymbols, hentry, shiftIn_eq_ok hj hl hfew]
    exact ih hrun (s :: out)

/-- `n` rounds from a state lead to the end of the loop with this answer, or to a round that raises it (R274 to R276). -/
def LoopEnds (t : Tables) (bit : Nat → Bool) (A n x pos : Nat) : Except ErrCode (List Nat) → Prop
  | .ok out => decodeRun t bit (halfRange A) n x pos (maxState A) 0 out
  | .error .trailing => ∃ x' pos' out, decodeRun t bit (halfRange A) n x pos x' pos' out ∧ ¬(x' = maxState A ∧ pos' = 0)
  | .error .bitsExhausted => ∃ m x' pos' out s rank, m < n ∧ decodeRun t bit (halfRange A) m x pos x' pos' out ∧
      t.entry x' = some (s, rank) ∧ shifted bit rank pos' pos' < halfRange A
  | .error .stateRange => ∃ m x' pos' out, m < n ∧ decodeRun t bit (halfRange A) m x pos x' pos' out ∧ t.entry x' = none
  | .error _ => False

/-- The loop answers the end that its rounds lead to. -/
theorem decodeSymbols_of_loopEnds {n x pos : Nat} {r : Except ErrCode (List Nat)} (h : LoopEnds t bit A n x pos r) :
    decodeSymbols t bit A n x pos [] = r := by
  unfold LoopEnds at h
  split at h
  case h_1 out =>
    rw [← Nat.add_zero n, decodeSymbols_of_run h, List.append_nil]
    exact if_pos ⟨rfl, rfl⟩
  case h_2 =>
    obtain ⟨x', pos', out, hrun, hend⟩ := h
    rw [← Nat.add_zero n, decodeSymbols_of_run hrun]
    exact if_neg hend
  case h_3 =>
    obtain ⟨m, x', pos', out, s, rank, hm, hrun, hentry, hshort⟩ := h
    obtain ⟨k, rfl⟩ := Nat.exists_eq_add_of_lt hm
    rw [Nat.add_assoc, decodeSymbols_of_run hrun]
    simp only [decodeSymbols, hentry, shiftIn_eq_error hshort]
  case h_4 =>
    obtain ⟨m, x', pos', out, hm, hrun, hentry⟩ := h
    obtain ⟨k, rfl⟩ := Nat.exists_eq_add_of_lt hm
    rw [Nat.add_assoc, decodeSymbols_of_run hrun]
    simp only [decodeSymbols, hentry]
  case h_5 => exact h.elim

/-- A run with one more round at its end. -/
theorem decodeRun_succ {l n x pos x' pos' s rank j : Nat} {out : List Nat} (h : decodeRun t bit l n x pos x' pos' out)
    (hentry : t.entry x' = some (s, rank)) (hj : j ≤ pos') (hl : l ≤ shifted bit rank pos' j)
    (hfew : ∀ k < j, shifted bit rank pos' k < l) :
    decodeRun t bit l (n + 1) x pos (shifted bit rank pos' j) (pos' - j) (s :: out) := by
  induction n generalizing x pos out with
  | zero =>
    obtain ⟨rfl, rfl, rfl⟩ := h
    exact ⟨s, rank, j, [], hentry, hj, hl, hfew, ⟨rfl, rfl, rfl⟩, rfl⟩
  | succ n ih =>
    obtain ⟨s₀, rank₀, j₀, rest, hentry₀, hj₀, hl₀, hfew₀, hrun, rfl⟩ := h
    exact ⟨s₀, rank₀, j₀, s :: rest, hentry₀, hj₀, hl₀, hfew₀, ih hrun, rfl⟩

/-- Each number of rounds can be made, or an earlier one meets a FREE slot or runs out of bits. -/
theorem exists_run_or_loopEnds (t : Tables) (bit : Nat → Bool) (A n x pos : Nat) :
    (∃ x' pos' out, decodeRun t bit (halfRange A) n x pos x' pos' out) ∨
      LoopEnds t bit A n x pos (.error .bitsExhausted) ∨ LoopEnds t bit A n x pos (.error .stateRange) := by
  induction n with
  | zero => exact .inl ⟨x, pos, [], rfl, rfl, rfl⟩
  | succ n ih =>
    rcases ih with ⟨x', pos', out, hrun⟩ | ⟨m, x', pos', out, s, rank, hm, hstop⟩ | ⟨m, x', pos', out, hm, hstop⟩
    · cases hentry : t.entry x' with
      | none => exact .inr (.inr ⟨n, x', pos', out, n.lt_succ_self, hrun, hentry⟩)
      | some e =>
        obtain ⟨s, rank⟩ := e
        rcases shifted_cases bit (halfRange A) rank pos' with hshort | ⟨j, hj, hl, hfew⟩
        · exact .inr (.inl ⟨n, x', pos', out, s, rank, n.lt_succ_self, hrun, hentry, hshort⟩)
        · exact .inl ⟨_, _, _, decodeRun_succ hrun hentry hj hl hfew⟩
    · exact .inr (.inl ⟨m, x', pos', out, s, rank, hm.trans n.lt_succ_self, hstop⟩)
    · exact .inr (.inr ⟨m, x', pos', out, hm.trans n.lt_succ_self, hstop⟩)

/-- The loop ends in one of the four ways. -/
theorem exists_loopEnds (t : Tables) (bit : Nat → Bool) (A n x pos : Nat) : ∃ r, LoopEnds t bit A n x pos r := by
  rcases exists_run_or_loopEnds t bit A n x pos with ⟨x', pos', out, hrun⟩ | hstop | hstop
  · by_cases hend : x' = maxState A ∧ pos' = 0
    · obtain ⟨rfl, rfl⟩ := hend
      exact ⟨.ok out, hrun⟩
    · exact ⟨.error .trailing, x', pos', out, hrun, hend⟩
  · exact ⟨_, hstop⟩
  · exact ⟨_, hstop⟩

/-- What the loop answers, by its rounds (R274 to R276). -/
theorem decodeSymbols_eq_iff {n x pos : Nat} {r : Except ErrCode (List Nat)} :
    decodeSymbols t bit A n x pos [] = r ↔ LoopEnds t bit A n x pos r := by
  refine ⟨fun h => ?_, decodeSymbols_of_loopEnds⟩
  obtain ⟨r', hr'⟩ := exists_loopEnds t bit A n x pos
  exact h ▸ decodeSymbols_of_loopEnds hr' ▸ hr'

end

/-! ### The checks (R272) -/

section
variable {coded : List Byte} {f : List Nat} {toff x0 A olen : Nat}

theorem badToff_eq_true {C : Nat} : badToff toff C = true ↔ 7 < toff ∨ (0 < toff ∧ C = 0) := by simp [badToff]

theorem decompress_toffInvalid (h : badToff toff coded.length = true) :
    decompress coded f toff x0 A olen = .error .toffInvalid := if_pos h

theorem decompress_freqInvalid (h : ¬badToff toff coded.length = true) (hf : ¬validTable f A = true) :
    decompress coded f toff x0 A olen = .error .freqInvalid :=
  (if_neg h).trans (if_pos (Bool.eq_false_iff.2 hf))

theorem decompress_tableFull (h : ¬badToff toff coded.length = true) (hf : validTable f A = true)
    (ht : buildTables f A = none) : decompress coded f toff x0 A olen = .error .tableFull := by
  simp only [decompress, if_neg h, hf, Bool.true_eq_false, if_false, ht]

section
variable {t : Tables} (h : ¬badToff toff coded.length = true) (hf : validTable f A = true)
  (ht : buildTables f A = some t)
include h hf ht

theorem decompress_stateRange (hx : x0 < halfRange A ∨ maxState A < x0 ∨ t.entry x0 = none) :
    decompress coded f toff x0 A olen = .error .stateRange := by
  simp only [decompress, if_neg h, hf, Bool.true_eq_false, if_false, ht, if_pos hx]

variable (hx : ¬(x0 < halfRange A ∨ maxState A < x0 ∨ t.entry x0 = none))
include hx

/-- Past its checks the decoder answers the symbols its loop decodes, as bytes. -/
theorem decompress_eq_ok_iff {out : List Byte} : decompress coded f toff x0 A olen = .ok out ↔ ∃ syms,
    decodeSymbols t (codedBit coded toff) A olen x0 (8 * coded.length - toff) [] = .ok syms ∧
      out = syms.map (BitVec.ofNat 8) := by
  simp only [decompress, if_neg h, hf, Bool.true_eq_false, if_false, ht, if_neg hx]
  split
  next herr => simp [herr]
  next syms hsyms => simp [hsyms, eq_comm]

theorem decompress_eq_error_iff {e : ErrCode} : decompress coded f toff x0 A olen = .error e ↔
    decodeSymbols t (codedBit coded toff) A olen x0 (8 * coded.length - toff) [] = .error e := by
  simp only [decompress, if_neg h, hf, Bool.true_eq_false, if_false, ht, if_neg hx]
  split
  next herr => simp [herr]
  next hsyms => simp [hsyms]

end

end

theorem maxState_eq (A : Nat) : maxState A = 2 * 2 ^ (bitLength A + 4) - 1 :=
  congrArg (· - 1) (Nat.pow_succ' (n := bitLength A + 4))

/-- Settles O57: past the checks each end is the one its run leads to. -/
theorem decompressChecksInOrder : Obligations.DecompressChecksInOrder := by
  intro coded f toff x0 A olen
  have hoffset : badToff toff coded.length = true ↔ _ := badToff_eq_true
  have htable : validTable f A = true ↔ _ := validTable_iff
  simp only [← hoffset, ← htable, ← maxState_eq]
  refine ⟨decompress_toffInvalid, decompress_freqInvalid, decompress_tableFull, fun h hf t ht =>
    ⟨fun hx => decompress_stateRange h hf ht ?_, fun hlow hhigh hentry => ?_⟩⟩
  · exact (not_and_or.1 hx).imp Nat.not_le.1 fun hx => (not_and_or.1 hx).imp Nat.not_le.1 not_not.1
  have hx : ¬(x0 < halfRange A ∨ maxState A < x0 ∨ t.entry x0 = none) := by
    rintro (hlt | hlt | hnone)
    · exact absurd hlow (Nat.not_le.2 hlt)
    · exact absurd hhigh (Nat.not_le.2 hlt)
    · exact hentry hnone
  have hends {r : Except ErrCode (List Nat)} :=
    decodeSymbols_eq_iff (t := t) (bit := codedBit coded toff) (A := A) (n := olen) (x := x0)
      (pos := 8 * coded.length - toff) (r := r)
  have herror {e : ErrCode} := (decompress_eq_error_iff h hf ht hx (olen := olen) (e := e)).trans hends
  refine ⟨fun out => (decompress_eq_ok_iff h hf ht hx).trans ?_, herror, herror, herror⟩
  exact exists_congr fun syms => and_congr_left' hends

end Sys2Proof.Machine
end

section
/-! PROOFS. The steps of the entropy coder (45_fse_codec.md R261, R262, R273, R277): an encoder step never underflows (R263),
and a decoder step undoes it, one after the other back to the state the encoder started from. -/

namespace Sys2Proof.Machine

/-! ### Renormalisation (R262) -/

theorem renormalize_succ_of_lt {k x : Nat} (h : k < x) (fuel : Nat) :
    renormalize k (fuel + 1) x =
      ((x % 2 == 1) :: (renormalize k fuel (x / 2)).1, (renormalize k fuel (x / 2)).2) := if_pos h

theorem renormalize_succ_of_le {k x : Nat} (h : x ≤ k) (fuel : Nat) : renormalize k (fuel + 1) x = ([], x) :=
  if_neg (Nat.not_lt.2 h)

/-- `x` is brought to at most `k`: its low bits are emitted, the lowest first, what is above them is left, and no more of them
than needed. -/
structure Renormalized (k x : Nat) (w : List Bool) (y : Nat) : Prop where
  state_eq : y = x / 2 ^ w.length
  state_le : y ≤ k
  bits_eq : ∀ i < w.length, w.getD i false = x.testBit i
  needed : w = [] ∨ k ≤ 2 * y

theorem renormalized_of_le {k x : Nat} (h : x ≤ k) : Renormalized k x [] x :=
  { state_eq := (Nat.div_one x).symm, state_le := h, bits_eq := nofun, needed := .inl rfl }

/-- One more bit emitted, before the others. -/
theorem Renormalized.cons {k x : Nat} {w : List Bool} {y : Nat} (h : Renormalized k (x / 2) w y) (hx : k < x) :
    Renormalized k x ((x % 2 == 1) :: w) y := by
  obtain ⟨hstate, hle, hbits, hneeded⟩ := h
  refine {
    state_eq := by rw [hstate, List.length_cons, Nat.pow_succ', Nat.div_div_eq_div_mul]
    state_le := hle
    bits_eq := fun i hi => ?_
    needed := .inr ?_ }
  · cases i with
    | zero => exact (Nat.testBit_zero x).symm
    | succ i => exact (hbits i (Nat.lt_of_succ_lt_succ hi)).trans (Nat.testBit_succ ..).symm
  · rcases hneeded with rfl | hneeded
    · have : y = x / 2 := hstate.trans (Nat.div_one _)
      omega
    · exact hneeded

theorem renormalized_renormalize {k fuel x : Nat} (hfuel : x ≤ fuel) :
    Renormalized k x (renormalize k fuel x).1 (renormalize k fuel x).2 := by
  induction fuel generalizing x with
  | zero => exact renormalized_of_le (hfuel.trans (Nat.zero_le k))
  | succ fuel ih =>
    rcases Nat.lt_or_ge k x with hx | hx
    · rw [renormalize_succ_of_lt hx]
      exact (ih (by omega)).cons hx
    · rw [renormalize_succ_of_le hx]
      exact renormalized_of_le hx

/-! ### One encoder step (R262, R263) -/

/-- A state the coder may stand in (R262). -/
abbrev CoderState (A x : Nat) : Prop := 2 ^ (bitLength A + 4) ≤ x ∧ x < 2 ^ (bitLength A + 5)

theorem coderState_maxState (A : Nat) : CoderState A (maxState A) := by
  have hpos := Nat.two_pow_pos (bitLength A + 4)
  have hlow : 2 ^ (bitLength A + 4) ≤ maxState A := by rw [maxState_eq]; omega
  exact ⟨hlow, (Nat.lt_succ_self _).trans_eq (maxState_add_one A)⟩

section
variable {f : List Nat} {A : Nat} {t : Tables} (hf : validTable f A = true) (ht : buildTables f A = some t)

include hf in
theorem validTable_count_bounds {s : Nat} (hs : s < A) : 1 ≤ f.getD s 0 ∧ f.getD s 0 ≤ 2 ^ (bitLength A + 4) := by
  obtain ⟨-, -, hlen, hcounts, hsum⟩ := validTable_iff.1 hf
  have hmem : f.getD s 0 ∈ f := List.getD_eq_getElem f 0 (hlen.symm ▸ hs) ▸ List.getElem_mem _
  exact ⟨hcounts _ hmem, (List.le_sum_of_mem hmem).trans_eq hsum⟩

include hf in
/-- The renormalised value is a rank of `f[s]` or more, and no more than the symbol has (R263). -/
theorem renormalize_bounds {x s : Nat} (hs : s < A) (hx : CoderState A x) :
    f.getD s 0 ≤ (renormalize (2 * f.getD s 0 - 1) x x).2 ∧
      (renormalize (2 * f.getD s 0 - 1) x x).2 ≤ 2 * f.getD s 0 - 1 := by
  obtain ⟨hstate, hle, -, hneeded⟩ := renormalized_renormalize (k := 2 * f.getD s 0 - 1) (Nat.le_refl x)
  refine ⟨?_, hle⟩
  obtain ⟨hpos, hcount⟩ := validTable_count_bounds hf hs
  rcases hneeded with hnone | hneeded
  · rw [hstate, hnone, List.length_nil, Nat.pow_zero, Nat.div_one]
    exact hcount.trans hx.1
  · omega

include hf ht in
/-- A symbol's ranks of `f[s]` and more lead to states the coder may stand in, whose entries are that symbol and rank (R232,
R234). -/
theorem Tables.coderState_of_rank {s rank : Nat} (hs : s < A) (hlow : f.getD s 0 ≤ rank) (hhigh : rank ≤ 2 * f.getD s 0 - 1) :
    CoderState A (t.state s rank) ∧ t.entry (t.state s rank) = some (s, rank) := by
  obtain ⟨-, -, hstates⟩ := buildGivesEachSymbolItsStates f A t hf ht
  obtain ⟨hcount, hranks⟩ := hstates s hs
  have hone : 1 ≤ rank := (validTable_count_bounds hf hs).1.trans hlow
  obtain ⟨-, -, hmax, hmin⟩ := hranks rank hone hhigh
  refine ⟨⟨hmin hlow, Nat.lt_of_le_sub_one (Nat.two_pow_pos _) hmax⟩, ?_⟩
  exact (encodingAndDecodingTablesAgree f A t ht ..).2 ⟨hs, hone, hhigh.trans hcount.ge, rfl⟩

include hf ht in
/-- A symbol of the alphabet is encoded from every state, without ENC_UNDERFLOW (R263). -/
theorem encodeSymbol_eq_ok {x s : Nat} (hs : s < A) (hx : CoderState A x) :
    encodeSymbol f A t x s = .ok ((renormalize (2 * f.getD s 0 - 1) x x).1,
      t.state s (renormalize (2 * f.getD s 0 - 1) x x).2) := by
  obtain ⟨hlow, hhigh⟩ := renormalize_bounds hf hs hx
  obtain ⟨hstate, -⟩ := Tables.coderState_of_rank hf ht hs hlow hhigh
  exact if_neg (Nat.not_lt.2 hstate.1)

include ht in
/-- Only symbols of the alphabet have states, so only they are encoded. -/
theorem lt_of_encodeSymbol {x s : Nat} {r : List Bool × Nat} (h : encodeSymbol f A t x s = .ok r) : s < A := by
  by_contra hs
  have hnone (rank : Nat) : t.state s rank = 0 := by
    have hlen := (Tables.built_of_buildTables ht).states_length
    rw [Tables.state, List.getD_eq_default _ _ (hlen.trans_le (Nat.not_lt.1 hs))]
    rfl
  simp only [encodeSymbol, hnone] at h
  rw [if_pos (show 0 < halfRange A from Nat.two_pow_pos _)] at h
  cases h

/-- All that an encoder step from `x` to `y` that emits `w` does: it reaches a state whose entry names the symbol and what the
emitted low bits of `x` leave of it (R262). -/
structure EncoderStep (A : Nat) (t : Tables) (x s : Nat) (w : List Bool) (y : Nat) : Prop where
  state : CoderState A y
  entry_eq : t.entry y = some (s, x / 2 ^ w.length)
  bits_eq : ∀ k < w.length, w.getD k false = x.testBit k

include hf ht in
theorem encoderStep_of_encodeSymbol {x s : Nat} {w : List Bool} {y : Nat} (hx : CoderState A x)
    (h : encodeSymbol f A t x s = .ok (w, y)) : EncoderStep A t x s w y := by
  have hs := lt_of_encodeSymbol ht h
  obtain ⟨hlow, hhigh⟩ := renormalize_bounds hf hs hx
  obtain ⟨hrank, -, hbits, -⟩ := renormalized_renormalize (k := 2 * f.getD s 0 - 1) (Nat.le_refl x)
  obtain ⟨hstate, hentry⟩ := Tables.coderState_of_rank hf ht hs hlow hhigh
  rw [encodeSymbol_eq_ok hf ht hs hx] at h
  obtain ⟨rfl, rfl⟩ := Prod.mk.inj (Except.ok.inj h)
  exact ⟨hstate, hrank ▸ hentry, hbits⟩

end

/-! ### A decoder step undoes an encoder step (R273, R277) -/

/-- The last bit below `n + 1` halvings of a number is its bit `n`. -/
theorem two_mul_div_two_pow_succ_add_testBit (x n : Nat) : 2 * (x / 2 ^ (n + 1)) + (x.testBit n).toNat = x / 2 ^ n := by
  rw [Nat.pow_succ, ← Nat.div_div_eq_div_mul, Nat.toNat_testBit, Nat.div_add_mod]

/-- Shifting the low bits of a state back in rebuilds it, no sooner than all of them are read (R277). -/
theorem shiftIn_low_bits {bit : Nat → Bool} {l x pos n : Nat} (hlow : l ≤ x) (hhigh : x < 2 * l)
    (hbit : ∀ k < n, bit (pos + k) = x.testBit k) : shiftIn bit l (pos + n) (x / 2 ^ n) = .ok (x, pos) := by
  induction n with
  | zero =>
    rw [Nat.pow_zero, Nat.div_one]
    cases pos <;> exact if_neg (Nat.not_lt.2 hlow)
  | succ n ih =>
    have hbelow : x / 2 ^ (n + 1) < l := by
      have : x / 2 ^ n / 2 < l := by have := Nat.div_le_self x (2 ^ n); omega
      rwa [Nat.pow_succ, ← Nat.div_div_eq_div_mul]
    rw [← Nat.add_assoc, shiftIn, if_pos hbelow, hbit n n.lt_succ_self, two_mul_div_two_pow_succ_add_testBit]
    exact ih fun k hk => hbit k (hk.trans n.lt_succ_self)

theorem EncoderStep.shiftIn_eq {A : Nat} {t : Tables} {x s : Nat} {w : List Bool} {y : Nat} (h : EncoderStep A t x s w y)
    (hx : CoderState A x) {bit : Nat → Bool} {pos : Nat} (hbit : ∀ k < w.length, bit (pos + k) = w.getD k false) :
    shiftIn bit (2 ^ (bitLength A + 4)) (pos + w.length) (x / 2 ^ w.length) = .ok (x, pos) := by
  refine shiftIn_low_bits hx.1 (hx.2.trans_eq ?_) fun k hk => (hbit k hk).trans (h.bits_eq k hk)
  exact Nat.pow_succ'

/-! ### A whole sequence (R261, R274, R277) -/

/-- A sequence is encoded one symbol after the other (R261). -/
theorem encodeSymbols_cons_eq_ok {f : List Nat} {A : Nat} {t : Tables} {x s : Nat} {d : List Nat} {w : List Bool} {y : Nat} :
    encodeSymbols f A t x (s :: d) = .ok (w, y) ↔ ∃ bits x' rest, encodeSymbol f A t x s = .ok (bits, x') ∧
      encodeSymbols f A t x' d = .ok (rest, y) ∧ w = bits ++ rest := by
  rw [encodeSymbols]
  constructor
  · intro h
    split at h
    · cases h
    next bits x' hstep =>
      split at h
      · cases h
      next rest y' hd =>
        obtain ⟨rfl, rfl⟩ := Prod.mk.inj (Except.ok.inj h)
        exact ⟨bits, x', rest, hstep, hd, rfl⟩
  · rintro ⟨bits, x', rest, hstep, hd, rfl⟩
    simp only [hstep, hd]

section
variable {f : List Nat} {A : Nat} {t : Tables} (hf : validTable f A = true) (ht : buildTables f A = some t)
include hf ht

/-- A sequence over the alphabet is encoded from every state (R263). -/
theorem exists_encodeSymbols_eq_ok {d : List Nat} (hd : ∀ v ∈ d, v < A) {x : Nat} (hx : CoderState A x) :
    ∃ w y, encodeSymbols f A t x d = .ok (w, y) := by
  induction d generalizing x with
  | nil => exact ⟨[], x, rfl⟩
  | cons s d ih =>
    have hstep := encodeSymbol_eq_ok hf ht (hd s List.mem_cons_self) hx
    have hencoder := encoderStep_of_encodeSymbol hf ht hx hstep
    obtain ⟨rest, y, hrest⟩ := ih (fun v hv => hd v (List.mem_cons_of_mem s hv)) hencoder.state
    exact ⟨_, y, encodeSymbols_cons_eq_ok.2 ⟨_, _, rest, hstep, hrest, rfl⟩⟩

theorem coderState_of_encodeSymbols {d : List Nat} {x : Nat} {w : List Bool} {y : Nat} (hx : CoderState A x)
    (h : encodeSymbols f A t x d = .ok (w, y)) : CoderState A y := by
  induction d generalizing x w with
  | nil => obtain ⟨-, rfl⟩ := Prod.mk.inj (Except.ok.inj h); exact hx
  | cons s d ih =>
    obtain ⟨bits, x', rest, hstep, hd, -⟩ := encodeSymbols_cons_eq_ok.1 h
    exact ih (encoderStep_of_encodeSymbol hf ht hx hstep).state hd

/-- The decoder's rounds over the emitted bits of a sequence give its symbols back, the last first, and the state the
encoder started from, with the bits before them left (R277). -/
theorem decodeSymbols_of_encodeSymbols {d : List Nat} {x : Nat} {w : List Bool} {y : Nat} (hx : CoderState A x)
    (h : encodeSymbols f A t x d = .ok (w, y)) {bit : Nat → Bool} {pos : Nat}
    (hbit : ∀ k < w.length, bit (pos + k) = w.getD k false) (n : Nat) (out : List Nat) :
    decodeSymbols t bit A (n + d.length) y (pos + w.length) out = decodeSymbols t bit A n x pos (d ++ out) := by
  induction d generalizing x w pos n with
  | nil => obtain ⟨rfl, rfl⟩ := Prod.mk.inj (Except.ok.inj h); rfl
  | cons s d ih =>
    obtain ⟨bits, x', rest, hstep, hd, rfl⟩ := encodeSymbols_cons_eq_ok.1 h
    have hencoder := encoderStep_of_encodeSymbol hf ht hx hstep
    have hfirst (k : Nat) (hk : k < bits.length) : bit (pos + k) = bits.getD k false := by
      rw [hbit k (by rw [List.length_append]; omega), List.getD_append _ _ _ _ hk]
    have hrest (k : Nat) (hk : k < rest.length) : bit (pos + bits.length + k) = rest.getD k false := by
      rw [Nat.add_assoc, hbit _ (by rw [List.length_append]; omega), List.getD_append_right _ _ _ _ (Nat.le_add_right ..),
        Nat.add_sub_cancel_left]
    have hshift : shiftIn bit (halfRange A) (pos + bits.length) (x / 2 ^ bits.length) = .ok (x, pos) :=
      hencoder.shiftIn_eq hx hfirst
    calc decodeSymbols t bit A (n + (d.length + 1)) y (pos + (bits ++ rest).length) out
        = decodeSymbols t bit A (n + 1 + d.length) y (pos + bits.length + rest.length) out := by
          rw [List.length_append, Nat.add_assoc, Nat.add_assoc, Nat.add_comm 1]
      _ = decodeSymbols t bit A (n + 1) x' (pos + bits.length) (d ++ out) := ih hencoder.state hd hrest (n + 1)
      _ = decodeSymbols t bit A n x pos (s :: d ++ out) := by
          simp only [decodeSymbols, hencoder.entry_eq, hshift, List.cons_append]

end

/-! ### Compression (R266) -/

/-- The three ways a compression of symbols of the alphabet can end (R263, R266). -/
theorem compress_cases {d : List Nat} {A : Nat} (hA : 1 ≤ A) (hA' : A ≤ 256) (hd : ∀ v ∈ d, v < A) :
    (d = [] ∧ compress d A = .error .fseEmpty) ∨
      (d ≠ [] ∧ buildTables (normalize d A) A = none ∧ compress d A = .error .tableFull) ∨
      ∃ t w y, d ≠ [] ∧ buildTables (normalize d A) A = some t ∧
        encodeSymbols (normalize d A) A t (maxState A) d = .ok (w, y) ∧
        compress d A = .ok { coded := (pack w).1, freq := normalize d A, toff := (pack w).2, final := y } := by
  by_cases hne : d = []
  · exact .inl ⟨hne, if_pos hne⟩
  · cases ht : buildTables (normalize d A) A with
    | none => exact .inr (.inl ⟨hne, rfl, by simp only [compress, if_neg hne, ht]⟩)
    | some t =>
      obtain ⟨w, y, henc⟩ :=
        exists_encodeSymbols_eq_ok (validTable_normalize hne hA hA' hd) ht hd (coderState_maxState A)
      exact .inr (.inr ⟨t, w, y, hne, rfl, henc, by simp only [compress, if_neg hne, ht, henc]⟩)

/-- Settles O54: past the build, every symbol of the alphabet is encoded from every state. -/
theorem encoderNeverUnderflows : Obligations.EncoderNeverUnderflows := by
  intro d A hA hA' hd hunder
  rcases compress_cases hA hA' hd with ⟨-, h⟩ | ⟨-, -, h⟩ | ⟨t, w, y, -, -, -, h⟩ <;> cases h.symm.trans hunder

/-- What compression gives, decompression turns back (R277). -/
theorem decompress_of_compress {d : List Nat} {A : Nat} {c : Coded} (hA : 1 ≤ A) (hA' : A ≤ 256) (hd : ∀ v ∈ d, v < A)
    (h : compress d A = .ok c) :
    decompress c.coded c.freq c.toff c.final A d.length = .ok (d.map (BitVec.ofNat 8)) := by
  rcases compress_cases hA hA' hd with ⟨-, h'⟩ | ⟨-, -, h'⟩ | ⟨t, w, y, hne, ht, henc, h'⟩
  · cases h'.symm.trans h
  · cases h'.symm.trans h
  obtain rfl := Except.ok.inj (h'.symm.trans h)
  have hf := validTable_normalize hne hA hA' hd
  obtain ⟨hlen, hle, hbits, -⟩ := packed_pack w
  have hoffset : ¬badToff (pack w).2 (pack w).1.length = true := by
    rw [badToff_eq_true]
    omega
  have hleft : 8 * (pack w).1.length - (pack w).2 = 0 + w.length := by omega
  have hdecode : decodeSymbols t (codedBit (pack w).1 (pack w).2) A d.length y (0 + w.length) [] = .ok d := by
    have := decodeSymbols_of_encodeSymbols hf ht (coderState_maxState A) henc (pos := 0)
      (fun k hk => (congrArg _ (Nat.zero_add k)).trans (hbits k hk)) 0 []
    rw [Nat.zero_add d.length, List.append_nil] at this
    exact this.trans (if_pos ⟨rfl, rfl⟩)
  have hentry : t.entry y ≠ none := fun hnone => by
    obtain ⟨s, d', rfl⟩ := List.exists_cons_of_ne_nil hne
    simp only [List.length_cons, decodeSymbols, hnone] at hdecode
    cases hdecode
  obtain ⟨hlow, hhigh⟩ := coderState_of_encodeSymbols hf ht (coderState_maxState A) henc
  rw [← maxState_add_one] at hhigh
  have hstate : ¬(y < halfRange A ∨ maxState A < y ∨ t.entry y = none) := by
    rintro (hlt | hlt | hnone)
    · exact absurd hlow (Nat.not_le.2 hlt)
    · exact absurd hhigh (by omega)
    · exact hentry hnone
  refine (decompress_eq_ok_iff hoffset hf ht hstate).2 ⟨d, ?_, rfl⟩
  rw [hleft]
  exact hdecode

/-- Settles O56: a decoder step rebuilds the state from the low bits that the encoder step emitted, so the rounds of the
decoder go back through the states of the encoder. -/
theorem decompressUndoesCompress : Obligations.DecompressUndoesCompress := by
  refine ⟨fun d A c hA hA' hd h => decompress_of_compress hA hA' hd h, fun f A t x s w y hf ht hlow hhigh h => ?_⟩
  have hencoder := encoderStep_of_encodeSymbol hf ht ⟨hlow, hhigh⟩ h
  exact ⟨_, hencoder.entry_eq, rfl, fun bit pos hbit => hencoder.shiftIn_eq ⟨hlow, hhigh⟩ hbit⟩

end Sys2Proof.Machine
end

section
/-! PROOFS. The two commands of the entropy coder (45_fse_codec.md R270, R280): the checks in their order, and what a completed
command leaves. -/

namespace Sys2Proof.Machine

theorem apart_comm {a l b m : Nat} : apart a l b m ↔ apart b m a l := by
  unfold apart
  omega

/-! ### FSE_ENC: its checks (R270, R135) -/

section
variable {s : State} {autoa : Bool}

theorem State.encArgs_bad_iff : (decide (s.maxRecoded < s.srcSpan.len) || (!autoa && s.badAlpha)) = true ↔
    s.maxRecoded < s.args.slen.toNat ∨ (autoa = false ∧ (s.args.alpha.toNat = 0 ∨ 256 < s.args.alpha.toNat)) := by
  rw [Bool.or_eq_true, decide_eq_true_iff, Bool.and_eq_true, Bool.not_eq_true', State.badAlpha_eq_true]
  rfl

/-- The ranges that FSE_ENC checks first: the table's is among them without AUTOA (log entry 23). -/
abbrev State.encRangesValid (s : State) (autoa : Bool) : Prop :=
  s.inDmem s.args.src.toNat s.args.slen.toNat ∧ s.inDmem s.args.dst.toNat s.args.dcap.toNat ∧
    (autoa = false → s.inDmem s.args.tbl.toNat (2 * s.args.alpha.toNat))

theorem State.encRanges_bad_iff :
    (!s.valid s.srcSpan || !s.valid s.dstSpan || (!autoa && !s.valid (s.tblSpan (s.alphabet autoa)))) = true ↔
      ¬s.encRangesValid autoa := by
  have hboth : (!s.valid s.srcSpan || !s.valid s.dstSpan) = true ↔
      ¬(s.inDmem s.args.src.toNat s.args.slen.toNat ∧ s.inDmem s.args.dst.toNat s.args.dcap.toNat) := by
    rw [Bool.or_eq_true, State.not_valid_eq_true, State.not_valid_eq_true, not_and_or]
    rfl
  have htbl : (!autoa && !s.valid (s.tblSpan (s.alphabet autoa))) = true ↔
      ¬(autoa = false → s.inDmem s.args.tbl.toNat (2 * s.args.alpha.toNat)) := by
    cases autoa with
    | true => exact iff_of_false Bool.false_ne_true (not_not.2 nofun)
    | false => exact State.not_valid_eq_true.trans (not_congr ⟨fun h _ => h, fun h => h rfl⟩)
  rw [Bool.or_eq_true, hboth, htbl, ← not_and_or, and_assoc]

theorem State.encChecks_arg (h : s.maxRecoded < s.args.slen.toNat ∨
      (autoa = false ∧ (s.args.alpha.toNat = 0 ∨ 256 < s.args.alpha.toNat))) :
    firstFailing (s.encChecks autoa) = some .arg := firstFailing_cons_of_bad (State.encArgs_bad_iff.2 h) _ _

/-- Past its arguments FSE_ENC checks its ranges. -/
theorem State.encChecks_eq (hlen : s.args.slen.toNat ≤ s.maxRecoded)
    (halpha : autoa = false → 1 ≤ s.args.alpha.toNat ∧ s.args.alpha.toNat ≤ 256) :
    firstFailing (s.encChecks autoa) = firstFailing (s.encChecks autoa).tail := by
  refine firstFailing_cons_of_good (Bool.eq_false_iff.2 (mt State.encArgs_bad_iff.1 ?_)) _ _
  rintro (hlong | ⟨hautoa, hbad⟩)
  · omega
  · have := halpha hautoa
    omega

theorem State.encChecks_tail_range (h : ¬s.encRangesValid autoa) :
    firstFailing (s.encChecks autoa).tail = some .range := firstFailing_cons_of_bad (State.encRanges_bad_iff.2 h) _ _

theorem State.encChecks_tail_of_valid (h : s.encRangesValid autoa) :
    firstFailing (s.encChecks autoa).tail = firstFailing [(s.dstSpan.overlaps s.srcSpan, .overlap)] :=
  firstFailing_cons_of_good (Bool.eq_false_iff.2 fun hbad => State.encRanges_bad_iff.1 hbad h) _ _

theorem State.encTableChecks_range {A : Nat} (h : ¬s.inDmem s.args.tbl.toNat (2 * A)) :
    firstFailing (s.encTableChecks A) = some .range := firstFailing_cons_of_bad (State.not_valid_eq_true.2 h) _ _

theorem State.encTableChecks_overlap {A : Nat} (h : s.inDmem s.args.tbl.toNat (2 * A))
    (hover : ¬(apart s.args.tbl.toNat (2 * A) s.args.src.toNat s.args.slen.toNat ∧
      apart s.args.tbl.toNat (2 * A) s.args.dst.toNat s.args.dcap.toNat)) :
    firstFailing (s.encTableChecks A) = some .overlap := by
  refine (firstFailing_cons_of_good (State.not_valid_eq_false.2 h) _ _).trans (firstFailing_cons_of_bad ?_ _ _)
  rw [Bool.or_eq_true, Span.overlaps_eq_true, Span.overlaps_eq_true]
  exact not_and_or.1 hover

theorem State.encTableChecks_pass {A : Nat} (h : s.inDmem s.args.tbl.toNat (2 * A))
    (hsrc : apart s.args.tbl.toNat (2 * A) s.args.src.toNat s.args.slen.toNat)
    (hdst : apart s.args.tbl.toNat (2 * A) s.args.dst.toNat s.args.dcap.toNat) :
    firstFailing (s.encTableChecks A) = none :=
  (firstFailing_cons_of_good (State.not_valid_eq_false.2 h) _ _).trans (firstFailing_cons_of_good
    (Bool.or_eq_false_iff.2 ⟨(Span.overlaps_eq_false ..).2 hsrc, (Span.overlaps_eq_false ..).2 hdst⟩) _ _)

end

/-! ### FSE_ENC: its ends (R266, R270) -/

/-- What FSE_ENC leaves on success. -/
def State.encResult (s : State) (autoa : Bool) (c : Coded) : State :=
  (((s.memWrite s.args.dst.toNat c.coded).memWrite s.args.tbl.toNat (bytes16s c.freq)).setRes
      (s.tableRes (s.alphabet autoa) c.coded.length)).complete.setRegs
    { s.regs with
      alpha := if autoa then Word.ofInt (s.alphabet autoa) else s.regs.alpha
      toff := Word.ofInt c.toff
      fstate := Word.ofInt c.final }

theorem State.succeeded_of_memWrite {s t : State} {a : Nat} {bs : List Byte} (h : (s.memWrite a bs).succeeded t) :
    s.succeeded t := by
  rw [State.memWrite_eq] at h
  exact h

/-- What FSE_ENC leaves on success, with its table apart from its destination and room for the coded bytes (R270). -/
theorem State.encResult_spec (s : State) (autoa : Bool) {c : Coded} (hfreq : c.freq.length = s.alphabet autoa)
    (hcap : c.coded.length ≤ s.args.dcap.toNat)
    (hapart : apart s.args.tbl.toNat (2 * s.alphabet autoa) s.args.dst.toNat s.args.dcap.toNat) :
    s.succeeded (s.encResult autoa c) ∧
      (s.encResult autoa c).memRead s.args.dst.toNat c.coded.length = c.coded ∧
      (s.encResult autoa c).memRead s.args.tbl.toNat (2 * s.alphabet autoa) = bytes16s c.freq ∧
      ∀ a, ¬(s.args.dst.toNat ≤ a ∧ a < s.args.dst.toNat + c.coded.length) →
        ¬(s.args.tbl.toNat ≤ a ∧ a < s.args.tbl.toNat + 2 * s.alphabet autoa) →
        (s.encResult autoa c).byteAt a = s.byteAt a := by
  have hcoded := State.memRead_memWrite s s.args.dst.toNat c.coded
  have hframe := State.sameOutside_memWrite s s.args.dst.toNat c.coded
  obtain ⟨hdone, hread, hout, -, -⟩ := (s.memWrite s.args.dst.toNat c.coded).memWrite_complete_spec s.args.tbl.toNat
    (bytes16s c.freq) (s.tableRes (s.alphabet autoa) c.coded.length)
  rw [bytes16s_length, hfreq] at hread hout
  refine ⟨State.succeeded_setRegs (State.succeeded_of_memWrite hdone) _, ?_, hread, fun a hdst htbl =>
    (hout a htbl).trans (hframe a hdst)⟩
  exact (State.memRead_congr fun i hi => hout _ (by unfold apart at hapart; omega)).trans hcoded

section
variable {s : State} {autoa : Bool} (h : firstFailing (s.encChecks autoa) = none) (hdata : s.args.slen.toNat ≠ 0)
  (ht : firstFailing (s.encTableChecks (s.alphabet autoa)) = none)
include h hdata ht

/-- Past its checks FSE_ENC turns away a symbol outside the alphabet. -/
theorem execFseEnc_of_symbol (hsym : (symbols s.block).any (fun v => decide (s.alphabet autoa ≤ v)) = true) :
    execFseEnc autoa s = s.raiseLateFault .symbol [s.tblSpan (s.alphabet autoa), s.dstSpan] := by
  rw [State.encChecks] at h
  rw [State.encTableChecks] at ht
  have hdata' : (autoa && s.srcSpan.len == 0) = false := by simp [State.srcSpan, hdata]
  have hlen : ¬s.srcSpan.len = 0 := hdata
  simp only [execFseEnc, h, hdata', Bool.false_eq_true, if_false, ht, if_neg hlen]
  exact if_pos hsym

/-- With symbols of the alphabet only, FSE_ENC compresses them. -/
theorem execFseEnc_of_symbols (hsym : ¬(symbols s.block).any (fun v => decide (s.alphabet autoa ≤ v)) = true) :
    (∀ e, compress (symbols s.block) (s.alphabet autoa) = .error e →
      execFseEnc autoa s = s.raiseFail e [s.tblSpan (s.alphabet autoa), s.dstSpan]) ∧
    ∀ c, compress (symbols s.block) (s.alphabet autoa) = .ok c →
      execFseEnc autoa s =
        if s.args.dcap.toNat < c.coded.length then
          s.raiseLateFault .dstOverflow [s.tblSpan (s.alphabet autoa), s.dstSpan]
        else .next (s.encResult autoa c) := by
  rw [State.encChecks] at h
  rw [State.encTableChecks] at ht
  have hdata' : (autoa && s.srcSpan.len == 0) = false := by simp [State.srcSpan, hdata]
  have hlen : ¬s.srcSpan.len = 0 := hdata
  rw [← State.srcBytes_eq_block] at hsym ⊢
  refine ⟨fun e he => ?_, fun c hc => ?_⟩
  · simp only [execFseEnc, h, hdata', Bool.false_eq_true, if_false, ht, if_neg hlen, if_neg hsym, he]
  · simp only [execFseEnc, h, hdata', Bool.false_eq_true, if_false, ht, if_neg hlen, if_neg hsym, hc]
    rfl

end

/-- Settles O35: the checks of the arguments and the ranges, those of the table once the alphabet is known, the symbols, and
what the compression gives. -/
theorem fseEncWritesCompressedBlock : Obligations.FseEncWritesCompressedBlock := by
  intro autoa s
  have early (e : ErrCode) (h : execFseEnc autoa s = s.raiseFault e) : s.earlyFault (.fseEnc autoa) e.code :=
    State.earlyFault_of_exec h
  refine ⟨fun harg => early .arg (execFseEnc_of_failing (State.encChecks_arg harg)), fun hlen halpha => ?_⟩
  have hchecks := State.encChecks_eq hlen halpha
  have range (hbad : ¬s.encRangesValid autoa) : s.earlyFault (.fseEnc autoa) 0x03 :=
    early .range (execFseEnc_of_failing (hchecks.trans (State.encChecks_tail_range hbad)))
  refine ⟨fun hranges => range fun ⟨hsrc, hdst, _⟩ => hranges ⟨hsrc, hdst⟩, fun hsrc hdst =>
    ⟨fun hautoa htbl => range fun ⟨_, _, hvalid⟩ => htbl (hvalid hautoa), fun hover hvalid => ?_,
      fun hapart hdata A hA => ?_⟩⟩
  · have hranges : s.encRangesValid autoa := ⟨hsrc, hdst, fun hautoa => hvalid.resolve_left (hautoa ▸ Bool.false_ne_true)⟩
    exact early .overlap (execFseEnc_of_failing ((hchecks.trans (State.encChecks_tail_of_valid hranges)).trans
      (firstFailing_cons_of_bad (Span.overlaps_eq_true.2 (mt apart_comm.1 hover)) _ _)))
  obtain rfl : A = s.alphabet autoa := hA
  have hpass (hranges : s.encRangesValid autoa) : firstFailing (s.encChecks autoa) = none :=
    (hchecks.trans (State.encChecks_tail_of_valid hranges)).trans
      (firstFailing_cons_of_good ((Span.overlaps_eq_false ..).2 (apart_comm.1 hapart)) _ _)
  refine ⟨fun htbl => ?_, fun htbl => ?_⟩
  · by_cases hranges : s.encRangesValid autoa
    · exact early .range (execFseEnc_of_table_failing (hpass hranges) (fun _ => hdata) (State.encTableChecks_range htbl))
    · exact range hranges
  replace hpass := hpass ⟨hsrc, hdst, fun hautoa => by subst hautoa; exact htbl⟩
  refine ⟨fun hover => early .overlap (execFseEnc_of_table_failing hpass (fun _ => hdata)
    (State.encTableChecks_overlap htbl hover)), fun htsrc htdst => ?_⟩
  have htable := State.encTableChecks_pass htbl htsrc htdst
  refine ⟨fun hsym => ?_, fun hsym => ?_⟩
  · obtain ⟨t, ht, hstop, -⟩ := s.raiseLateFault_spec .symbol [s.tblSpan (s.alphabet autoa), s.dstSpan]
    exact ⟨t, (execFseEnc_of_symbol hpass hdata htable (any_symbols_ge_eq_true.2 hsym)).trans ht, hstop⟩
  have hnone : ¬∃ v ∈ s.block, s.alphabet autoa ≤ v.toNat := fun ⟨v, hv, hle⟩ => absurd (hsym v hv) (Nat.not_lt.2 hle)
  obtain ⟨hfails, hcodes⟩ := execFseEnc_of_symbols hpass hdata htable (mt any_symbols_ge_eq_true.1 hnone)
  refine ⟨fun e he => ?_, fun c hc => ⟨fun hcap => ?_, fun hcap => ?_⟩⟩
  · obtain ⟨t, ht, hstop, -⟩ := s.raiseFail_spec e [s.tblSpan (s.alphabet autoa), s.dstSpan]
    exact ⟨t, (hfails e he).trans ht, hstop⟩
  · obtain ⟨t, ht, hstop, -⟩ := s.raiseLateFault_spec .dstOverflow [s.tblSpan (s.alphabet autoa), s.dstSpan]
    exact ⟨t, ((hcodes c hc).trans (if_pos hcap)).trans ht, hstop⟩
  · obtain ⟨hdone, hcoded, hfreq, hframe⟩ := s.encResult_spec autoa (compress_freq_length hc) hcap htdst
    exact ⟨_, (hcodes c hc).trans (if_neg (Nat.not_lt.2 hcap)), hdone, hcoded, hfreq, hframe, rfl, rfl, rfl, rfl, rfl⟩

/-! ### FSE_DEC (R280) -/

/-- The checks of FSE_DEC before it reads data. -/
def State.decChecks (s : State) : List (Bool × ErrCode) :=
  [(s.badAlpha || decide (s.maxRecoded < s.args.olen.toNat), .arg),
    (badToff s.args.toff.toNat s.srcSpan.len, .toffInvalid),
    (!s.valid s.srcSpan || !s.valid (s.tblSpan s.args.alpha.toNat) || !s.valid s.dstSpan, .range),
    (s.dstSpan.overlaps s.srcSpan || s.dstSpan.overlaps (s.tblSpan s.args.alpha.toNat), .overlap),
    s.capacityCheck s.args.olen.toNat]

theorem execFseDec_of_failing {s : State} {e : ErrCode} (h : firstFailing s.decChecks = some e) :
    execFseDec s = s.raiseFault e := by
  rw [State.decChecks] at h
  simp only [execFseDec, h]

/-- What the data of FSE_DEC decode to (R274). -/
abbrev State.decoded (s : State) : Except ErrCode (List Byte) :=
  decompress s.srcBytes (s.readTable (s.tblSpan s.args.alpha.toNat).addr s.args.alpha.toNat) s.args.toff.toNat
    s.args.fstate.toNat s.args.alpha.toNat s.args.olen.toNat

/-- Past its checks FSE_DEC ends as the decoder does. -/
theorem execFseDec_of_pass {s : State} (h : firstFailing s.decChecks = none) :
    (∀ e, s.decoded = .error e → execFseDec s = s.raiseLateFault e [s.dstSpan]) ∧
    ∀ out, s.decoded = .ok out → execFseDec s = .next ((s.memWrite s.args.dst.toNat out).setRes
      (s.tableRes s.args.alpha.toNat s.args.olen.toNat)).complete := by
  rw [State.decChecks] at h
  unfold State.decoded
  refine ⟨fun e he => ?_, fun out hout => ?_⟩
  · simp only [execFseDec, h, he]
  · simp only [execFseDec, h, hout]
    rfl

/-- Settles O36: each check once those before it pass, and how the decoder ends. -/
theorem fseDecWritesDecodedBlock : Obligations.FseDecWritesDecodedBlock := by
  intro s A f hA hf
  obtain rfl : f = s.countTable := by rw [hf, hA]; rfl
  subst hA
  have early (e : ErrCode) (h : firstFailing s.decChecks = some e) : s.earlyFault .fseDec e.code :=
    State.earlyFault_of_exec (execFseDec_of_failing h)
  refine ⟨fun harg => early .arg (firstFailing_cons_of_bad ?_ _ _), fun hpos hmax holen => ?_⟩
  · rw [Bool.or_eq_true, State.badAlpha_eq_true, decide_eq_true_iff, or_assoc]
    exact harg
  have hchecks := firstFailing_cons_of_good (Bool.or_eq_false_iff.2 ⟨State.badAlpha_eq_false.2 ⟨hpos, hmax⟩,
    decide_eq_false (Nat.not_lt.2 holen)⟩) .arg s.decChecks.tail
  refine ⟨fun htoff => early .toffInvalid (hchecks.trans (firstFailing_cons_of_bad (badToff_eq_true.2 htoff) _ _)),
    fun htoff => ?_⟩
  replace hchecks := hchecks.trans (firstFailing_cons_of_good (Bool.eq_false_iff.2 (mt badToff_eq_true.1 htoff)) _ _)
  refine ⟨fun hrange => early .range (hchecks.trans (firstFailing_cons_of_bad ?_ _ _)), fun hsrc htbl hdst => ?_⟩
  · rw [Bool.or_eq_true, Bool.or_eq_true, State.not_valid_eq_true, State.not_valid_eq_true, State.not_valid_eq_true,
      or_assoc, ← not_and_or, ← not_and_or]
    exact hrange
  replace hchecks := hchecks.trans (firstFailing_cons_of_good (Bool.or_eq_false_iff.2 ⟨Bool.or_eq_false_iff.2
    ⟨State.not_valid_eq_false.2 hsrc, State.not_valid_eq_false.2 htbl⟩, State.not_valid_eq_false.2 hdst⟩) _ _)
  refine ⟨fun hover => early .overlap (hchecks.trans (firstFailing_cons_of_bad ?_ _ _)), fun hasrc hatbl => ?_⟩
  · rw [Bool.or_eq_true, Span.overlaps_eq_true, Span.overlaps_eq_true]
    exact not_and_or.1 hover
  replace hchecks := hchecks.trans (firstFailing_cons_of_good (Bool.or_eq_false_iff.2
    ⟨(Span.overlaps_eq_false ..).2 hasrc, (Span.overlaps_eq_false ..).2 hatbl⟩) _ _)
  refine ⟨fun hcap => early .dstOverflow (hchecks.trans (firstFailing_cons_of_bad (decide_eq_true hcap) _ _)),
    fun hcap => ?_⟩
  obtain ⟨hfails, hdecodes⟩ := execFseDec_of_pass
    (hchecks.trans (firstFailing_cons_of_good ((s.capacityCheck_eq_false _).2 hcap) _ _))
  split
  next e he => exact State.lateFault_of_exec (i := .fseDec) (hfails e he)
  next out hout =>
    obtain ⟨hdone, hread, hframe, hregs, hres⟩ := s.memWrite_complete_spec s.args.dst.toNat out
      (s.tableRes s.args.alpha.toNat s.args.olen.toNat)
    rw [decompress_length hout] at hread hframe
    refine ⟨_, hdecodes out hout, hdone, hread, hframe, hregs, hres.trans ?_⟩
    rw [State.tableRes, Word.ofInt, Word.ofInt, BitVec.ofNat_toNat, BitVec.setWidth_eq]
    rfl

end Sys2Proof.Machine
end

section
/-! PROOFS. Bit fields and the two bit-stream commands (46_bitstream.md R300 to R307): a field written and read back, the
checks of BS_PUT and BS_GET in their order, what each leaves, and where its cursor ends. -/

namespace Sys2Proof.Machine

/-! ### Bit fields (R300 to R302) -/

theorem State.writeField_res (s : State) (p v w : Nat) : (s.writeField p v w).res = s.res := by rw [State.writeField_eq]

theorem State.getBit_writeField (s : State) (p v : Nat) {w k : Nat} (hk : k < w) :
    (s.writeField p v w).getBit (p + k) = v.testBit k := by
  induction w generalizing s p v k with
  | zero => cases hk
  | succ w ih =>
    rw [State.writeField]
    cases k with
    | zero =>
      rw [State.getBit_writeField_outside _ (by omega), State.getBit_putBit, if_pos (Nat.add_zero p), Nat.testBit_zero]
      rfl
    | succ k => rw [← Nat.succ_add_eq_add_succ p k, ih _ _ _ (Nat.lt_of_succ_lt_succ hk), Nat.testBit_succ]

theorem State.testBit_readField (s : State) (p w k : Nat) :
    (s.readField p w).testBit k = (decide (k < w) && s.getBit (p + k)) := by
  induction w generalizing p k with
  | zero => simp [State.readField]
  | succ w ih =>
    rw [State.readField, Nat.add_comm, ← Nat.bit_val]
    cases k with
    | zero => simp
    | succ k => simp [Nat.testBit_bit_succ, ih, Nat.succ_add_eq_add_succ]

/-- Settles O59: a field read back agrees with the value bit by bit. -/
theorem fieldWriteThenRead : Obligations.FieldWriteThenRead := by
  intro s p v w
  refine ⟨Nat.eq_of_testBit_eq fun k => ?_, fun k hk => s.getBit_writeField p v hk,
    fun q hq => s.getBit_writeField_outside hq⟩
  rw [State.testBit_readField, Nat.testBit_mod_two_pow]
  by_cases hk : k < w
  · rw [s.getBit_writeField p v hk]
  · simp [hk]

/-! ### The checks and the ends of BS_PUT and BS_GET -/

/-- The checks of a bit-stream command for `n` bits at the cursor `(ptr, bit)` under the limit `lim`; `short` is the code
for too few bytes (R304, R306). -/
def State.bitChecks (s : State) (n ptr bit lim : Nat) (short : ErrCode) : List (Bool × ErrCode) :=
  [(!decide (legalNbits n), .illegalCmd), (decide (7 < bit) || decide (lim < ptr), .arg),
    (!s.valid { addr := ptr, len := lim - ptr }, .range), (decide (lim < ptr + fieldBytes bit n), short)]

/-- A command that makes its checks, and if they pass completes as `u`. -/
def State.checked (s : State) (checks : List (Bool × ErrCode)) (u : State) : Result :=
  match firstFailing checks with
  | some e => s.raiseFault e
  | none => .next u.complete

/-- The checks of BS_PUT (R304). -/
abbrev State.putChecks (s : State) (n : Nat) : List (Bool × ErrCode) :=
  s.bitChecks n s.args.wptr.toNat s.args.wbit.toNat s.args.wlim.toNat .dstOverflow

/-- The checks of BS_GET (R306). -/
abbrev State.getChecks (s : State) (n : Nat) : List (Bool × ErrCode) :=
  s.bitChecks n s.args.rptr.toNat s.args.rbit.toNat s.args.rlim.toNat .truncated

/-- What BS_PUT writes: the field and the cursor. -/
def State.putResult (s : State) (n : Nat) : State :=
  (s.writeField s.wCursor (s.args.bsval.toNat % 2 ^ n) n).setRegs (s.regs.setWCursor (s.wCursor + n))

/-- What BS_GET writes: the value and the cursor. -/
def State.getResult (s : State) (n : Nat) : State :=
  s.setRegs ({ s.regs with bsval := Word.ofInt (s.readField s.rCursor n) }.setRCursor (s.rCursor + n))

theorem exec_bsPut (n : Nat) (s : State) : exec (.bsPut n) s = s.checked (s.putChecks n) (s.putResult n) := rfl

theorem exec_bsGet (n : Nat) (s : State) : exec (.bsGet n) s = s.checked (s.getChecks n) (s.getResult n) := rfl

section
variable {s u t : State} {checks : List (Bool × ErrCode)}

theorem State.checked_of_failing {e : ErrCode} (h : firstFailing checks = some e) :
    ∃ t, s.checked checks u = .next t ∧ s.preciseFault t e.code := by
  rw [State.checked, h]
  exact s.raiseFault_spec e

theorem State.checked_of_pass (h : firstFailing checks = none) : s.checked checks u = .next u.complete := by
  rw [State.checked, h]

/-- Only checks that all pass let a command end without a FAULT. -/
theorem State.checked_no_fault (h : s.checked checks u = .next t) (hfault : t.status.fault = false) :
    firstFailing checks = none ∧ t = u.complete := by
  cases hfirst : firstFailing checks with
  | none =>
    rw [State.checked_of_pass hfirst] at h
    exact ⟨rfl, (Host.Outcome.next.inj h).symm⟩
  | some e =>
    obtain ⟨t', ht', ⟨⟨-, -, hfault', -⟩, -⟩, -⟩ := s.checked_of_failing (u := u) hfirst
    obtain rfl := Host.Outcome.next.inj (h.symm.trans ht')
    exact absurd (hfault'.symm.trans hfault) Bool.noConfusion

end

section
variable {s : State} {n ptr bit lim : Nat} {short : ErrCode}

/-- The byte count of R303 against the limit, in bits. -/
theorem lt_fieldBytes_iff : lim < ptr + fieldBytes bit n ↔ 8 * lim < 8 * ptr + bit + n := by
  unfold fieldBytes
  omega

/-- The checks pass exactly when the field lies between its cursor and its limit, inside DMEM. -/
theorem State.bitChecks_eq_none_iff : firstFailing (s.bitChecks n ptr bit lim short) = none ↔
    legalNbits n ∧ bit ≤ 7 ∧ ptr ≤ lim ∧ s.inDmem ptr (lim - ptr) ∧ 8 * ptr + bit + n ≤ 8 * lim := by
  simp only [State.bitChecks, firstFailing_eq_none, List.forall_mem_cons, Bool.not_eq_false',
    decide_eq_true_eq, decide_eq_false_iff_not, Bool.or_eq_false_iff, State.valid_iff, lt_fieldBytes_iff, Nat.not_lt,
    and_assoc]
  simp only [List.not_mem_nil, false_imp_iff, implies_true, and_true]

/-- The first check that fails, each once those before it pass. -/
theorem State.bitChecks_in_order (s : State) (n ptr bit lim : Nat) (short : ErrCode) :
    let first := firstFailing (s.bitChecks n ptr bit lim short)
    (¬legalNbits n → first = some .illegalCmd) ∧
    (legalNbits n → (7 < bit ∨ lim < ptr → first = some .arg) ∧
      (bit ≤ 7 → ptr ≤ lim → (¬s.inDmem ptr (lim - ptr) → first = some .range) ∧
        (s.inDmem ptr (lim - ptr) → 8 * lim < 8 * ptr + bit + n → first = some short))) := by
  refine ⟨fun hn => firstFailing_cons_of_bad (by simp [hn]) _ _, fun hn => ?_⟩
  have hlegal := firstFailing_cons_of_good (bad := !decide (legalNbits n)) (by simp [hn]) .illegalCmd
    (s.bitChecks n ptr bit lim short).tail
  refine ⟨fun harg => hlegal.trans (firstFailing_cons_of_bad (by simp [harg]) _ _), fun hbit hlim => ?_⟩
  have hcursor := hlegal.trans (firstFailing_cons_of_good (by simp [hbit, hlim]) _ _)
  exact ⟨fun hout => hcursor.trans (firstFailing_cons_of_bad (State.not_valid_eq_true.2 hout) _ _), fun hin hshort =>
    (hcursor.trans (firstFailing_cons_of_good (State.not_valid_eq_false.2 hin) _ _)).trans
      (firstFailing_cons_of_bad (decide_eq_true (lt_fieldBytes_iff.2 hshort)) _ _)⟩

end

/-- Settles O39: the checks of both commands are those of `State.bitChecks`. -/
theorem bitCommandsCheckInOrder : Obligations.BitCommandsCheckInOrder := by
  intro n s
  have put {e : ErrCode} (h : firstFailing (s.putChecks n) = some e) : s.earlyFault (.bsPut n) e.code :=
    State.checked_of_failing h
  have get {e : ErrCode} (h : firstFailing (s.getChecks n) = some e) : s.earlyFault (.bsGet n) e.code :=
    State.checked_of_failing h
  obtain ⟨hputIllegal, hputRest⟩ :=
    s.bitChecks_in_order n s.args.wptr.toNat s.args.wbit.toNat s.args.wlim.toNat .dstOverflow
  obtain ⟨hgetIllegal, hgetRest⟩ :=
    s.bitChecks_in_order n s.args.rptr.toNat s.args.rbit.toNat s.args.rlim.toNat .truncated
  refine ⟨fun hn => ⟨put (hputIllegal hn), get (hgetIllegal hn)⟩, fun hpos hmax => ?_⟩
  obtain ⟨hputArg, hputRest⟩ := hputRest ⟨hpos, hmax⟩
  obtain ⟨hgetArg, hgetRest⟩ := hgetRest ⟨hpos, hmax⟩
  refine ⟨fun harg => put (hputArg harg), fun hbit hlim => ?_, fun harg => get (hgetArg harg), fun hbit hlim => ?_⟩
  · obtain ⟨hrange, hshort⟩ := hputRest hbit hlim
    exact ⟨fun hout => put (hrange hout), fun hin hlt => put (hshort hin hlt)⟩
  · obtain ⟨hrange, hshort⟩ := hgetRest hbit hlim
    exact ⟨fun hout => get (hrange hout), fun hin hlt => get (hshort hin hlt)⟩

/-! ### What a completed command leaves (R304, R306) -/

/-- Settles O37: arguments that pass the checks, then the field's own rules. -/
theorem bsPutWritesField : Obligations.BsPutWritesField := by
  intro n s hpos hmax hbit hlim hin hroom p
  have hexec := (exec_bsPut n s).trans
    (State.checked_of_pass (State.bitChecks_eq_none_iff.2 ⟨⟨hpos, hmax⟩, hbit, hlim, hin, hroom⟩))
  refine ⟨_, hexec, ?_, fun k hk => ?_, fun q hq => s.getBit_writeField_outside hq, rfl, State.writeField_res ..⟩
  · rw [State.putResult, State.writeField_eq]
    exact State.succeeded_complete _
  · calc (s.writeField p (s.args.bsval.toNat % 2 ^ n) n).getBit (p + k)
      _ = (s.args.bsval.toNat % 2 ^ n).testBit k := s.getBit_writeField p _ hk
      _ = s.args.bsval.getLsbD k := by rw [Nat.testBit_mod_two_pow, decide_eq_true hk, Bool.true_and]; rfl

/-- Settles O38: arguments that pass the checks, then the bits of the value read. -/
theorem bsGetReadsField : Obligations.BsGetReadsField := by
  intro n s hpos hmax hbit hlim hin hroom p
  have hexec := (exec_bsGet n s).trans
    (State.checked_of_pass (State.bitChecks_eq_none_iff.2 ⟨⟨hpos, hmax⟩, hbit, hlim, hin, hroom⟩))
  refine ⟨_, hexec, State.succeeded_complete _, rfl, fun k hk => ?_, rfl, rfl⟩
  calc (Word.ofInt (s.readField p n)).getLsbD k
    _ = (s.readField p n).testBit k := by rw [BitVec.getLsbD_ofNat, decide_eq_true hk, Bool.true_and]
    _ = (decide (k < n) && s.getBit (p + k)) := s.testBit_readField p n k

/-! ### Where the cursor ends (R303, R307) -/

/-- A cursor that a byte address below `2 ^ 32` bounds, split into its two registers, is still that cursor. -/
theorem cursor_registers {q lim : Nat} (hq : q ≤ 8 * lim) (hlim : lim < 2 ^ 32) :
    8 * (Word.ofInt (q / 8)).toNat + (Word.ofInt (q % 8)).toNat = q ∧ (Word.ofInt (q % 8)).toNat ≤ 7 ∧
      (Word.ofInt (q / 8)).toNat ≤ lim := by
  rw [BitVec.toNat_ofNat, BitVec.toNat_ofNat, Nat.mod_eq_of_lt (by omega : q / 8 < 2 ^ 32),
    Nat.mod_eq_of_lt (by omega : q % 8 < 2 ^ 32)]
  omega

/-- Settles O40: a command that ends without a FAULT passed its checks, so the field ends below its limit. -/
theorem bitCursorsNeverWrap : Obligations.BitCursorsNeverWrap := by
  refine fun n s t => ⟨fun h hfault => ?_, fun h hfault => ?_⟩
  · obtain ⟨hpass, rfl⟩ := State.checked_no_fault ((exec_bsPut n s).symm.trans h) hfault
    obtain ⟨⟨hpos, -⟩, hbit, hlim, hin, hroom⟩ := State.bitChecks_eq_none_iff.1 hpass
    obtain ⟨hcursor, hwbit, hwptr⟩ := cursor_registers hroom s.args.wlim.isLt
    refine ⟨hcursor, hwbit, hwptr, ?_⟩
    rcases hin with hempty | hle <;> omega
  · obtain ⟨hpass, rfl⟩ := State.checked_no_fault ((exec_bsGet n s).symm.trans h) hfault
    obtain ⟨-, -, -, -, hroom⟩ := State.bitChecks_eq_none_iff.1 hpass
    exact cursor_registers hroom s.args.rlim.isLt

end Sys2Proof.Machine
end

section
/-! PROOFS. The frame that is built (47_frame.md R321 to R324, 30_encoding.md R110 to R112): where the bits of each field lie,
and which of the two frames it is. -/

namespace Sys2Proof.Machine

/-! ### The bits of fields (R110, R324) -/

@[simp] theorem widthSum_nil : widthSum [] = 0 := rfl

@[simp] theorem widthSum_cons (v w : Nat) (fs : List (Nat × Nat)) : widthSum ((v, w) :: fs) = w + widthSum fs := rfl

theorem fieldBits_cons (v w : Nat) (fs : List (Nat × Nat)) :
    fieldBits ((v, w) :: fs) = (List.range w).map v.testBit ++ fieldBits fs := rfl

theorem fieldBits_append (fs gs : List (Nat × Nat)) : fieldBits (fs ++ gs) = fieldBits fs ++ fieldBits gs :=
  List.flatMap_append

@[simp] theorem fieldBits_length (fs : List (Nat × Nat)) : (fieldBits fs).length = widthSum fs := by
  simp [fieldBits, widthSum, List.length_flatMap]

/-- Fields written at `p` put their bits from `p` on (R324). -/
theorem State.getBit_writeFields (s : State) (p : Nat) {fs : List (Nat × Nat)} {k : Nat} (hk : k < widthSum fs) :
    (s.writeFields p fs).getBit (p + k) = (fieldBits fs).getD k false := by
  induction fs generalizing s p k with
  | nil => cases hk
  | cons f fs ih =>
    obtain ⟨v, w⟩ := f
    rw [widthSum_cons] at hk
    have hlen : ((List.range w).map v.testBit).length = w := by simp
    rw [State.writeFields, fieldBits_cons]
    by_cases hw : k < w
    · rw [State.getBit_writeFields_outside _ (by omega), s.getBit_writeField p v hw,
        List.getD_append _ _ _ _ (by omega)]
      simp [hw]
    · have hpos : p + k = p + w + (k - w) := by omega
      rw [hpos, ih _ _ (by omega), List.getD_append_right _ _ _ _ (by omega), hlen]

/-- The low bit of a value, and the bits above it. -/
theorem bitsAt_succ (bits : List Bool) (p n : Nat) :
    bitsAt bits p (n + 1) = 2 * bitsAt bits (p + 1) n + (bits.getD p false).toNat := by
  simp only [bitsAt, List.range_succ_eq_map, List.map_cons, List.map_map, List.sum_cons, ← List.sum_map_mul_left,
    Function.comp_def, Nat.succ_eq_add_one, pow_succ, Nat.add_zero, pow_zero, Nat.mul_one]
  rw [Nat.add_comm]
  congr 3
  funext i
  rw [Nat.add_right_comm, Nat.add_assoc p]
  ring

theorem testBit_bitsAt (bits : List Bool) (p n k : Nat) :
    (bitsAt bits p n).testBit k = (decide (k < n) && bits.getD (p + k) false) := by
  induction n generalizing p k with
  | zero => simp [bitsAt]
  | succ n ih =>
    rw [bitsAt_succ, ← Nat.bit_val]
    cases k with
    | zero => simp
    | succ k => rw [Nat.testBit_bit_succ, ih]; simp [Nat.succ_add_eq_add_succ]

/-- A value read from written fields is the value of their bits. -/
theorem State.readField_writeFields (s : State) (p : Nat) {fs : List (Nat × Nat)} {q w : Nat} (h : q + w ≤ widthSum fs) :
    (s.writeFields p fs).readField (p + q) w = bitsAt (fieldBits fs) q w := by
  refine Nat.eq_of_testBit_eq fun k => ?_
  rw [State.testBit_readField, testBit_bitsAt]
  by_cases hk : k < w
  · rw [Nat.add_assoc, s.getBit_writeFields p (by omega)]
  · simp [hk]

@[simp] theorem widthSum_append (fs gs : List (Nat × Nat)) : widthSum (fs ++ gs) = widthSum fs + widthSum gs := by
  simp [widthSum]

theorem widthSum_map_const {α : Type} (f : α → Nat) (w : Nat) (vs : List α) :
    widthSum (vs.map fun v => (f v, w)) = w * vs.length := by
  simp [widthSum, Function.comp_def, Nat.mul_comm]

/-- Fields behind others stand as many bits further as those are wide (R110). -/
theorem bitsAt_fieldBits_append (fs gs : List (Nat × Nat)) {p q : Nat} (hp : p = widthSum fs + q) (w : Nat) :
    bitsAt (fieldBits (fs ++ gs)) p w = bitsAt (fieldBits gs) q w := by
  refine Nat.eq_of_testBit_eq fun k => ?_
  rw [← fieldBits_length] at hp
  rw [testBit_bitsAt, testBit_bitsAt, fieldBits_append, List.getD_append_right _ _ _ _ (by omega), hp, Nat.add_assoc,
    Nat.add_sub_cancel_left]

/-- A field within its width is read back after the fields before it (R110). -/
theorem bitsAt_field (fs gs : List (Nat × Nat)) {p v w : Nat} (hp : p = widthSum fs) (hv : v < 2 ^ w) :
    bitsAt (fieldBits (fs ++ (v, w) :: gs)) p w = v := by
  rw [bitsAt_fieldBits_append fs _ (hp.trans (Nat.add_zero _).symm), ← Nat.mod_eq_of_lt hv]
  refine Nat.eq_of_testBit_eq fun k => ?_
  rw [testBit_bitsAt, Nat.testBit_mod_two_pow, fieldBits_cons, Nat.zero_add]
  by_cases hk : k < w
  · rw [List.getD_append _ _ _ _ (by simpa using hk)]
    simp [hk]
  · simp [hk]

/-- In a run of fields of one width each stands at its multiple of that width (R111, R112). -/
theorem bitsAt_run {α : Type} (f : α → Nat) {vs : List α} (gs : List (Nat × Nat)) (d : α) {q w : Nat}
    (hq : q < vs.length) (hv : ∀ v ∈ vs, f v < 2 ^ w) :
    bitsAt (fieldBits (vs.map (fun v => (f v, w)) ++ gs)) (w * q) w = f (vs.getD q d) := by
  have hsplit : vs.map (fun v => (f v, w)) ++ gs =
      (vs.take q).map (fun v => (f v, w)) ++ (f vs[q], w) :: ((vs.drop (q + 1)).map (fun v => (f v, w)) ++ gs) := by
    rw [← List.cons_append, ← List.map_cons (f := fun v => (f v, w)), ← List.drop_eq_getElem_cons hq,
      ← List.append_assoc, ← List.map_append, List.take_append_drop]
  rw [hsplit, List.getD_eq_getElem _ _ hq]
  refine bitsAt_field _ _ ?_ (hv _ (List.getElem_mem hq))
  rw [widthSum_map_const, List.length_take_of_le hq.le]

theorem bitsAt_byteFields {bs : List Byte} {k : Nat} (hk : k < bs.length) :
    bitsAt (fieldBits (byteFields bs)) (8 * k) 8 = (bs.getD k 0).toNat := by
  have h := bitsAt_run BitVec.toNat (w := 8) [] 0 hk fun v _ => v.isLt
  rwa [List.append_nil] at h

/-! ### The places of the fields of a frame (R111, R112) -/

theorem widthSum_entropyFields {c : Coded} {A : Nat} (hlen : c.freq.length = A) (last rot nrec : Nat) :
    widthSum (entropyFields last rot A nrec c) = 8 * (21 + 2 * A + c.coded.length) := by
  simp only [entropyFields, byteFields, widthSum_append, widthSum_cons, widthSum_nil, widthSum_map_const, hlen]
  omega

theorem widthSum_rawFields (last rot : Nat) (r : List Byte) : widthSum (rawFields last rot r) = 8 * (10 + r.length) := by
  simp only [rawFields, byteFields, widthSum_append, widthSum_cons, widthSum_nil, widthSum_map_const]
  omega

/-- Bits that hold the fields of an entropy-coded frame where R111 puts them. -/
structure HoldsEntropyFrame (bits : List Bool) (last rot A nrec : Nat) (c : Coded) : Prop where
  last_eq : bitsAt bits 0 8 = last
  mode_eq : bitsAt bits 8 8 = 0
  rot_eq : bitsAt bits 16 32 = rot
  alphabet_eq : bitsAt bits 48 16 = A
  nrec_eq : bitsAt bits 64 32 = nrec
  freq_eq : ∀ q < A, bitsAt bits (8 * (12 + 2 * q)) 16 = c.freq.getD q 0
  toff_eq : bitsAt bits (8 * (12 + 2 * A)) 8 = c.toff
  final_eq : bitsAt bits (8 * (13 + 2 * A)) 32 = c.final
  clen_eq : bitsAt bits (8 * (17 + 2 * A)) 32 = c.coded.length
  coded_eq : ∀ k < c.coded.length, bitsAt bits (8 * (21 + 2 * A + k)) 8 = (c.coded.getD k 0).toNat

/-- Bits that hold the fields of a raw frame where R112 puts them. -/
structure HoldsRawFrame (bits : List Bool) (last rot : Nat) (r : List Byte) : Prop where
  last_eq : bitsAt bits 0 8 = last
  mode_eq : bitsAt bits 8 8 = 1
  rot_eq : bitsAt bits 16 32 = rot
  nrec_eq : bitsAt bits 48 32 = r.length
  recoded_eq : ∀ k < r.length, bitsAt bits (8 * (10 + k)) 8 = (r.getD k 0).toNat

theorem two_pow_bitLength_le {A : Nat} (hA : 1 ≤ A) : 2 ^ bitLength A ≤ 2 * A := by
  have hne : A ≠ 0 := Nat.one_le_iff_ne_zero.1 hA
  rw [bitLength, if_neg hne, Nat.pow_succ']
  exact Nat.mul_le_mul_left 2 (Nat.log2_self_le hne)

/-- What compression gives fits the fields of the frame. -/
theorem compress_fits {d : List Nat} {A : Nat} {c : Coded} (hA : 1 ≤ A) (hA' : A ≤ 256) (hd : ∀ v ∈ d, v < A)
    (hc : compress d A = .ok c) : (∀ v ∈ c.freq, v < 2 ^ 16) ∧ c.toff < 2 ^ 8 ∧ c.final < 2 ^ 32 := by
  rcases compress_cases hA hA' hd with ⟨-, h⟩ | ⟨-, -, h⟩ | ⟨t, w, y, hne, ht, henc, h⟩
  · cases h.symm.trans hc
  · cases h.symm.trans hc
  obtain rfl := Except.ok.inj (h.symm.trans hc)
  have hf := validTable_normalize hne hA hA' hd
  have hbits := two_pow_bitLength_le hA
  obtain ⟨-, hfinal⟩ := coderState_of_encodeSymbols hf ht (coderState_maxState A) henc
  obtain ⟨-, -, -, -, hsum⟩ := validTable_iff.1 hf
  have htoff := (packed_pack w).toff_le
  rw [Nat.pow_add] at hfinal hsum
  exact ⟨fun v hv => (List.le_sum_of_mem hv).trans_lt (hsum.trans_lt (by omega)), htoff.trans_lt (by decide),
    hfinal.trans_le (by omega)⟩

/-- An entropy-coded frame holds its fields where R111 puts them. -/
theorem holdsEntropyFrame_of_compress {d : List Nat} {last rot A nrec : Nat} {c : Coded} (hA : 1 ≤ A) (hA' : A ≤ 256)
    (hd : ∀ v ∈ d, v < A) (hc : compress d A = .ok c) (hlast : last < 2 ^ 8) (hrot : rot < 2 ^ 32)
    (hnrec : nrec < 2 ^ 32) (hclen : c.coded.length < 2 ^ 32) :
    HoldsEntropyFrame (fieldBits (entropyFields last rot A nrec c)) last rot A nrec c := by
  obtain ⟨hfreq, htoff, hfinal⟩ := compress_fits hA hA' hd hc
  have hfreqs : c.freq.length = A := compress_freq_length hc
  have hassoc : entropyFields last rot A nrec c = [(last, 8), (0, 8), (rot, 32), (A, 16), (nrec, 32)] ++
      (c.freq.map (fun v => (v, 16)) ++ ([(c.toff, 8), (c.final, 32), (c.coded.length, 32)] ++ byteFields c.coded)) := by
    simp only [entropyFields, List.append_assoc]
  have past_head {p q w : Nat} (hp : p = 96 + q) := (congrArg (bitsAt · p w) (congrArg fieldBits hassoc)).trans
    (bitsAt_fieldBits_append _ _ hp w)
  have past_table {p q w : Nat} (hp : p = 96 + (16 * A + q)) := (past_head hp).trans
    (bitsAt_fieldBits_append _ _ (by rw [widthSum_map_const, hfreqs]) w)
  exact {
    last_eq := bitsAt_field [] _ rfl hlast
    mode_eq := bitsAt_field [(last, 8)] _ rfl (by decide)
    rot_eq := bitsAt_field [(last, 8), (0, 8)] _ rfl hrot
    alphabet_eq := bitsAt_field [(last, 8), (0, 8), (rot, 32)] _ rfl (by omega)
    nrec_eq := bitsAt_field [(last, 8), (0, 8), (rot, 32), (A, 16)] _ rfl hnrec
    freq_eq := fun q hq => (past_head (by omega)).trans (bitsAt_run id _ 0 (hq.trans_eq hfreqs.symm) hfreq)
    toff_eq := (past_table (q := 0) (by omega)).trans (bitsAt_field [] _ rfl htoff)
    final_eq := (past_table (q := 8) (by omega)).trans (bitsAt_field [(c.toff, 8)] _ rfl hfinal)
    clen_eq := (past_table (q := 40) (by omega)).trans (bitsAt_field [(c.toff, 8), (c.final, 32)] _ rfl hclen)
    coded_eq := fun k hk => (past_table (q := 72 + 8 * k) (by omega)).trans <|
      (bitsAt_fieldBits_append _ _ rfl 8).trans (bitsAt_byteFields hk) }

/-- A raw frame holds its fields where R112 puts them. -/
theorem holdsRawFrame_rawFields {last rot : Nat} {r : List Byte} (hlast : last < 2 ^ 8) (hrot : rot < 2 ^ 32)
    (hnrec : r.length < 2 ^ 32) : HoldsRawFrame (fieldBits (rawFields last rot r)) last rot r where
  last_eq := bitsAt_field [] _ rfl hlast
  mode_eq := bitsAt_field [(last, 8)] _ rfl (by decide)
  rot_eq := bitsAt_field [(last, 8), (1, 8)] _ rfl hrot
  nrec_eq := bitsAt_field [(last, 8), (1, 8), (rot, 32)] _ rfl hnrec
  recoded_eq := fun _ hk => (bitsAt_fieldBits_append _ _ (Nat.mul_add ..) 8).trans (bitsAt_byteFields hk)

/-! ### The frame that is built (R321 to R323) -/

theorem denseAlphabet_le (d : List Byte) : denseAlphabet d ≤ 256 := by
  rw [denseAlphabet]
  by_cases h : symbols d = []
  · rw [h]
    decide
  · obtain ⟨v, -, hv⟩ := List.mem_map.1 (maxOf_mem h)
    exact hv ▸ v.isLt

theorem lt_denseAlphabet {d : List Byte} : ∀ v ∈ symbols d, v < denseAlphabet d :=
  fun _ hv => Nat.lt_succ_of_le (le_maxOf hv)

theorem recodedBlock_length_le (b : List Byte) : (recodedBlock b).1.length ≤ b.length + b.length / 4 := by
  have h := rleEncode_length_le (mtfEncode (forward b).1)
  rwa [mtfEncode_length, forward_length] at h

theorem recodedBlock_snd_le (b : List Byte) : (recodedBlock b).2 ≤ b.length := rowOf_le (Nat.zero_le _)

section
variable (b : List Byte) (last : Bool)

/-- What the coder makes of the recoded block (R322). -/
abbrev codedBlock : Except ErrCode Coded := compress (symbols (recodedBlock b).1) (denseAlphabet (recodedBlock b).1)

/-- The coded bytes `c` make the shorter frame (R323). -/
abbrev CodesShorter (c : Coded) : Prop :=
  21 + 2 * denseAlphabet (recodedBlock b).1 + c.coded.length < 10 + (recodedBlock b).1.length

/-- The entropy-coded frame of a block (R321). -/
def entropyFrame (c : Coded) : FrameImage :=
  { fields :=
      entropyFields last.toNat (recodedBlock b).2 (denseAlphabet (recodedBlock b).1) (recodedBlock b).1.length c
    why := 0
    rot := (recodedBlock b).2
    nrec := (recodedBlock b).1.length
    clen := c.coded.length }

/-- The raw frame of a block, for the reason `why` (R321). -/
def rawFrame (why : Nat) : FrameImage := rawImage last.toNat (recodedBlock b).2 (recodedBlock b).1 why

theorem frameBuild_forced : frameBuild b last true = rawFrame b last 1 := rfl

variable {b}

theorem frameBuild_of_error {e : ErrCode} (h : codedBlock b = .error e) : frameBuild b last false = rawFrame b last 2 := by
  simp only [frameBuild, Bool.false_eq_true, if_false, h]
  rfl

theorem frameBuild_of_ok {c : Coded} (h : codedBlock b = .ok c) :
    frameBuild b last false = if CodesShorter b c then entropyFrame b last c else rawFrame b last 3 := by
  simp only [frameBuild, Bool.false_eq_true, if_false, h]
  rfl

variable (b)

/-- The frame is the entropy-coded one, which is the shorter, or it is raw for one of three reasons (R323). -/
theorem frameBuild_cases (forceRaw : Bool) :
    (∃ c, codedBlock b = .ok c ∧ CodesShorter b c ∧ frameBuild b last forceRaw = entropyFrame b last c) ∨
    ∃ why, why ≠ 0 ∧ why ≤ 3 ∧ frameBuild b last forceRaw = rawFrame b last why := by
  cases forceRaw with
  | true => exact .inr ⟨1, by decide, by decide, frameBuild_forced b last⟩
  | false =>
    cases hc : codedBlock b with
    | error e => exact .inr ⟨2, by decide, by decide, frameBuild_of_error last hc⟩
    | ok c =>
      by_cases hshort : CodesShorter b c
      · exact .inl ⟨c, rfl, hshort, (frameBuild_of_ok last hc).trans (if_pos hshort)⟩
      · exact .inr ⟨3, by decide, by decide, (frameBuild_of_ok last hc).trans (if_neg hshort)⟩

theorem widthSum_rawFrame (why : Nat) : widthSum (rawFrame b last why).fields = 8 * (10 + (recodedBlock b).1.length) :=
  widthSum_rawFields ..

variable {b}

theorem widthSum_entropyFrame {c : Coded} (hc : codedBlock b = .ok c) : widthSum (entropyFrame b last c).fields =
    8 * (21 + 2 * denseAlphabet (recodedBlock b).1 + c.coded.length) :=
  widthSum_entropyFields (compress_freq_length hc) ..

theorem holdsRawFrame_rawFrame (hb : b.length ≤ 2 ^ 31) (why : Nat) :
    HoldsRawFrame (fieldBits (rawFrame b last why).fields) last.toNat (recodedBlock b).2 (recodedBlock b).1 := by
  have hlen := recodedBlock_length_le b
  have hrot := recodedBlock_snd_le b
  exact holdsRawFrame_rawFields (last.toNat_lt.trans (by decide)) (by omega) (by omega)

theorem holdsEntropyFrame_entropyFrame (hb : b.length ≤ 2 ^ 31) {c : Coded} (hc : codedBlock b = .ok c)
    (hshort : CodesShorter b c) :
    HoldsEntropyFrame (fieldBits (entropyFrame b last c).fields) last.toNat (recodedBlock b).2
      (denseAlphabet (recodedBlock b).1) (recodedBlock b).1.length c := by
  have hlen := recodedBlock_length_le b
  have hrot := recodedBlock_snd_le b
  exact holdsEntropyFrame_of_compress (Nat.le_add_left 1 _) (denseAlphabet_le _) lt_denseAlphabet hc
    (last.toNat_lt.trans (by decide)) (by omega) (by omega) (by omega)

end

/-- Settles O58: the three reasons of R323 for a raw frame, and the fields of either frame, each at its place. -/
theorem frameModeIsTheShorter : Obligations.FrameModeIsTheShorter := by
  intro b last forceRaw r rot A image value
  refine ⟨fun hforce => ?_, fun hforce e he => ?_, fun hforce c hc => ?_, ?_⟩
  · subst hforce
    rfl
  · subst hforce
    exact congrArg FrameImage.why (frameBuild_of_error last he)
  · subst hforce
    exact (congrArg FrameImage.why (frameBuild_of_ok last hc)).trans (apply_ite ..)
  dsimp only [value, image]
  rcases frameBuild_cases b last forceRaw with ⟨c, hc, hshort, himage⟩ | ⟨why, hwhy, -, himage⟩ <;>
    rw [himage, fieldBits_length]
  · refine ⟨rfl, rfl, fun _ => ⟨c, hc, widthSum_entropyFrame last hc, rfl, fun hb => ?_⟩, fun hne => absurd rfl hne⟩
    have h := holdsEntropyFrame_entropyFrame last hb hc hshort
    exact ⟨h.last_eq, h.mode_eq, h.rot_eq, h.alphabet_eq, h.nrec_eq, h.freq_eq, h.toff_eq, h.final_eq, h.clen_eq,
      h.coded_eq⟩
  · refine ⟨rfl, rfl, fun hzero => absurd hzero hwhy, fun _ => ⟨widthSum_rawFrame b last why, rfl, fun hb => ?_⟩⟩
    have h := holdsRawFrame_rawFrame last hb why
    exact ⟨h.last_eq, h.mode_eq, h.rot_eq, h.nrec_eq, h.recoded_eq⟩

end Sys2Proof.Machine
end

section
/-! PROOFS. Reading a frame (47_frame.md R325, R342): its fields are checked in their order, at the places of R110, then the
recoded block and the block; and what is built decodes to what it was built from (R326). -/

namespace Sys2Proof.Machine

/-! ### The fields as they are read (R325, 30_encoding.md R113) -/

section
variable (s : State) {α : Type}

/-- A field is read and what follows it done, or it lies past the limit. -/
theorem State.takeField_bind (limit w p : Nat) (f : Nat × Nat → Except ErrCode α) :
    s.takeField limit w p >>= f = if limit < p + w then .error .truncated else f (s.readField p w, p + w) := by
  unfold State.takeField
  split <;> rfl

/-- The values of `n` fields of width `w` from bit `p` on. -/
def State.readRun (p w n : Nat) : List Nat := (List.range n).map fun i => s.readField (p + w * i) w

theorem State.readRun_succ (p w n : Nat) : s.readRun p w (n + 1) = s.readField p w :: s.readRun (p + w) w n := by
  simp only [State.readRun, List.range_succ_eq_map, List.map_cons, List.map_map, Nat.mul_zero, Nat.add_zero]
  congr 2
  funext i
  simp only [Function.comp_apply, Nat.mul_succ]
  rw [Nat.add_assoc, Nat.add_comm w]

theorem State.takeFields_eq {limit w p : Nat} (n : Nat) (hp : p ≤ limit) :
    s.takeFields limit w n p = if limit < p + w * n then .error .truncated else .ok (s.readRun p w n, p + w * n) := by
  induction n generalizing p with
  | zero => exact (if_neg (Nat.not_lt.2 hp)).symm
  | succ n ih =>
    rw [Nat.mul_succ, s.readRun_succ, State.takeFields, State.takeField]
    by_cases hfield : limit < p + w
    · rw [if_pos hfield, if_pos (by omega)]
    · rw [if_neg hfield]
      dsimp only
      rw [ih (Nat.not_lt.1 hfield), Nat.add_comm (w * n), ← Nat.add_assoc]
      by_cases hrest : limit < p + w + w * n
      · rw [if_pos hrest, if_pos hrest]
      · rw [if_neg hrest, if_neg hrest]

/-- A run of fields is read and what follows it done, or its end lies past the limit. -/
theorem State.takeFields_bind {limit p : Nat} (w n : Nat) (hp : p ≤ limit) (f : List Nat × Nat → Except ErrCode α) :
    s.takeFields limit w n p >>= f =
      if limit < p + w * n then .error .truncated else f (s.readRun p w n, p + w * n) := by
  rw [s.takeFields_eq n hp]
  split <;> rfl

end

/-! ### A frame by its places (R110, R342 rows 1 to 5) -/

section
variable (s : State) (limit p : Nat)

/-- The head of a frame, and the rest by its mode. -/
theorem State.parseFrame_eq : s.parseFrame limit p =
    if limit < p + 8 then .error .truncated
    else if 1 < s.readField p 8 then .error .lastFlag
    else if limit < p + 16 then .error .truncated
    else if 1 < s.readField (p + 8) 8 then .error .modeTag
    else if limit < p + 48 then .error .truncated
    else (if s.readField (p + 8) 8 = 0 then s.parseEntropy limit (p + 48) else s.parseRaw limit (p + 48)) >>= fun r =>
      .ok { last := s.readField p 8, rot := s.readField (p + 16) 32, body := r.1, pos := r.2 } := by
  conv_lhs => simp only [State.parseFrame, State.takeField_bind, Nat.add_assoc, Nat.reduceAdd]
  refine ite_congr rfl (fun _ => rfl) fun _ => ite_congr rfl (fun _ => rfl) fun _ =>
    ite_congr rfl (fun _ => rfl) fun _ => ite_congr rfl (fun _ => rfl) fun _ => ite_congr rfl (fun _ => rfl) fun _ => ?_
  by_cases hmode : s.readField (p + 8) 8 = 0
  · rw [if_pos hmode, if_pos hmode]
  · rw [if_neg hmode, if_neg hmode]

/-- The rest of a raw frame. -/
theorem State.parseRaw_eq : s.parseRaw limit (p + 48) =
    if limit < p + 80 then .error .truncated
    else if s.maxRecoded < s.readField (p + 48) 32 then .error .frameField
    else if limit < p + 80 + 8 * s.readField (p + 48) 32 then .error .truncated
    else .ok (.raw ((s.readRun (p + 80) 8 (s.readField (p + 48) 32)).map (BitVec.ofNat 8)),
      p + 80 + 8 * s.readField (p + 48) 32) := by
  conv_lhs => simp only [State.parseRaw, State.takeField_bind, Nat.add_assoc, Nat.reduceAdd]
  refine ite_congr rfl (fun _ => rfl) fun hp => ite_congr rfl (fun _ => rfl) fun _ => ?_
  rw [s.takeFields_bind 8 _ (Nat.not_lt.1 hp)]

/-- The rest of an entropy-coded frame. -/
theorem State.parseEntropy_eq : s.parseEntropy limit (p + 48) =
    let A := s.readField (p + 48) 16
    let nrec := s.readField (p + 64) 32
    let C := s.readField (p + 136 + 16 * A) 32
    if limit < p + 64 then .error .truncated
    else if A = 0 ∨ 256 < A then .error .frameField
    else if limit < p + 96 then .error .truncated
    else if nrec = 0 ∨ s.maxRecoded < nrec then .error .frameField
    else if limit < p + 168 + 16 * A then .error .truncated
    else if limit < p + 168 + 16 * A + 8 * C then .error .truncated
    else .ok (.entropy A nrec (s.readRun (p + 96) 16 A) (s.readField (p + 96 + 16 * A) 8)
      (s.readField (p + 104 + 16 * A) 32) ((s.readRun (p + 168 + 16 * A) 8 C).map (BitVec.ofNat 8)),
      p + 168 + 16 * A + 8 * C) := by
  conv_lhs => simp only [State.parseEntropy, State.takeField_bind, Nat.add_assoc, Nat.reduceAdd]
  refine ite_congr rfl (fun _ => rfl) fun _ => ite_congr rfl (fun _ => rfl) fun _ =>
    ite_congr rfl (fun _ => rfl) fun hp => ite_congr rfl (fun _ => rfl) fun _ => ?_
  rw [s.takeFields_bind 16 _ (Nat.not_lt.1 hp)]
  generalize s.readField (p + 48) 16 = A
  have places (k : Nat) : p + 96 + 16 * A + k = p + (96 + k) + 16 * A := by omega
  by_cases hshort : limit < p + 168 + 16 * A
  · rw [if_pos hshort]
    exact ite_eq_left_iff.2 fun _ => ite_eq_left_iff.2 fun _ => ite_eq_left_iff.2 fun _ => if_pos (by dsimp only; omega)
  · dsimp only
    rw [if_neg hshort, if_neg (by omega), if_neg (by omega), if_neg (by omega), if_neg (by omega)]
    simp only [places, Nat.reduceAdd]
    rw [s.takeFields_bind 8 _ (Nat.not_lt.1 hshort)]

variable {s limit p} (hp : p + 48 ≤ limit) (hlast : s.readField p 8 ≤ 1)
include hp hlast

theorem State.parseFrame_of_entropy (hmode : s.readField (p + 8) 8 = 0) :
    s.parseFrame limit p = s.parseEntropy limit (p + 48) >>= fun r =>
      .ok { last := s.readField p 8, rot := s.readField (p + 16) 32, body := r.1, pos := r.2 } := by
  rw [s.parseFrame_eq, if_neg (by omega), if_neg (by omega), if_neg (by omega), if_neg (by omega), if_neg (by omega),
    if_pos hmode]

theorem State.parseFrame_of_raw (hmode : s.readField (p + 8) 8 = 1) :
    s.parseFrame limit p = s.parseRaw limit (p + 48) >>= fun r =>
      .ok { last := s.readField p 8, rot := s.readField (p + 16) 32, body := r.1, pos := r.2 } := by
  rw [s.parseFrame_eq, if_neg (by omega), if_neg (by omega), if_neg (by omega), if_neg (by omega), if_neg (by omega),
    if_neg (by omega)]

/-- An entropy-coded frame whose fields pass (R110, R111). -/
theorem State.parseFrame_entropy_eq_ok {A nrec C : Nat} (hmode : s.readField (p + 8) 8 = 0)
    (hA : s.readField (p + 48) 16 = A) (hA1 : 1 ≤ A) (hA2 : A ≤ 256) (hnrec : s.readField (p + 64) 32 = nrec)
    (hnrec1 : 1 ≤ nrec) (hnrec2 : nrec ≤ s.maxRecoded) (hC : s.readField (p + 136 + 16 * A) 32 = C)
    (hend : p + 168 + 16 * A + 8 * C ≤ limit) :
    s.parseFrame limit p = .ok {
      last := s.readField p 8
      rot := s.readField (p + 16) 32
      body := .entropy A nrec (s.readRun (p + 96) 16 A) (s.readField (p + 96 + 16 * A) 8)
        (s.readField (p + 104 + 16 * A) 32) ((s.readRun (p + 168 + 16 * A) 8 C).map (BitVec.ofNat 8))
      pos := p + 168 + 16 * A + 8 * C } := by
  subst hA hnrec hC
  rw [State.parseFrame_of_entropy hp hlast hmode, s.parseEntropy_eq]
  dsimp only
  rw [if_neg (by omega), if_neg (by omega), if_neg (by omega), if_neg (by omega), if_neg (by omega), if_neg (by omega)]
  rfl

/-- A raw frame whose fields pass (R110, R112). -/
theorem State.parseFrame_raw_eq_ok {nrec : Nat} (hmode : s.readField (p + 8) 8 = 1)
    (hnrec : s.readField (p + 48) 32 = nrec) (hmax : nrec ≤ s.maxRecoded) (hend : p + 80 + 8 * nrec ≤ limit) :
    s.parseFrame limit p = .ok {
      last := s.readField p 8
      rot := s.readField (p + 16) 32
      body := .raw ((s.readRun (p + 80) 8 nrec).map (BitVec.ofNat 8))
      pos := p + 80 + 8 * nrec } := by
  subst hnrec
  rw [State.parseFrame_of_raw hp hlast hmode, s.parseRaw_eq, if_neg (by omega), if_neg (by omega), if_neg (by omega)]
  rfl

end

/-! ### From the recoded block to the block (R325, R342 rows 12 to 15) -/

theorem State.frameDecode_of_error {s : State} {limit p : Nat} {e : ErrCode} (h : s.parseFrame limit p = .error e)
    (dcap : Nat) : s.frameDecode limit p dcap = .error e := by
  rw [State.frameDecode, h]
  rfl

section
variable {s : State} {limit p : Nat} {frame : FrameRead} (hframe : s.parseFrame limit p = .ok frame) (dcap : Nat)
include hframe

/-- Past the fields, the entropy decoder and the restoring of the block remain. -/
theorem State.frameDecode_of_frame : s.frameDecode limit p dcap = frame.body.recoded >>= fun r =>
    restoreBlock s.cfg.maxBlock dcap frame.rot r >>= fun x => .ok (frame, x) := by
  rw [State.frameDecode, hframe]
  rfl

theorem State.frameDecode_of_recoded_error {e : ErrCode} (h : frame.body.recoded = .error e) :
    s.frameDecode limit p dcap = .error e := by
  rw [State.frameDecode_of_frame hframe, h]
  rfl

theorem State.frameDecode_of_recoded {r : List Byte} (h : frame.body.recoded = .ok r) :
    s.frameDecode limit p dcap = restoreBlock s.cfg.maxBlock dcap frame.rot r >>= fun x => .ok (frame, x) := by
  rw [State.frameDecode_of_frame hframe, h]
  rfl

end

/-- Past its first three checks only the inverse transform can stop a block. -/
theorem restoreBlock_of_fits {maxBlock dcap rot : Nat} {r : List Byte} (hmax : (rleDecode r).length ≤ maxBlock)
    (hrot : rot ≤ (rleDecode r).length) (hcap : (rleDecode r).length ≤ dcap) :
    restoreBlock maxBlock dcap rot r = (inverse (mtfDecode (rleDecode r)) rot).elim (.error .bwtCycle) .ok := by
  rw [restoreBlock, if_neg (Nat.not_lt.2 hmax), if_neg (Nat.not_lt.2 hrot), if_neg (Nat.not_lt.2 hcap)]
  cases inverse (mtfDecode (rleDecode r)) rot <;> rfl

/-- Settles O43: the conditions of `State.parseFrame_eq`, `State.parseEntropy_eq` and `State.parseRaw_eq` in turn, then what
stops the decoding. -/
theorem frameFieldsAreCheckedInOrder : Obligations.FrameFieldsAreCheckedInOrder := by
  constructor
  · intro s limit p maxRecoded last mode
    have hmax : s.maxRecoded = maxRecoded := rfl
    refine ⟨fun h => ?_, fun h1 h2 => ?_, fun h1 h2 h3 => ?_, fun h1 h2 h3 => ?_, fun h1 h2 h3 h4 => ?_,
      fun hp hlast hmode => ?_, fun hp hlast hmode => ?_⟩
    · rw [s.parseFrame_eq, if_pos h]
    · rw [s.parseFrame_eq, if_neg (by omega), if_pos h2]
    · rw [s.parseFrame_eq, if_neg (by omega), if_neg (by omega), if_pos h3]
    · rw [s.parseFrame_eq, if_neg (by omega), if_neg (by omega), if_neg (by omega), if_pos h3]
    · rw [s.parseFrame_eq, if_neg (by omega), if_neg (by omega), if_neg (by omega), if_neg (by omega), if_pos h4]
    · intro A nrec C
      have hparse := State.parseFrame_of_entropy hp hlast hmode
      rw [s.parseEntropy_eq] at hparse
      refine ⟨fun h => ?_, fun h64 hbad => ?_, fun h64 hA1 hA2 => ⟨fun h => ?_, fun h96 hbad => ?_,
        fun h96 hnrec1 hnrec2 => ⟨fun h => ?_, fun h1 h2 => ?_, fun hend => ?_⟩⟩⟩
      · rw [hparse, if_pos h]
        rfl
      · rw [hparse, if_neg (by omega), if_pos hbad]
        rfl
      · rw [hparse, if_neg (by omega), if_neg (by omega), if_pos h]
        rfl
      · rw [hparse, if_neg (by omega), if_neg (by omega), if_neg (by omega), if_pos (by omega)]
        rfl
      · rw [hparse, if_neg (by omega), if_neg (by omega), if_neg (by omega), if_neg (by omega), if_pos h]
        rfl
      · rw [hparse, if_neg (by omega), if_neg (by omega), if_neg (by omega), if_neg (by omega), if_neg (by omega),
          if_pos h2]
        rfl
      · rw [State.parseFrame_entropy_eq_ok hp hlast hmode rfl hA1 hA2 rfl hnrec1 hnrec2 rfl hend]
        simp only [State.readRun, List.map_map]
        rfl
    · intro nrec
      have hparse := State.parseFrame_of_raw hp hlast hmode
      rw [s.parseRaw_eq] at hparse
      refine ⟨fun h => ?_, fun h80 hbad => ?_, fun h80 hnrec h => ?_, fun hnrec hend => ?_⟩
      · rw [hparse, if_pos h]
        rfl
      · rw [hparse, if_neg (by omega), if_pos (by omega)]
        rfl
      · rw [hparse, if_neg (by omega), if_neg (by omega), if_pos h]
        rfl
      · rw [State.parseFrame_raw_eq_ok hp hlast hmode rfl hnrec hend]
        simp only [State.readRun, List.map_map]
        rfl
  · intro s limit p dcap
    refine ⟨fun e he => State.frameDecode_of_error he dcap, fun frame hframe => ⟨?_, ?_⟩⟩
    · intro A nrec freq toff final coded hbody e he
      exact State.frameDecode_of_recoded_error hframe dcap (by rw [hbody]; exact he)
    · intro r hr
      have hrecoded : frame.body.recoded = .ok r := by
        rcases hr with hraw | ⟨A, nrec, freq, toff, final, coded, hbody, hdecoded⟩
        · rw [hraw]
          rfl
        · rw [hbody]
          exact hdecoded
      rw [State.frameDecode_of_recoded hframe dcap hrecoded]
      refine ⟨fun hmax => ?_, fun hmax hrot => ?_, fun hmax hrot => ⟨fun hcap => ?_, fun hcap hinv => ?_,
        fun x hcap hinv => ?_⟩⟩
      · rw [restoreBlock, if_pos hmax]
        rfl
      · rw [restoreBlock, if_neg (Nat.not_lt.2 hmax), if_pos hrot]
        rfl
      · rw [restoreBlock, if_neg (Nat.not_lt.2 hmax), if_neg (Nat.not_lt.2 hrot), if_pos hcap]
        rfl
      · rw [restoreBlock_of_fits hmax hrot hcap, hinv]
        rfl
      · rw [restoreBlock_of_fits hmax hrot hcap, hinv]
        rfl

/-! ### A frame decodes to the block it was built from (R326) -/

/-- The pipeline back undoes the pipeline (R320, R325). -/
theorem restoreBlock_recodedBlock {b : List Byte} {maxBlock dcap : Nat} (hmax : b.length ≤ maxBlock)
    (hcap : b.length ≤ dcap) : restoreBlock maxBlock dcap (recodedBlock b).2 (recodedBlock b).1 = .ok b := by
  have hdecode : rleDecode (recodedBlock b).1 = mtfEncode (forward b).1 := rleDecode_rleEncode _
  have hlen : (rleDecode (recodedBlock b).1).length = b.length := by rw [hdecode, mtfEncode_length, forward_length]
  obtain ⟨hmtf, -⟩ := mtfDecodeUndoesEncode
  obtain ⟨hinverse, -⟩ := inverseUndoesForward b
  have hblock : inverse (mtfDecode (rleDecode (recodedBlock b).1)) (recodedBlock b).2 = some b := by
    rw [hdecode, hmtf]
    exact hinverse
  rw [restoreBlock_of_fits (hlen.trans_le hmax) ((recodedBlock_snd_le b).trans_eq hlen.symm) (hlen.trans_le hcap), hblock]
  rfl

theorem map_ofNat_symbols (bs : List Byte) : (symbols bs).map (BitVec.ofNat 8) = bs := by
  rw [symbols, List.map_map]
  exact (List.map_congr_left fun b _ => ofNat_toNat_byte b).trans (List.map_id _)

/-- The coder back undoes the coder (R277). -/
theorem FrameBody.recoded_of_compress {r : List Byte} {c : Coded} (hc : compress (symbols r) (denseAlphabet r) = .ok c) :
    (FrameBody.entropy (denseAlphabet r) r.length c.freq c.toff c.final c.coded).recoded = .ok r := by
  have h := decompress_of_compress (Nat.le_add_left 1 _) (denseAlphabet_le r) lt_denseAlphabet hc
  rwa [map_ofNat_symbols, symbols, List.length_map] at h

section
variable {s : State} {p : Nat}

theorem State.readRun_eq {w n : Nat} {vs : List Nat} (hlen : vs.length = n)
    (h : ∀ i < n, s.readField (p + w * i) w = vs.getD i 0) : s.readRun p w n = vs := by
  refine List.ext_getElem (by simp [State.readRun, hlen]) fun i h1 h2 => ?_
  rw [← List.getD_eq_getElem _ 0 h2, ← h i (hlen ▸ h2)]
  simp [State.readRun]

/-- A run of 8-bit fields read back as bytes. -/
theorem State.map_ofNat_readRun {bs : List Byte}
    (h : ∀ i < bs.length, s.readField (p + 8 * i) 8 = (bs.getD i 0).toNat) :
    (s.readRun p 8 bs.length).map (BitVec.ofNat 8) = bs := by
  have hrun : s.readRun p 8 bs.length = symbols bs := State.readRun_eq (List.length_map _) fun i hi => by
    rw [h i hi]
    simp [symbols, hi]
  rw [hrun, map_ofNat_symbols]

/-- From bit `p` on DMEM holds the first `n` of these bits. -/
def State.ReadsBits (s : State) (p n : Nat) (bits : List Bool) : Prop :=
  ∀ q w, q + w ≤ n → s.readField (p + q) w = bitsAt bits q w

theorem State.readsBits_writeFields (s : State) (p : Nat) {fs : List (Nat × Nat)} {n : Nat} (hn : widthSum fs = n) :
    (s.writeFields p fs).ReadsBits p n (fieldBits fs) := fun _ _ hq => s.readField_writeFields p (hn ▸ hq)

theorem State.ReadsBits.readField_eq {n : Nat} {bits : List Bool} (h : s.ReadsBits p n bits) {v q w : Nat}
    (hv : bitsAt bits q w = v) (k : Nat) (hk : k = p + q) (hq : q + w ≤ n) : s.readField k w = v := by
  rw [hk, h q w hq, hv]

variable {limit : Nat} {bits : List Bool}

/-- What is read of an entropy-coded frame at `p` (R110, R111). -/
theorem State.parseFrame_of_holdsEntropyFrame {last rot A nrec : Nat} {c : Coded}
    (h : HoldsEntropyFrame bits last rot A nrec c) (hbits : s.ReadsBits p (8 * (21 + 2 * A + c.coded.length)) bits)
    (hlast : last ≤ 1) (hA1 : 1 ≤ A) (hA2 : A ≤ 256) (hfreq : c.freq.length = A) (hnrec1 : 1 ≤ nrec)
    (hnrec2 : nrec ≤ s.maxRecoded) (hend : p + 8 * (21 + 2 * A + c.coded.length) ≤ limit) :
    s.parseFrame limit p = .ok {
      last := last, rot := rot, body := .entropy A nrec c.freq c.toff c.final c.coded
      pos := p + 8 * (21 + 2 * A + c.coded.length) } := by
  have hlast' := hbits.readField_eq h.last_eq p rfl (by omega)
  have hmode := hbits.readField_eq h.mode_eq _ rfl (by omega)
  have hrot := hbits.readField_eq h.rot_eq _ rfl (by omega)
  have hA := hbits.readField_eq h.alphabet_eq _ rfl (by omega)
  have hnrec := hbits.readField_eq h.nrec_eq _ rfl (by omega)
  have hfreqs : s.readRun (p + 96) 16 A = c.freq :=
    State.readRun_eq hfreq fun q hq => hbits.readField_eq (h.freq_eq q hq) _ (by omega) (by omega)
  have htoff := hbits.readField_eq h.toff_eq (p + 96 + 16 * A) (by omega) (by omega)
  have hfinal := hbits.readField_eq h.final_eq (p + 104 + 16 * A) (by omega) (by omega)
  have hclen := hbits.readField_eq h.clen_eq (p + 136 + 16 * A) (by omega) (by omega)
  have hcoded : (s.readRun (p + 168 + 16 * A) 8 c.coded.length).map (BitVec.ofNat 8) = c.coded :=
    State.map_ofNat_readRun fun k hk => hbits.readField_eq (h.coded_eq k hk) _ (by omega) (by omega)
  rw [State.parseFrame_entropy_eq_ok (by omega) (hlast'.trans_le hlast) hmode hA hA1 hA2 hnrec hnrec1 hnrec2 hclen
    (by omega), hlast', hrot, hfreqs, htoff, hfinal, hcoded,
    show p + 168 + 16 * A + 8 * c.coded.length = p + 8 * (21 + 2 * A + c.coded.length) by omega]

/-- What is read of a raw frame at `p` (R110, R112). -/
theorem State.parseFrame_of_holdsRawFrame {last rot : Nat} {r : List Byte} (h : HoldsRawFrame bits last rot r)
    (hbits : s.ReadsBits p (8 * (10 + r.length)) bits) (hlast : last ≤ 1) (hmax : r.length ≤ s.maxRecoded)
    (hend : p + 8 * (10 + r.length) ≤ limit) :
    s.parseFrame limit p = .ok { last := last, rot := rot, body := .raw r, pos := p + 8 * (10 + r.length) } := by
  have hlast' := hbits.readField_eq h.last_eq p rfl (by omega)
  have hmode := hbits.readField_eq h.mode_eq _ rfl (by omega)
  have hrot := hbits.readField_eq h.rot_eq _ rfl (by omega)
  have hnrec := hbits.readField_eq h.nrec_eq _ rfl (by omega)
  have hrecoded : (s.readRun (p + 80) 8 r.length).map (BitVec.ofNat 8) = r :=
    State.map_ofNat_readRun fun k hk => hbits.readField_eq (h.recoded_eq k hk) _ (by omega) (by omega)
  rw [State.parseFrame_raw_eq_ok (by omega) (hlast'.trans_le hlast) hmode hnrec hmax (by omega), hlast', hrot, hrecoded,
    show p + 80 + 8 * r.length = p + 8 * (10 + r.length) by omega]

end

@[simp] theorem State.writeFields_cfg (s : State) (p : Nat) (fs : List (Nat × Nat)) :
    (s.writeFields p fs).cfg = s.cfg := by
  rw [State.writeFields_eq]

/-- Settles O60: the fields written are the fields read, and each stage of the pipeline undoes its counterpart. -/
theorem frameRoundTrip : Obligations.FrameRoundTrip := by
  intro s b last forceRaw p limit dcap ⟨_, ⟨_, hmaxBlock⟩, _⟩ hmax hcap
  have hb : b.length ≤ 2 ^ 31 := hmax.trans hmaxBlock
  have hlast : last.toNat ≤ 1 := Nat.le_of_lt_succ last.toNat_lt
  have hcases := frameBuild_cases b last forceRaw
  generalize frameBuild b last forceRaw = image at hcases ⊢
  dsimp only
  rw [fieldBits_length]
  intro hend
  have hnrec : (recodedBlock b).1.length ≤ (s.writeFields p image.fields).maxRecoded := by
    have := recodedBlock_length_le b
    rw [State.maxRecoded, State.writeFields_cfg]
    omega
  have hdecode {frame : FrameRead} (hframe : (s.writeFields p image.fields).parseFrame limit p = .ok frame)
      (hrot : frame.rot = (recodedBlock b).2) (hrecoded : frame.body.recoded = .ok (recodedBlock b).1) :
      (s.writeFields p image.fields).frameDecode limit p dcap = .ok (frame, b) := by
    rw [State.frameDecode_of_recoded hframe dcap hrecoded, State.writeFields_cfg, hrot,
      restoreBlock_recodedBlock hmax hcap]
    rfl
  rcases hcases with ⟨c, hc, hshort, rfl⟩ | ⟨why, hwhy, -, rfl⟩
  · have hwidth := widthSum_entropyFrame last hc
    rw [hwidth] at hend ⊢
    have hframe := State.parseFrame_of_holdsEntropyFrame (holdsEntropyFrame_entropyFrame last hb hc hshort)
      (s.readsBits_writeFields p hwidth) hlast (Nat.le_add_left 1 _) (denseAlphabet_le _) (compress_freq_length hc)
      (by omega) hnrec hend
    exact ⟨_, hdecode hframe rfl (FrameBody.recoded_of_compress hc), rfl, rfl, rfl, rfl, rfl, rfl⟩
  · have hwidth := widthSum_rawFrame b last why
    rw [hwidth] at hend ⊢
    have hframe := State.parseFrame_of_holdsRawFrame (holdsRawFrame_rawFrame last hb why)
      (s.readsBits_writeFields p hwidth) hlast hnrec hend
    exact ⟨_, hdecode hframe rfl rfl, rfl, rfl, (decide_eq_true hwhy).symm, rfl, rfl, rfl⟩

end Sys2Proof.Machine
end

section
/-! PROOFS. The two frame commands (47_frame.md R330, R340): their checks in their order, and what a completed command leaves. -/

namespace Sys2Proof.Machine

/-! ### The checks of both commands (R330, R340) -/

/-- The checks of a command on two ranges: its arguments, the ranges, their overlap. -/
def State.frameChecks (s : State) (badArgs : Bool) (p q : Span) : List (Bool × ErrCode) :=
  [(badArgs, .arg), (!s.valid p || !s.valid q, .range), (p.overlaps q, .overlap)]

section
variable {s : State} {badArgs : Bool} {p q : Span}

theorem State.frameChecks_arg (h : badArgs = true) : firstFailing (s.frameChecks badArgs p q) = some .arg :=
  firstFailing_cons_of_bad h _ _

theorem State.frameChecks_range (h : badArgs = false) (hrange : ¬(s.inDmem p.addr p.len ∧ s.inDmem q.addr q.len)) :
    firstFailing (s.frameChecks badArgs p q) = some .range := by
  refine (firstFailing_cons_of_good h _ _).trans (firstFailing_cons_of_bad ?_ _ _)
  rw [Bool.or_eq_true, State.not_valid_eq_true, State.not_valid_eq_true]
  exact not_and_or.1 hrange

variable (h : badArgs = false) (hp : s.inDmem p.addr p.len) (hq : s.inDmem q.addr q.len)
include h hp hq

theorem State.frameChecks_eq_overlap :
    firstFailing (s.frameChecks badArgs p q) = firstFailing [(p.overlaps q, .overlap)] :=
  (firstFailing_cons_of_good h _ _).trans (firstFailing_cons_of_good
    (Bool.or_eq_false_iff.2 ⟨State.not_valid_eq_false.2 hp, State.not_valid_eq_false.2 hq⟩) _ _)

theorem State.frameChecks_overlap (hover : ¬apart p.addr p.len q.addr q.len) :
    firstFailing (s.frameChecks badArgs p q) = some .overlap :=
  (State.frameChecks_eq_overlap h hp hq).trans (firstFailing_cons_of_bad (Span.overlaps_eq_true.2 hover) _ _)

theorem State.frameChecks_pass (hapart : apart p.addr p.len q.addr q.len) :
    firstFailing (s.frameChecks badArgs p q) = none :=
  (State.frameChecks_eq_overlap h hp hq).trans (firstFailing_cons_of_good ((Span.overlaps_eq_false ..).2 hapart) _ _)

end

/-! ### FRAME_ENC (R330) -/

/-- The arguments of FRAME_ENC are out of their ranges. -/
abbrev State.badEncArgs (s : State) : Bool := decide (s.cfg.maxBlock < s.srcSpan.len) || s.badWCursor

theorem State.badEncArgs_eq_true {s : State} : s.badEncArgs = true ↔
    s.cfg.maxBlock < s.args.slen.toNat ∨ 7 < s.args.wbit.toNat ∨ s.args.wlim.toNat < s.args.wptr.toNat := by
  rw [State.badEncArgs, State.badWCursor, Bool.or_eq_true, Bool.or_eq_true]
  simp only [decide_eq_true_eq]
  rfl

/-- What FRAME_ENC leaves when the frame fits. -/
def State.frameEncResult (s : State) (last : Bool) (image : FrameImage) : State :=
  (((((s.writeFields s.wCursor image.fields).setRegs
    { s.regs.setWCursor (s.wCursor + widthSum image.fields) with rot := Word.ofInt image.rot }).setRes
    { s.res with
      nrec := Word.ofInt image.nrec
      clen := Word.ofInt image.clen
      rlen := Word.ofInt (widthSum image.fields / 8) }).setFrame last (image.why != 0)).setRawwhy image.why).complete

section
variable {s : State} {last forceRaw : Bool}

theorem execFrameEnc_of_failing {e : ErrCode} (h : firstFailing (s.frameChecks s.badEncArgs s.srcSpan s.wSpan) = some e) :
    execFrameEnc last forceRaw s = s.raiseFault e := by
  rw [State.frameChecks] at h
  simp only [execFrameEnc, h]

/-- Past its checks, only the width of the frame decides (R330, R135). -/
theorem execFrameEnc_of_pass (h : firstFailing (s.frameChecks s.badEncArgs s.srcSpan s.wSpan) = none) :
    execFrameEnc last forceRaw s =
      if 8 * s.args.wlim.toNat < s.wCursor + widthSum (frameBuild s.block last forceRaw).fields then
        s.raiseFault .dstOverflow
      else .next (s.frameEncResult last (frameBuild s.block last forceRaw)) := by
  rw [State.frameChecks] at h
  simp only [execFrameEnc, h]
  rfl

end

theorem frameBuild_why_le (b : List Byte) (last forceRaw : Bool) : (frameBuild b last forceRaw).why ≤ 3 := by
  rcases frameBuild_cases b last forceRaw with ⟨c, -, -, h⟩ | ⟨why, -, hwhy, h⟩ <;> rw [h]
  · exact Nat.zero_le 3
  · exact hwhy

/-- FRAME_ENC completes, and MODE is 1 exactly for a raw frame (R330). -/
theorem State.frameEncResult_spec (s : State) (last : Bool) (image : FrameImage) :
    (s.frameEncResult last image).endedAs false false 0 ∧ s.keepsRest (s.frameEncResult last image) ∧
      (s.frameEncResult last image).status.mode = decide (image.why ≠ 0) := by
  rw [State.frameEncResult, State.writeFields_eq]
  refine ⟨⟨rfl, rfl, rfl, rfl, rfl⟩, ⟨rfl, rfl, rfl, rfl, rfl, rfl, rfl⟩, ?_⟩
  exact (congrArg not (Bool.beq_eq_decide_eq image.why 0)).trans decide_not.symm

/-- Settles O41: each check once those before it pass, then the bits of the fields and the registers. -/
theorem frameEncWritesFrame : Obligations.FrameEncWritesFrame := by
  intro last forceRaw s i
  have early {e : ErrCode} (h : firstFailing (s.frameChecks s.badEncArgs s.srcSpan s.wSpan) = some e) :
      s.earlyFault i e.code := State.earlyFault_of_exec (execFrameEnc_of_failing h)
  refine ⟨fun harg => early (State.frameChecks_arg (State.badEncArgs_eq_true.2 harg)), fun hlen hbit hlim => ?_⟩
  have hargs : s.badEncArgs = false := Bool.eq_false_iff.2 (mt State.badEncArgs_eq_true.1 (by omega))
  refine ⟨fun hrange => early (State.frameChecks_range hargs hrange), fun hsrc hw =>
    ⟨fun hover => early (State.frameChecks_overlap hargs hsrc hw hover), fun hapart => ?_⟩⟩
  have hexec := execFrameEnc_of_pass (last := last) (forceRaw := forceRaw) (State.frameChecks_pass hargs hsrc hw hapart)
  dsimp only
  rw [fieldBits_length]
  refine ⟨fun hlong => State.earlyFault_of_exec (i := i) (hexec.trans (if_pos hlong)), fun hfits => ?_⟩
  obtain ⟨hend, hrest, hmode⟩ := s.frameEncResult_spec last (frameBuild s.block last forceRaw)
  exact ⟨_, hexec.trans (if_neg (Nat.not_lt.2 hfits)), hend, hrest, fun k hk => s.getBit_writeFields _ hk,
    fun q hq => s.getBit_writeFields_outside hq, rfl, rfl, rfl, hmode,
    (BitVec.toNat_ofNat ..).trans (Nat.mod_eq_of_lt (Nat.lt_succ_of_le (frameBuild_why_le ..)))⟩

/-! ### FRAME_DEC (R340) -/

theorem State.badRCursor_eq_true {s : State} :
    s.badRCursor = true ↔ 7 < s.args.rbit.toNat ∨ s.args.rlim.toNat < s.args.rptr.toNat := by simp [State.badRCursor]

/-- What FRAME_DEC leaves when the frame decodes to the block `x`. -/
def State.frameDecResult (s : State) (frame : FrameRead) (x : List Byte) : State :=
  ((((s.memWrite s.args.dst.toNat x).setRegs { s.regs.setRCursor frame.pos with rot := Word.ofInt frame.rot }).setRes
    { s.res with
      nrec := Word.ofInt frame.body.nrec
      clen := Word.ofInt frame.body.clen
      rlen := Word.ofInt x.length }).setFrame (frame.last == 1) frame.body.mode).complete

/-- What the frame at the read cursor decodes to (R325). -/
abbrev State.decodedFrame (s : State) : Except ErrCode (FrameRead × List Byte) :=
  s.frameDecode (8 * s.args.rlim.toNat) s.rCursor s.dstSpan.len

theorem execFrameDec_of_failing {s : State} {e : ErrCode}
    (h : firstFailing (s.frameChecks s.badRCursor s.rSpan s.dstSpan) = some e) : execFrameDec s = s.raiseFault e := by
  rw [State.frameChecks] at h
  simp only [execFrameDec, h]

/-- Past its checks FRAME_DEC ends as the frame decodes. -/
theorem execFrameDec_of_pass {s : State} (h : firstFailing (s.frameChecks s.badRCursor s.rSpan s.dstSpan) = none) :
    (∀ e, s.decodedFrame = .error e → execFrameDec s = s.raiseLateFault e [s.dstSpan]) ∧
    ∀ frame x, s.decodedFrame = .ok (frame, x) → execFrameDec s = .next (s.frameDecResult frame x) := by
  rw [State.frameChecks] at h
  unfold State.decodedFrame
  refine ⟨fun e he => ?_, fun frame x hx => ?_⟩
  · simp only [execFrameDec, h, he]
  · simp only [execFrameDec, h, hx]
    rfl

theorem bind_eq_ok {α β : Type} {x : Except ErrCode α} {f : α → Except ErrCode β} {b : β} :
    x >>= f = .ok b ↔ ∃ a, x = .ok a ∧ f a = .ok b := by
  cases x with
  | error e => exact ⟨nofun, nofun⟩
  | ok a => exact ⟨fun h => ⟨a, rfl, h⟩, fun ⟨_, ha, h⟩ => Except.ok.inj ha ▸ h⟩

/-- The flag of a frame that parses is a bit (R342 row 1). -/
theorem State.last_le_of_parseFrame {s : State} {limit p : Nat} {frame : FrameRead} (h : s.parseFrame limit p = .ok frame) :
    frame.last ≤ 1 := by
  rw [s.parseFrame_eq] at h
  simp only [ite_eq_iff, reduceCtorEq, and_false, false_or, bind_eq_ok] at h
  obtain ⟨-, hlast, -, -, -, r, -, hframe⟩ := h
  rw [← Except.ok.inj hframe]
  exact Nat.not_lt.1 hlast

theorem State.last_le_of_frameDecode {s : State} {limit p dcap : Nat} {frame : FrameRead} {x : List Byte}
    (h : s.frameDecode limit p dcap = .ok (frame, x)) : frame.last ≤ 1 := by
  obtain ⟨frame', hparse, hrest⟩ := bind_eq_ok.1 h
  obtain ⟨r, -, hrest⟩ := bind_eq_ok.1 hrest
  obtain ⟨x', -, heq⟩ := bind_eq_ok.1 hrest
  obtain ⟨rfl, -⟩ := Prod.mk.inj (Except.ok.inj heq)
  exact State.last_le_of_parseFrame hparse

/-- FRAME_DEC completes and keeps RAWWHY (R340). -/
theorem State.frameDecResult_spec (s : State) (frame : FrameRead) (x : List Byte) :
    (s.frameDecResult frame x).endedAs false false 0 ∧ s.keepsRest (s.frameDecResult frame x) ∧
      (s.frameDecResult frame x).status.rawwhy = s.status.rawwhy := by
  rw [State.frameDecResult, State.memWrite_eq]
  exact ⟨⟨rfl, rfl, rfl, rfl, rfl⟩, ⟨rfl, rfl, rfl, rfl, rfl, rfl, rfl⟩, rfl⟩

/-- Settles O42: each check once those before it pass, and how the frame decodes. -/
theorem frameDecWritesBlock : Obligations.FrameDecWritesBlock := by
  intro s
  have early {e : ErrCode} (h : firstFailing (s.frameChecks s.badRCursor s.rSpan s.dstSpan) = some e) :
      s.earlyFault .frameDec e.code := State.earlyFault_of_exec (execFrameDec_of_failing h)
  refine ⟨fun harg => early (State.frameChecks_arg (State.badRCursor_eq_true.2 harg)), fun hbit hlim => ?_⟩
  have hargs : s.badRCursor = false := Bool.eq_false_iff.2 (mt State.badRCursor_eq_true.1 (by omega))
  refine ⟨fun hrange => early (State.frameChecks_range hargs hrange), fun hr hdst =>
    ⟨fun hover => early (State.frameChecks_overlap hargs hr hdst hover), fun hapart => ?_⟩⟩
  obtain ⟨hfails, hdecodes⟩ := execFrameDec_of_pass (State.frameChecks_pass hargs hr hdst hapart)
  split
  next e he => exact State.lateFault_of_exec (i := .frameDec) (hfails e he)
  next frame x hx =>
    obtain ⟨hend, hrest, hwhy⟩ := s.frameDecResult_spec frame x
    have hlast : (frame.last == 1).toNat = frame.last := by
      have := State.last_le_of_frameDecode hx
      interval_cases frame.last <;> rfl
    exact ⟨_, hdecodes frame x hx, hend, hrest, s.memRead_memWrite _ x, s.sameOutside_memWrite _ x, rfl, rfl, hlast,
      rfl, hwhy⟩

end Sys2Proof.Machine
end

section
/-! PROOFS. Which commands raise which codes (60_exceptions.md R360, R362): every check and every computation of a command
stops with a code of a short list, and the list of a command is the sum of those it runs. -/

namespace Sys2Proof.Machine

/-! ### The codes of checks and of compression -/

/-- A check that fails reports one of the codes of its list. -/
theorem firstFailing_mem {checks : List (Bool × ErrCode)} {e : ErrCode} (h : firstFailing checks = some e)
    {codes : List ErrCode} (hcodes : ∀ c ∈ checks, c.2 ∈ codes) : e ∈ codes := by
  obtain ⟨pre, post, rfl, -⟩ := firstFailing_eq_some h
  exact hcodes (true, e) (by simp)

/-- What compression raises (45_fse_codec.md R266). -/
def codingErrors : List ErrCode := [.fseEmpty, .tableFull, .encUnderflow]

theorem errorsIn_encodeSymbol (f : List Nat) (A : Nat) (t : Tables) (x v : Nat) :
    ErrorsIn codingErrors (encodeSymbol f A t x v) := .ite (.error (by decide)) (.ok _)

theorem errorsIn_encodeSymbols (f : List Nat) (A : Nat) (t : Tables) (x : Nat) (d : List Nat) :
    ErrorsIn codingErrors (encodeSymbols f A t x d) := by
  induction d generalizing x with
  | nil => exact .ok _
  | cons v d ih =>
    unfold encodeSymbols
    split
    next hv => exact .error (errorsIn_encodeSymbol _ _ _ _ _ _ hv)
    · split
      next hd => exact .error (ih _ _ hd)
      · exact .ok _

theorem errorsIn_compress (d : List Nat) (A : Nat) : ErrorsIn codingErrors (compress d A) := by
  refine .ite (.error (by decide)) ?_
  dsimp only
  split
  · exact .error (by decide)
  · split
    next hd => exact .error (errorsIn_encodeSymbols _ _ _ _ _ _ hd)
    · exact .ok _

/-- With AUTOA the alphabet is the data's own, so no symbol is outside it (44_fse_tables.md R225). -/
theorem State.autoa_eq_false_of_symbol {s : State} {autoa : Bool}
    (h : (symbols s.srcBytes).any (fun v => decide (s.alphabet autoa ≤ v)) = true) : autoa = false := by
  cases autoa with
  | false => rfl
  | true =>
    obtain ⟨v, hv, hle⟩ := List.any_eq_true.1 h
    exact absurd (of_decide_eq_true hle) (Nat.not_le.2 (lt_denseAlphabet v hv))

/-! ### The codes of every command -/

/-- The codes of the checks that the commands on two ranges share (40_command_lifecycle.md R135). -/
def rangeErrors : List ErrCode := [.arg, .range, .overlap]

/-- The codes of the FAULTs of a command: the rows of R360 that name it. -/
def faultCodes : Instr → List ErrCode
  | .nop => []
  | .bwtFwd | .mtfEnc | .mtfDec | .rleEnc | .rleDec | .frameEnc _ _ => .dstOverflow :: rangeErrors
  | .bwtInv => .bwtRot :: .bwtCycle :: .dstOverflow :: rangeErrors
  | .fseNorm autoa => rangeErrors ++ if autoa then [] else [.symbol]
  | .fseBuild => .freqInvalid :: .tableFull :: .dstOverflow :: rangeErrors
  | .fseEnc autoa => .dstOverflow :: rangeErrors ++ if autoa then [] else [.symbol]
  | .fseDec => .toffInvalid :: decodingErrors ++ .dstOverflow :: rangeErrors
  | .bsPut _ => [.illegalCmd, .arg, .range, .dstOverflow]
  | .bsGet _ => [.illegalCmd, .arg, .range, .truncated]
  | .frameDec => frameErrors ++ rangeErrors

/-- The codes of the FAILs of a command (R362). -/
def failCodes : Instr → List ErrCode
  | .fseNorm _ => [.fseEmpty]
  | .fseEnc _ => codingErrors
  | .nop | .bwtFwd | .bwtInv | .mtfEnc | .mtfDec | .rleEnc | .rleDec | .fseBuild | .fseDec | .bsPut _ | .bsGet _
  | .frameEnc _ _ | .frameDec => []

/-- The ways command `i` can end in `s`, by the codes it can report. -/
inductive State.EndsListed (s : State) (i : Instr) : Result → Prop
  | fault {e : ErrCode} (he : e ∈ faultCodes i) : s.EndsListed i (s.raiseFault e)
  | lateFault {e : ErrCode} (written : List Span) (he : e ∈ faultCodes i) : s.EndsListed i (s.raiseLateFault e written)
  | fail {e : ErrCode} (written : List Span) (he : e ∈ failCodes i) : s.EndsListed i (s.raiseFail e written)
  | success (u : State) : s.EndsListed i (.next u.complete)

theorem State.EndsListed.fault_of_failing {s : State} {i : Instr} {checks : List (Bool × ErrCode)} {e : ErrCode}
    (h : firstFailing checks = some e) (hcodes : ∀ c ∈ checks, c.2 ∈ faultCodes i) :
    s.EndsListed i (s.raiseFault e) := .fault (firstFailing_mem h hcodes)

/-! ### The commands one by one -/

theorem State.byteChecks_codes (s : State) (limit n : Nat) :
    ∀ c ∈ s.byteChecks limit [] ++ [s.capacityCheck n], c.2 ∈ ErrCode.dstOverflow :: rangeErrors := by
  simp [State.byteChecks, State.capacityCheck, rangeErrors]

theorem State.endsListed_execBwtFwd (s : State) : s.EndsListed .bwtFwd (execBwtFwd s) := by
  unfold execBwtFwd
  split
  next h => exact .fault_of_failing h (s.byteChecks_codes _ _)
  · exact .success _

theorem State.endsListed_execBwtInv (s : State) : s.EndsListed .bwtInv (execBwtInv s) := by
  unfold execBwtInv
  split
  next h => exact .fault_of_failing h (by simp [State.byteChecks, State.capacityCheck, faultCodes, rangeErrors])
  · split
    · exact .lateFault _ (by decide)
    · exact .success _

theorem State.endsListed_recodeBlock (s : State) {i : Instr} (hi : faultCodes i = .dstOverflow :: rangeErrors)
    (f : List Byte → List Byte) : s.EndsListed i (s.recodeBlock f) := by
  unfold State.recodeBlock
  split
  next h => exact .fault_of_failing h (hi ▸ s.byteChecks_codes _ _)
  · exact .success _

theorem State.endsListed_recodeRuns (s : State) {i : Instr} (hi : faultCodes i = .dstOverflow :: rangeErrors)
    (limit : Nat) (f : List Byte → List Byte) : s.EndsListed i (s.recodeRuns limit f) := by
  unfold State.recodeRuns
  split
  next h => exact .fault_of_failing h (by simp [State.byteChecks, hi, rangeErrors])
  · dsimp only
    split
    · exact .lateFault _ (hi ▸ List.mem_cons_self)
    · exact .success _

theorem State.endsListed_execFseNorm (s : State) (autoa : Bool) : s.EndsListed (.fseNorm autoa) (execFseNorm autoa s) := by
  unfold execFseNorm
  split
  next h => exact .fault_of_failing h (by simp [faultCodes, rangeErrors])
  · split
    · exact .fail _ List.mem_cons_self
    · dsimp only
      split
      next h => exact .fault_of_failing h (by simp [faultCodes, rangeErrors])
      · split
        · exact .fail _ List.mem_cons_self
        · split
          next hsym => exact .lateFault _ (by simp [faultCodes, State.autoa_eq_false_of_symbol hsym])
          · exact .success _

theorem State.endsListed_execFseBuild (s : State) : s.EndsListed .fseBuild (execFseBuild s) := by
  unfold execFseBuild
  dsimp only
  split
  next h => exact .fault_of_failing h (by simp [State.capacityCheck, faultCodes, rangeErrors])
  · split
    · exact .lateFault _ (by decide)
    · split
      · exact .lateFault _ (by decide)
      · exact .success _

theorem State.endsListed_execFseEnc (s : State) (autoa : Bool) : s.EndsListed (.fseEnc autoa) (execFseEnc autoa s) := by
  unfold execFseEnc
  split
  next h => exact .fault_of_failing h (by simp [faultCodes, rangeErrors])
  · split
    · exact .fail _ List.mem_cons_self
    · dsimp only
      split
      next h => exact .fault_of_failing h (by simp [faultCodes, rangeErrors])
      · split
        · exact .fail _ List.mem_cons_self
        · split
          next hsym => exact .lateFault _ (by simp [faultCodes, State.autoa_eq_false_of_symbol hsym])
          · split
            next he => exact .fail _ (errorsIn_compress _ _ _ he)
            · split
              · exact .lateFault _ List.mem_cons_self
              · exact .success _

theorem State.endsListed_execFseDec (s : State) : s.EndsListed .fseDec (execFseDec s) := by
  unfold execFseDec
  dsimp only
  split
  next h => exact .fault_of_failing h (by simp [State.capacityCheck, faultCodes, rangeErrors])
  · split
    next he =>
      refine .lateFault _ ?_
      rcases decompress_error he with ⟨-, rfl⟩ | hdec
      · exact List.mem_cons_self
      · exact List.mem_cons_of_mem _ (List.mem_append_left _ hdec)
    · exact .success _

theorem State.endsListed_checked (s u : State) {i : Instr} {checks : List (Bool × ErrCode)}
    (hcodes : ∀ c ∈ checks, c.2 ∈ faultCodes i) : s.EndsListed i (s.checked checks u) := by
  unfold State.checked
  split
  next h => exact .fault_of_failing h hcodes
  · exact .success _

theorem State.endsListed_execFrameEnc (s : State) (last forceRaw : Bool) :
    s.EndsListed (.frameEnc last forceRaw) (execFrameEnc last forceRaw s) := by
  unfold execFrameEnc
  split
  next h => exact .fault_of_failing h (by simp [faultCodes, rangeErrors])
  · dsimp only
    split
    · exact .fault List.mem_cons_self
    · exact .success _

theorem State.endsListed_execFrameDec (s : State) : s.EndsListed .frameDec (execFrameDec s) := by
  unfold execFrameDec
  split
  next h => exact .fault_of_failing h (by simp [faultCodes, rangeErrors])
  · split
    next he => exact .lateFault _ (List.mem_append_left _ (s.errorsIn_frameDecode _ _ _ _ he))
    · exact .success _

/-- Every command ends with one of its codes, or with success. -/
theorem State.endsListed_exec (s : State) (i : Instr) : s.EndsListed i (exec i s) := by
  cases i with
  | nop => exact .success s
  | bwtFwd => exact s.endsListed_execBwtFwd
  | bwtInv => exact s.endsListed_execBwtInv
  | mtfEnc => exact s.endsListed_recodeBlock rfl mtfEncode
  | mtfDec => exact s.endsListed_recodeBlock rfl mtfDecode
  | rleEnc => exact s.endsListed_recodeRuns rfl _ rleEncode
  | rleDec => exact s.endsListed_recodeRuns rfl _ rleDecode
  | fseNorm autoa => exact s.endsListed_execFseNorm autoa
  | fseBuild => exact s.endsListed_execFseBuild
  | fseEnc autoa => exact s.endsListed_execFseEnc autoa
  | fseDec => exact s.endsListed_execFseDec
  | bsPut n => exact exec_bsPut n s ▸ s.endsListed_checked _ (by simp [State.bitChecks, faultCodes])
  | bsGet n => exact exec_bsGet n s ▸ s.endsListed_checked _ (by simp [State.bitChecks, faultCodes])
  | frameEnc last forceRaw => exact s.endsListed_execFrameEnc last forceRaw
  | frameDec => exact s.endsListed_execFrameDec

/-! ### The codes in ERRCODE -/

theorem State.EndsListed.fault_code {s t : State} {i : Instr} (h : s.EndsListed i (.next t))
    (hfault : t.status.fault = true) : ∃ e ∈ faultCodes i, t.status.errcode = e.code := by
  generalize hr : Host.Outcome.next t = r at h
  cases h with
  | fault he | lateFault _ he => exact ⟨_, he, Host.Outcome.next.inj hr ▸ rfl⟩
  | fail | success =>
    obtain rfl := Host.Outcome.next.inj hr
    cases hfault

theorem State.EndsListed.fail_code {s t : State} {i : Instr} (h : s.EndsListed i (.next t))
    (hfail : t.status.fail = true) : ∃ e ∈ failCodes i, t.status.errcode = e.code := by
  generalize hr : Host.Outcome.next t = r at h
  cases h with
  | fail _ he => exact ⟨_, he, Host.Outcome.next.inj hr ▸ rfl⟩
  | fault | lateFault | success =>
    obtain rfl := Host.Outcome.next.inj hr
    cases hfail

/-- Settles O24: the codes of the two commands that fail, and the raw frame of a block that the coder turns away. -/
theorem onlyEntropyEncodersFail : Obligations.OnlyEntropyEncodersFail := by
  refine ⟨fun i s t h hfail => ?_, fun b last e he => ?_⟩
  · obtain ⟨e, he, hcode⟩ := (h ▸ s.endsListed_exec i).fail_code hfail
    rw [hcode]
    cases i with
    | fseNorm autoa =>
      obtain rfl := List.mem_singleton.1 he
      exact .inl ⟨⟨autoa, rfl⟩, rfl⟩
    | fseEnc autoa =>
      have hlisted : ∀ e ∈ codingErrors, e.code ∈ [0x09, 0x0A, 0x0B] := by decide
      exact .inr ⟨⟨autoa, rfl⟩, hlisted e he⟩
    | nop | bwtFwd | bwtInv | mtfEnc | mtfDec | rleEnc | rleDec | fseBuild | fseDec | bsPut | bsGet | frameEnc
    | frameDec => cases he
  · rw [frameBuild_of_error last he]
    exact ⟨rfl, rfl⟩

/-- Settles O25: the codes of each command, as numbers. -/
theorem faultCodesOnlyByListedCommands : Obligations.FaultCodesOnlyByListedCommands := by
  intro i s t h hfault
  obtain ⟨e, he, hcode⟩ := (h ▸ s.endsListed_exec i).fault_code hfault
  rw [hcode]
  clear hcode hfault h
  cases i with
  | nop => cases he
  | fseNorm autoa | fseEnc autoa =>
    revert e
    cases autoa <;> decide
  | bwtFwd | bwtInv | mtfEnc | mtfDec | rleEnc | rleDec | fseBuild | fseDec | bsPut | bsGet | frameEnc
  | frameDec =>
    revert e
    simp [faultCodes, rangeErrors, decodingErrors, frameErrors, parsingErrors, restoringErrors, ErrCode.code]

end Sys2Proof.Machine
end

section
/-! PROOFS. The interrupt (60_exceptions.md R380), and the hazards of a running command: a reset (70_reset_and_hazards.md R402),
a write to a register (R410), and any other move of the host (R411). -/

namespace Sys2Proof.Machine

/-! ### Bits drawn by a reset (R402, 40_command_lifecycle.md R136) -/

/-- Bit `p` of DMEM as event `k` draws it (log entry 6). -/
def drawnBit (k p : Nat) : Bool := (Config.freeByte k (p / 8)).getLsbD (p % 8)

/-- A draw reaches every bit of its bytes but the `keep` low bits of the first. -/
theorem State.getBit_drawBytes_inside (s : State) (k : Nat) {keep a n p : Nat} (hlow : 8 * a + keep ≤ p)
    (hhigh : p < 8 * (a + n)) : (s.drawBytes k keep a n).getBit p = drawnBit k p := by
  induction n generalizing s keep a with
  | zero => omega
  | succ n ih =>
    rw [State.drawBytes]
    by_cases hfirst : p < 8 * (a + 1)
    · have hbyte : p / 8 = a := by omega
      rw [State.getBit_drawBytes_outside _ k (Nat.zero_le 8) (by omega), State.getBit_setByte, if_pos hbyte,
        getLsbD_mixByte keep _ _ (Nat.mod_lt p (by decide)), if_neg (by omega), drawnBit, hbyte]
    · exact ih _ (by omega) (by omega)

/-- The bits of a range that a command may write (R136). -/
abbrev Span.Writable (sp : Span) (p : Nat) : Prop := 8 * sp.addr + sp.keep ≤ p ∧ p < 8 * (sp.addr + sp.len)

theorem State.getBit_drawSpan_inside {s : State} (k : Nat) {sp : Span} {p : Nat} (hp : sp.Writable p)
    (hsize : p < 8 * s.cfg.dmemSize) : (s.drawSpan k sp).getBit p = drawnBit k p := by
  obtain ⟨hlow, hhigh⟩ := hp
  exact s.getBit_drawBytes_inside k hlow (by omega)

/-- A drawn bit stays drawn: a later range either draws it again, to the same value, or leaves it. -/
theorem State.getBit_drawSpan_of_drawn {s : State} {k : Nat} {sp : Span} {p : Nat} (hk : sp.keep ≤ 8)
    (hsize : p < 8 * s.cfg.dmemSize) (h : s.getBit p = drawnBit k p) : (s.drawSpan k sp).getBit p = drawnBit k p := by
  by_cases hp : sp.Writable p
  · exact State.getBit_drawSpan_inside k hp hsize
  · exact (State.getBit_drawSpan_outside s k hk hp).trans h

theorem State.drawSpan_cfg (s : State) (k : Nat) (sp : Span) : (s.drawSpan k sp).cfg = s.cfg := by rw [State.drawSpan_eq]

/-- Every writable bit of the ranges left unspecified that lies in DMEM takes its value of that event. -/
theorem State.getBit_unspecified_inside {s : State} {spans : List Span} {sp : Span} {p : Nat}
    (hk : ∀ sp ∈ spans, sp.keep ≤ 8) (hsp : sp ∈ spans) (hp : sp.Writable p) (hsize : p < 8 * s.cfg.dmemSize) :
    (s.unspecified spans).getBit p = drawnBit s.draws p := by
  have fold (k : Nat) (t : State) (hsize : p < 8 * t.cfg.dmemSize)
      (ht : (∃ sp ∈ spans, sp.Writable p) ∨ t.getBit p = drawnBit k p) :
      (spans.foldl (fun t sp => t.drawSpan k sp) t).getBit p = drawnBit k p := by
    clear hsp
    induction spans generalizing t with
    | nil => exact ht.resolve_left (by simp)
    | cons q spans ih =>
      obtain ⟨hq, hk⟩ := List.forall_mem_cons.1 hk
      refine ih hk (t.drawSpan k q) (t.drawSpan_cfg k q ▸ hsize) ?_
      rcases ht with ⟨r, hr, hp⟩ | hdrawn
      · rcases List.mem_cons.1 hr with rfl | hr
        · exact .inr (State.getBit_drawSpan_inside k hp hsize)
        · exact .inl ⟨r, hr, hp⟩
      · exact .inr (State.getBit_drawSpan_of_drawn hq hsize hdrawn)
  exact fold s.draws s hsize (.inl ⟨sp, hsp, hp⟩)

/-- Settles O9: a reset abandons the command, which leaves its ranges unspecified, and resets the registers. -/
theorem abandonedCommandBitsAreDrawn : Obligations.AbandonedCommandBitsAreDrawn := by
  intro s w a i hs hd
  refine ⟨fun sp hsp p hlow hhigh hsize => ?_, rfl, rfl, rfl, rfl, rfl⟩
  rw [State.resetEngine_getBit, State.abandon_run hs, State.runningWritten_run hs hd]
  exact State.getBit_unspecified_inside (fun _ => State.keep_le_of_mem_writtenSpans) hsp ⟨hlow, hhigh⟩ hsize

/-! ### Register writes while a command runs (R410) -/

theorem State.writeReg_cmd_busy {s : State} (h : s.busy = true) (w : Word) : s.writeReg .cmd w = s.setOverrun := if_pos h

/-- A CTRL write without SRST writes IE alone (10_state.md R34, R401). -/
theorem State.writeReg_ctrl_ie (s : State) {v : Word} (hv : v.getLsbD 1 = false) :
    s.writeReg .ctrl v = { s with ie := v.getLsbD 0 } := if_neg (Bool.eq_false_iff.1 hv)

/-- The constants and the result registers ignore writes (10_state.md R31, R32). -/
theorem State.writeReg_readOnly (s : State) {r : Reg} (hr : r ∈ [Reg.id, .rlen, .prec, .nrec, .clen, .maxblk, .dmemsz])
    (v : Word) : s.writeReg r v = s := by fin_cases hr <;> rfl

/-- Only an acknowledge of OVERRUN and a soft reset clear it (R410). -/
theorem State.RegEffect.clears_overrun {s t : State} {v : Word} {r : Reg} (h : s.RegEffect v r t)
    (hs : s.status.overrun = true) (ht : t.status.overrun = false) :
    (r = .status ∧ v.getLsbD 6 = true) ∨ (r = .ctrl ∧ v.getLsbD 1 = true) := by
  cases h with
  | acknowledged => exact .inl ⟨rfl, by simpa [hs] using ht⟩
  | softReset hsrst => exact .inr ⟨rfl, hsrst⟩
  | overrun => cases ht
  | ignored | accepted | enabled | stored => cases hs.symm.trans ht

theorem State.HostEffect.clears_overrun {s t : State} {m : HostAccess} (h : s.HostEffect m t)
    (hs : s.status.overrun = true) (ht : t.status.overrun = false) :
    ∃ addr data, m = .write addr data ∧
      ((addr = s.cfg.regBase + 0x08 ∧ (wordOfData data).getLsbD 6 = true) ∨
        (addr = s.cfg.regBase + 0x0C ∧ (wordOfData data).getLsbD 1 = true)) := by
  cases h with
  | read | reserved => cases hs.symm.trans ht
  | dmem addr off data =>
    rw [State.memWrite_eq] at ht
    cases hs.symm.trans ht
  | register r data =>
    refine ⟨_, data, rfl, ?_⟩
    rcases (s.regEffect_writeReg r _).clears_overrun hs ht with ⟨rfl, hv⟩ | ⟨rfl, hv⟩
    · exact .inl ⟨rfl, hv⟩
    · exact .inr ⟨rfl, hv⟩

theorem State.Ends.keepsRest {s t : State} (h : s.Ends (.next t)) : s.keepsRest t := by
  obtain ⟨u, hu, ⟨-, -, -, hrest⟩, -⟩ := h.spec
  exact Host.Outcome.next.inj hu ▸ hrest

theorem engineMove_overrun {s t : State} (h : engineMove s = .next t) : t.status.overrun = s.status.overrun := by
  cases hb : s.busy with
  | false =>
    rw [State.engineMove_idle (s.busy_eq_false.1 hb)] at h
    rw [Host.Outcome.next.inj h]
  | true =>
    obtain ⟨-, hoverrun, -⟩ := (h ▸ State.ends_engineMove hb).keepsRest
    exact hoverrun

/-- Settles O11: what each write does while BUSY, and of the moves of a step, which clear OVERRUN. -/
theorem writesWhileBusySetStickyOverrun : Obligations.WritesWhileBusySetStickyOverrun := by
  refine ⟨fun s v hb => ⟨fun r hr => ?_, s.writeReg_ctrl_ie, s.writeReg_ctrl_srst, rfl,
    fun r hr => s.writeReg_readOnly hr v, fun off hoff => s.writeWindow_reserved hoff v⟩, fun s t hs h ht => ?_⟩
  · rcases hr with rfl | hr
    · exact State.writeReg_cmd_busy hb v
    · obtain ⟨a, ha⟩ := Option.isSome_iff_exists.1 hr
      exact State.writeReg_busy_of_put hb ha
  · have engine {u : State} (hu : u.status.overrun = true) : engineMove u ≠ .next t := fun hmove => by
      rw [engineMove_overrun hmove, hu] at ht
      cases ht
    rcases step_cases h with ⟨-, hmove⟩ | ⟨turn, rest, hturns, hmove⟩
    · exact absurd hmove.symm (engine hs)
    · cases turn with
      | engine => exact absurd hmove.symm (engine (u := { s with turns := rest }) hs)
      | host m =>
        obtain ⟨addr, data, rfl, hclear⟩ := (State.hostEffect_of_hostMove hmove.symm).clears_overrun hs ht
        exact .inr ⟨addr, data, rest, hturns, hclear⟩
      | hardReset => exact .inl ⟨rest, .inl hturns⟩
      | powerOn => exact .inl ⟨rest, .inr hturns⟩

/-! ### The interrupt (60_exceptions.md R380) -/

theorem State.irq_iff (s : State) : s.irq = true ↔ s.ie = true ∧ s.status.done = true := Bool.and_eq_true_iff

theorem State.irq_eq_false_of_done {s : State} (h : s.status.done = false) : s.irq = false := by
  rw [State.irq, h, Bool.and_false]

/-- Where the interrupt is enabled, the end of a command raises it. -/
theorem State.Ends.irq {s t : State} (h : s.Ends (.next t)) (hie : s.ie = true) : t.irq = true := by
  obtain ⟨u, hu, ⟨-, hdone, -, hrest⟩, -⟩ := h.spec
  obtain rfl := Host.Outcome.next.inj hu
  obtain ⟨hkeep, -⟩ := hrest
  exact t.irq_iff.2 ⟨hkeep.trans hie, hdone⟩

theorem State.RegEffect.done_of_done {s t : State} {v : Word} {r : Reg} (h : s.RegEffect v r t)
    (ht : t.status.done = true) : s.status.done = true := by
  cases h with
  | acknowledged => exact (Bool.and_eq_true_iff.1 ht).1
  | accepted | softReset => cases ht
  | ignored | overrun | enabled | stored => exact ht

/-- No move of the host sets DONE. -/
theorem State.HostEffect.done_of_done {s t : State} {m : HostAccess} (h : s.HostEffect m t)
    (ht : t.status.done = true) : s.status.done = true := by
  cases h with
  | read | reserved => exact ht
  | register r data => exact (s.regEffect_writeReg r _).done_of_done ht
  | dmem addr off data =>
    rw [State.memWrite_eq] at ht
    exact ht

/-- A move of the engine that sets DONE completes a running command. -/
theorem engineMove_sets_done {s t : State} (h : engineMove s = .next t) (hs : s.status.done = false)
    (ht : t.status.done = true) : s.busy = true ∧ t.busy = false := by
  cases hb : s.busy with
  | false =>
    rw [State.engineMove_idle (s.busy_eq_false.1 hb)] at h
    obtain rfl := Host.Outcome.next.inj h
    cases hs.symm.trans ht
  | true =>
    obtain ⟨u, hu, ⟨hidle, -⟩, -⟩ := (h ▸ State.ends_engineMove hb : s.Ends (.next t)).spec
    obtain rfl := Host.Outcome.next.inj hu
    exact ⟨rfl, t.busy_eq_false.2 hidle⟩

/-- Settles O15: the ends of a command raise IRQ, the writes and the resets drop it, and of the moves of a step only the
engine's sets DONE. -/
theorem interruptIsEnabledDone : Obligations.InterruptIsEnabledDone := by
  refine ⟨fun s => ⟨s.irq_iff, fun i t hie h => (h ▸ s.ends_exec i).irq hie,
    fun t hie hb h => (h ▸ State.ends_engineMove hb).irq hie, fun v hv => ?_, fun w hidle => ?_,
    fun v => s.writeReg_ctrl_ie, fun v hie hv => ?_, rfl⟩, fun s t h hs ht => ?_⟩
  · exact State.irq_eq_false_of_done (by simp [State.writeReg_status, hv])
  · rw [State.writeReg_cmd_idle hidle]
    exact State.irq_eq_false_of_done rfl
  · rw [s.writeReg_ctrl_ie hv, hie]
    exact ⟨rfl, rfl⟩
  · rcases step_cases h with ⟨hturns, hmove⟩ | ⟨turn, rest, hturns, hmove⟩
    · obtain ⟨hb, hidle⟩ := engineMove_sets_done hmove.symm hs ht
      exact ⟨hb, hidle, .inl hturns⟩
    · cases turn with
      | engine =>
        obtain ⟨hb, hidle⟩ := engineMove_sets_done (s := { s with turns := rest }) hmove.symm hs ht
        exact ⟨hb, hidle, .inr ⟨rest, hturns⟩⟩
      | host m => cases hs.symm.trans ((State.hostEffect_of_hostMove hmove.symm).done_of_done ht)
      | hardReset | powerOn =>
        obtain rfl := Host.Outcome.next.inj hmove
        cases ht

/-! ### A running command and the host (R411, 40_command_lifecycle.md R130) -/

/-- What a running command has and will report is as before: the command, the registers, DONE and the frame flags. -/
def State.KeepsRun (s t : State) : Prop :=
  t.seq = s.seq ∧ t.regs = s.regs ∧ t.res = s.res ∧ t.status.done = s.status.done ∧ s.keepsFrameFlags t

theorem State.KeepsRun.refl (s : State) : s.KeepsRun s := ⟨rfl, rfl, rfl, rfl, rfl, rfl, rfl⟩

theorem State.keepsRun_ackStatus {s : State} (h : s.status.done = false) (v : Word) : s.KeepsRun (s.ackStatus v) :=
  ⟨rfl, rfl, rfl, by simp [h], rfl, rfl, rfl⟩

/-- While a command runs, DONE is 0, so that an acknowledge cannot change it. -/
theorem State.done_of_running {s : State} {w : Word} {a : ArgRegs} (h : s.runInv) (hs : s.seq = .run w a) :
    s.status.done = false := by
  simp only [State.runInv, hs] at h
  obtain ⟨-, -, hdone, -⟩ := h
  exact hdone

/-- Of the register writes, only a soft reset disturbs a running command. -/
theorem State.RegEffect.keepsRun_or_reset {s t : State} {v : Word} {r : Reg} {w : Word} {a : ArgRegs}
    (h : s.RegEffect v r t) (hs : s.seq = .run w a) (hdone : s.status.done = false) :
    s.KeepsRun t ∨ (t = s.resetEngine ∧ r = .ctrl ∧ v.getLsbD 1 = true) := by
  cases h with
  | ignored | overrun | enabled => exact .inl (.refl s)
  | acknowledged => exact .inl (State.keepsRun_ackStatus hdone v)
  | softReset hsrst => exact .inr ⟨rfl, rfl, hsrst⟩
  | accepted hidle => cases hs.symm.trans hidle
  | stored r a hidle => cases hs.symm.trans hidle

theorem State.HostEffect.keepsRun_or_reset {s t : State} {m : HostAccess} {w : Word} {a : ArgRegs}
    (h : s.HostEffect m t) (hs : s.seq = .run w a) (hdone : s.status.done = false) :
    s.KeepsRun t ∨ (t = s.resetEngine ∧ ∃ addr data, m = .write addr data ∧ addr = s.cfg.regBase + 0x0C ∧
      (wordOfData data).getLsbD 1 = true) := by
  cases h with
  | read | reserved => exact .inl (.refl s)
  | dmem addr off data =>
    rw [State.memWrite_eq]
    exact .inl (.refl s)
  | register r data =>
    refine ((s.regEffect_writeReg r _).keepsRun_or_reset hs hdone).imp_right ?_
    rintro ⟨hreset, rfl, hv⟩
    exact ⟨hreset, _, data, rfl, rfl, hv⟩

/-- Settles O19. -/
theorem hostCannotDisturbRunningCommand : Obligations.HostCannotDisturbRunningCommand := by
  rintro s t w a m ⟨-, -, hrun, -⟩ hs h
  have hdone := State.done_of_running hrun hs
  exact hs ▸ (State.hostEffect_of_hostMove h).keepsRun_or_reset hs hdone

end Sys2Proof.Machine
end
